-- ==== Sys2Proof/Word.lean ====
section
/-! DEFINITION. The unit of every address space of the block (spec R60): the byte. Everything else that a
test could show wrong (assembling lengths, bit fields, byte orders) stands in `Sys2Proof/Decode.lean` and in
`Sys2Proof/Machine/`. -/

namespace Sys2Proof

/-- One byte of `IN`, `OUT` or of a stream (spec R7, R60). -/
abbrev Byte := BitVec 8

end Sys2Proof
end

