-- ==== Sys2Proof/Config.lean ====
section
/-! DEFINITION. The parameters of the block as a record (spec R6: "a model should make every non-source
value a configuration field"), the names that its codes stand for, and the laws the spec asks of the
parameters. The VALUES the spec gives stand in `Sys2Proof/Machine/Params.lean` (numbers and codes) and
`Sys2Proof/Machine/TokenCodec.lean` (the default record `config`). The block's step takes the record
(`Sys2Proof/Machine/Engine.lean`), so no value of it is fixed in the step. There is no opaque free value:
what the spec leaves unspecified is memory content, which the model gives no value (log entries 4 and 5),
and the hidden registers right after reset (log entry 6). -/

namespace Sys2Proof

namespace Machine

/-- `STATUS` (R22); its 2-bit code is a parameter (`Config.statusCode`). -/
inductive Status where
  | idle
  | busy
  | done
  | err
  deriving DecidableEq, Repr

/-- `ERR_KIND` (R262); its 2-bit code is a parameter (`Config.errKindCode`). -/
inductive ErrKind where
  | none
  | malformedStream
  | malformedBuffer
  deriving DecidableEq, Repr

/-- `ERR_CAUSE` (R262); its 3-bit code is a parameter (`Config.errCauseCode`). -/
inductive ErrCause where
  | none
  | truncatedHeader
  | truncatedToken
  | refBeforeStart
  | badTag
  | badLength
  deriving DecidableEq, Repr

/-- The four commands (R120); the code that `CMD` holds for each is a parameter (`Config.commandCode`). -/
inductive Command where
  | decompress
  | compress
  | decodeTileset
  | decodeTilesetOpaque
  deriving DecidableEq, Repr

end Machine

/-- The coding of a back-reference token, the spec's open parameter `TOKCODEC` (R99, decision D6). -/
structure TokCodec where
  /-- Token size in bytes, from bits [7:4] of the token's first byte. -/
  size : BitVec 4 → Nat
  /-- `(length, distance)` of a token of the size its first nibble selects. -/
  decode : List Byte → Nat × Nat
  /-- The token of a `(length, distance)` pair. -/
  encode : Nat → Nat → List Byte

/-- The parameters that are not the source's own (R6, U7, U9, U10, U14). -/
structure Config where
  /-- `TAG`, the first byte of a stream (decision D5). -/
  tag : Byte
  /-- `TOKCODEC` (decision D6). -/
  tok : TokCodec
  /-- `WINDOW`, the largest distance (decision D7). -/
  window : Nat
  /-- `MAXLEN`, the largest length (decision D7). -/
  maxLen : Nat
  /-- `K`, the bytes of a match-index key (decision D8). -/
  keyBytes : Nat
  /-- `OUT_CAP`, the capacity of `OUT`: `none` is unbounded, the spec's choice (decision D27). -/
  outCap : Option Nat
  /-- Command codes (decision D2): the command that a value of `CMD` selects. -/
  commandOf : BitVec 2 → Machine.Command
  /-- Command codes (decision D2): the value of `CMD` that selects a command. -/
  commandCode : Machine.Command → BitVec 2
  /-- The values of `STATUS` (decision D1, U9). -/
  statusCode : Machine.Status → BitVec 2
  /-- Error codes: the values of `ERR_KIND` (decision D13). -/
  errKindCode : Machine.ErrKind → BitVec 2
  /-- Error codes: the values of `ERR_CAUSE` (decision D13). -/
  errCauseCode : Machine.ErrCause → BitVec 3
  /-- The width of `IN_LEN` in bits (decision D4). -/
  inLenBits : Nat
  /-- The width of `OUT_LEN` in bits (decision D4). -/
  outLenBits : Nat

/-- A pair a token can stand for: `3 ≤ l ≤ MAXLEN`, `1 ≤ d ≤ WINDOW` (R98, R99). -/
def Config.Encodable (c : Config) (l d : Nat) : Prop :=
  3 ≤ l ∧ l ≤ c.maxLen ∧ 1 ≤ d ∧ d ≤ c.window

/-- What the spec asks of the parameters: the record and the laws of R99 for the token coding, the range of `K` (R157), that a
code stands for one thing, and that the length registers hold every length and every result (R141). That no register
is wider than the spec's 32 and 33 bits is the model's choice (log entry 24). -/
structure Config.Lawful (c : Config) : Prop where
  /-- `TOKCODEC.size : Nibble -> {2, 3, 4, ...}`. -/
  size_ge : ∀ n, 2 ≤ c.tok.size n
  /-- R99 (b): there are at least two sizes. -/
  two_sizes : ∃ m n, c.tok.size m ≠ c.tok.size n
  /-- Law 1: decoding an encoded pair gives it back. -/
  decode_encode : ∀ l d, c.Encodable l d → c.tok.decode (c.tok.encode l d) = (l, d)
  /-- Law 2: an encoded token has the size that the high nibble of its first byte selects. -/
  size_encode : ∀ l d, c.Encodable l d → ∃ b rest, c.tok.encode l d = b :: rest ∧
    c.tok.size (BitVec.ofNat 4 (b.toNat / 16)) = (c.tok.encode l d).length
  /-- Law 3: every byte string of the size its first nibble selects decodes to a legal pair. -/
  decode_legal : ∀ b rest, c.tok.size (BitVec.ofNat 4 (b.toNat / 16)) = (b :: rest).length →
    c.Encodable (c.tok.decode (b :: rest)).1 (c.tok.decode (b :: rest)).2
  /-- A key has at least one byte and at most `MINLEN` = 3. -/
  key_pos : 1 ≤ c.keyBytes
  key_le : c.keyBytes ≤ 3
  /-- Every command has a code, and every value of `CMD` is a command's (R21: "there is no reserved code"). -/
  command_code : ∀ k, c.commandOf (c.commandCode k) = k
  code_command : ∀ v, c.commandCode (c.commandOf v) = v
  /-- Different outcomes have different codes. -/
  status_code : ∀ x y, c.statusCode x = c.statusCode y → x = y
  kind_code : ∀ x y, c.errKindCode x = c.errKindCode y → x = y
  cause_code : ∀ x y, c.errCauseCode x = c.errCauseCode y → x = y
  /-- Every result of `DECOMPRESS` (R141: `total_len ≤ 2^32 − 1`), `COMPRESS` and the pixel commands fits `OUT_LEN`. -/
  inLen_le : c.inLenBits ≤ 32
  outLen_le : c.outLenBits ≤ 33
  outLen_ge : 32 ≤ c.outLenBits
  outLen_gt : c.inLenBits < c.outLenBits

/-- The tokens fit the group buffer: "`grp_buf` needs 32 bytes because a group holds up to 8 tokens of up to 4 bytes under
`TOKCODEC`" (R27). The default has it. -/
def Config.Buffered (c : Config) : Prop := ∀ n, c.tok.size n ≤ 4

/-- A token is no longer than what it stands for, on which R141's bound for `COMPRESS` rests ("a back-reference costs 2, 3 or 4
stream bytes for at least 3, 17 and 273 input bytes"). The default has it. -/
def Config.Compact (c : Config) : Prop := ∀ l d, c.Encodable l d → (c.tok.encode l d).length ≤ l

end Sys2Proof
end

