-- ==== Sys2Proof/Machine/Params.lean ====
section
/-! DEFINITION. The numbers and codes of spec R6. Those the source states (or that follow from source values by
arithmetic) come first; the defaults supplied from general knowledge carry the mark PRESUMED (log entries 9 and
10); the widths and codes that the spec decided itself come last (log entry 20). Each value that is not the
source's is a field of `Config`, of which these are the defaults (`config`). -/

namespace Sys2Proof.Machine

/-- `MINLEN`, the smallest back-reference length (R6, source). -/
def minLen : Nat := 3

/-- `GROUP`, tokens per control byte (R6, source). -/
def groupSize : Nat := 8

/-- `WIDTH`, raster and texture width in pixels (R6, source). -/
def rasterWidth : Nat := 1024

/-- `TILE_W` = `TILE_H`, side of a tile in pixels (R6, source). -/
def tileSide : Nat := 4

/-- `TILES_PER_ROW` = `WIDTH / TILE_W` (R6, derived from source values). -/
def tilesPerRow : Nat := 256

/-- `STRIDE`, bytes of one tile-row of samples: 4 × 4 × 2 × 256 (R6, R69, derived from source values). -/
def tileRowStride : Nat := 8192

/-- `LEN24_MAX`, the largest length of the short header (R6). -/
def len24Max : Nat := 16777215

/-- `K`, bytes of a match-index key (R6, R151, decision D8). -/
def keyBytes : Nat := 3

/-- `TAG` (R6, R91). PRESUMED (log entry 9): the spec supplies 0x11 from general knowledge, decision D5. -/
def tagByte : Byte := 0x11

/-- `WINDOW` (R6, R104). PRESUMED (log entry 10): follows from the default token table, decision D7. -/
def windowSize : Nat := 4096

/-- `MAXLEN` (R6, R104). PRESUMED (log entry 10): follows from the default token table, decision D7. -/
def maxLen : Nat := 65808

/-- `OUT_CAP`: unbounded (R6, R309, decision D27; log entry 12). -/
def outCapacity : Option Nat := none

/-- The width of `IN_LEN` (R6, R21, decision D4). -/
def inLenWidth : Nat := 32

/-- The width of `OUT_LEN` (R6, R21, decision D4). -/
def outLenWidth : Nat := 33

/-- The command whose code `CMD` holds (R120, decision D2). -/
def commandOfCode (code : BitVec 2) : Command :=
  if code = 0 then .decompress
  else if code = 1 then .compress
  else if code = 2 then .decodeTileset
  else .decodeTilesetOpaque

/-- The code of a command (R120, decision D2). -/
def codeOfCommand (k : Command) : BitVec 2 :=
  match k with
  | .decompress => 0
  | .compress => 1
  | .decodeTileset => 2
  | .decodeTilesetOpaque => 3

/-- The 2-bit value of `STATUS` (R22, decision D1). -/
def statusCode (s : Status) : BitVec 2 :=
  match s with
  | .idle => 0
  | .busy => 1
  | .done => 2
  | .err => 3

/-- The 2-bit value of `ERR_KIND` (R262, decision D13). -/
def errKindCode (k : ErrKind) : BitVec 2 :=
  match k with
  | .none => 0
  | .malformedStream => 1
  | .malformedBuffer => 2

/-- The 3-bit value of `ERR_CAUSE` (R262, decision D13). -/
def errCauseCode (c : ErrCause) : BitVec 3 :=
  match c with
  | .none => 0
  | .truncatedHeader => 1
  | .truncatedToken => 2
  | .refBeforeStart => 3
  | .badTag => 4
  | .badLength => 5

end Sys2Proof.Machine
end

