-- ==== Sys2Proof/Syntax.lean ====
section
/-! DEFINITION. The encoded things of the block, one constructor per row of `spec/opcode_table.json`
(R123): the items of a compressed stream, the two sample formats, the raster pixel and the four commands. -/

namespace Sys2Proof

/-- One row of the opcode table, with the row's fields as operands. -/
inductive Instr where
  /-- `HDR`: short header, `len24` is the decompressed length (R91). -/
  | hdr (len24 : BitVec 24)
  /-- `HDRX`: extended header, the 24-bit field is 0 and `len32` is the length (R92). -/
  | hdrx (len32 : BitVec 32)
  /-- `CTL`: control byte, bit `7 − j` selects the kind of token `j` (R95). -/
  | ctl (flags : BitVec 8)
  /-- `LIT`: literal byte (R97). -/
  | lit (value : BitVec 8)
  /-- `REF2`: compact back-reference, length `n + 1`, distance `disp + 1` (R102). -/
  | ref2 (n : BitVec 4) (disp : BitVec 12)
  /-- `REF3`: extended back-reference, length `lenf + 17`, distance `disp + 1` (R103). -/
  | ref3 (lenf : BitVec 8) (disp : BitVec 12)
  /-- `REF4`: extended back-reference, length `lenf + 273`, distance `disp + 1` (R104). -/
  | ref4 (lenf : BitVec 16) (disp : BitVec 12)
  /-- `PIX_A3RGB4`: sample with 3-bit alpha and 4-bit channels (R110). -/
  | pixA3rgb4 (a3 : BitVec 3) (r4 g4 b4 : BitVec 4)
  /-- `PIX_RGB5`: opaque sample with 5-bit channels (R111). -/
  | pixRgb5 (r5 g5 b5 : BitVec 5)
  /-- `RASTER_PIXEL`: the four output bytes of one pixel, in address order (R113). -/
  | rasterPixel (blue green red alpha : BitVec 8)
  /-- `DECOMPRESS`: command code 0 (R120, R134). -/
  | decompress
  /-- `COMPRESS`: command code 1 (R120, R135). -/
  | compress
  /-- `DECODE_TILESET`: command code 2 (R120, R136). -/
  | decodeTileset
  /-- `DECODE_TILESET_OPAQUE`: command code 3 (R120, R137). -/
  | decodeTilesetOpaque
  deriving DecidableEq, Repr

end Sys2Proof
end

