-- ==== Sys2Proof/WellFormed.lean ====
section
/-! DEFINITION. Which instructions have an encoding: the two constraints of the opcode table that the operand
widths do not already express (`len24 ≠ 0` for `HDR`, `N ≥ 2` for `REF2`). -/

namespace Sys2Proof

/-- `HDR` needs a nonzero 24-bit length, since 0 selects `HDRX` (R91, R93). -/
def hdrLengthOk (len24 : BitVec 24) : Bool := len24 != 0

/-- `REF2` needs a nibble of 2 to 15, since 0 and 1 select the extended tiers (R101). -/
def ref2NibbleOk (n : BitVec 4) : Bool := 2 ≤ n.toNat

/-- The instruction is one that the stream, the sample, the raster or the command register can hold. -/
def Instr.wellFormed (i : Instr) : Bool :=
  match i with
  | .hdr len24 => hdrLengthOk len24
  | .hdrx _ => true
  | .ctl _ => true
  | .lit _ => true
  | .ref2 n _ => ref2NibbleOk n
  | .ref3 _ _ => true
  | .ref4 _ _ => true
  | .pixA3rgb4 _ _ _ _ => true
  | .pixRgb5 _ _ _ => true
  | .rasterPixel _ _ _ _ => true
  | .decompress => true
  | .compress => true
  | .decodeTileset => true
  | .decodeTilesetOpaque => true

end Sys2Proof
end

