-- ==== Sys2Proof/Decode.lean ====
section
/-! DEFINITION. The decoder, total on any bytes and rejecting by name, and after it the encoder, both
written from the encodings of spec sections 1 to 3 of `30_encoding.md` (R90 to R120). An item's bytes do not
say what kind of item they are: its position does (R106), so the decoder takes a `Ctx`. -/

namespace Sys2Proof

/-- `le(b)`: the number whose least significant byte is the first byte of `b` (R9). -/
def leNat : List Byte → Nat
  | [] => 0
  | b :: bs => b.toNat + 256 * leNat bs

/-- `be(b)`, accumulating from the left: the number whose most significant byte is the first of `b` (R9). -/
def beNatAcc : Nat → List Byte → Nat
  | acc, [] => acc
  | acc, b :: bs => beNatAcc (256 * acc + b.toNat) bs

/-- `be(b)`: the number whose most significant byte is the first byte of `b` (R9). -/
def beNat (bs : List Byte) : Nat := beNatAcc 0 bs

/-- The `n` little-endian bytes of `v` (R63, R201). -/
def leBytes : Nat → Nat → List Byte
  | 0, _ => []
  | n + 1, v => BitVec.ofNat 8 v :: leBytes n (v / 256)

/-- The `n` big-endian bytes of `v` (R64, R66). -/
def beBytes (n v : Nat) : List Byte := (leBytes n v).reverse

/-- `v[hi:lo]`, the unsigned value of bits `hi` down to `lo` (R7). -/
def bitField (v hi lo : Nat) : Nat := v / 2 ^ lo % 2 ^ (hi + 1 - lo)

/-- The high nibble of a token's first byte, `N` of R101. -/
def highNibble (b : Byte) : Nat := bitField b.toNat 7 4

/-- `TOKCODEC.size` for the default table: 3 for nibble 0, 4 for nibble 1, otherwise 2 (R101, R179). -/
def tokenSizeOfNibble (n : Nat) : Nat := if n = 0 then 3 else if n = 1 then 4 else 2

/-- Where an item stands, which selects its kind (R106, R123). -/
inductive Ctx where
  /-- Stream offset 0. -/
  | header
  /-- First byte of a token block. -/
  | control
  /-- A token whose control bit is 0. -/
  | literal
  /-- A token whose control bit is 1. -/
  | reference
  /-- A 16-bit sample of the tiled buffer. -/
  | sample
  /-- Four output bytes of the raster. -/
  | raster
  /-- The `CMD` register, as one byte. -/
  | command
  deriving DecidableEq, Repr

/-- Why bytes are no instruction. -/
inductive Reject where
  /-- The first byte of a stream is not `TAG` (R107, R170). -/
  | badTag
  /-- A value that the 2-bit `CMD` register cannot hold (R21). -/
  | notACommand
  deriving DecidableEq, Repr

/-- What the decoder answers. -/
inductive Decoded where
  /-- The instruction and the bytes after it. -/
  | ok (i : Instr) (rest : List Byte)
  /-- The item has `n` bytes in all (as far as its bytes so far tell), and fewer are there. -/
  | need (n : Nat)
  /-- No instruction, by name. -/
  | reject (r : Reject)
  deriving DecidableEq, Repr

/-- The instruction of a command (R120). -/
def commandInstr (k : Machine.Command) : Instr :=
  match k with
  | .decompress => .decompress
  | .compress => .compress
  | .decodeTileset => .decodeTileset
  | .decodeTilesetOpaque => .decodeTilesetOpaque

/-- The command whose code `CMD` holds (R120), with the default codes. -/
def decodeCmd (code : BitVec 2) : Instr := commandInstr (Machine.commandOfCode code)

/-- The header at stream offset 0, for the tag `tag`: 4 bytes, or 8 when the 24-bit field is 0 (R91 to R93, R170 to
R172). -/
def decodeHeader (tag : Byte) : List Byte → Decoded
  | t :: b1 :: b2 :: b3 :: rest =>
    if t ≠ tag then .reject .badTag
    else if leNat [b1, b2, b3] ≠ 0 then .ok (.hdr (BitVec.ofNat 24 (leNat [b1, b2, b3]))) rest
    else match rest with
      | c0 :: c1 :: c2 :: c3 :: rest' => .ok (.hdrx (BitVec.ofNat 32 (leNat [c0, c1, c2, c3]))) rest'
      | _ => .need 8
  | _ => .need 4

/-- The fields of a 2-byte token `NNNN DDDD DDDD DDDD` (R102). -/
def ref2OfWord (w : Nat) : Instr :=
  .ref2 (BitVec.ofNat 4 (bitField w 15 12)) (BitVec.ofNat 12 (bitField w 11 0))

/-- The fields of a 3-byte token `0000 LLLL LLLL DDDD DDDD DDDD` (R103). -/
def ref3OfWord (w : Nat) : Instr :=
  .ref3 (BitVec.ofNat 8 (bitField w 19 12)) (BitVec.ofNat 12 (bitField w 11 0))

/-- The fields of a 4-byte token `0001 LLLL LLLL LLLL LLLL DDDD DDDD DDDD` (R104). -/
def ref4OfWord (w : Nat) : Instr :=
  .ref4 (BitVec.ofNat 16 (bitField w 27 12)) (BitVec.ofNat 12 (bitField w 11 0))

/-- A back-reference token; bits [7:4] of its first byte select the tier (R101 to R104). -/
def decodeReference : List Byte → Decoded
  | [] => .need 1
  | b0 :: bs =>
    if highNibble b0 = 0 then
      match bs with
      | b1 :: b2 :: rest => .ok (ref3OfWord (beNat [b0, b1, b2])) rest
      | _ => .need 3
    else if highNibble b0 = 1 then
      match bs with
      | b1 :: b2 :: b3 :: rest => .ok (ref4OfWord (beNat [b0, b1, b2, b3])) rest
      | _ => .need 4
    else
      match bs with
      | b1 :: rest => .ok (ref2OfWord (beNat [b0, b1])) rest
      | _ => .need 2

/-- The format and fields of a sample `d`: bit 15 selects `PIX_A3RGB4` or `PIX_RGB5` (R109 to R111). -/
def sampleOfWord (d : Nat) : Instr :=
  if bitField d 15 15 = 0 then
    .pixA3rgb4 (BitVec.ofNat 3 (bitField d 14 12)) (BitVec.ofNat 4 (bitField d 11 8))
      (BitVec.ofNat 4 (bitField d 7 4)) (BitVec.ofNat 4 (bitField d 3 0))
  else
    .pixRgb5 (BitVec.ofNat 5 (bitField d 14 10)) (BitVec.ofNat 5 (bitField d 9 5))
      (BitVec.ofNat 5 (bitField d 4 0))

/-- A big-endian 16-bit sample (R64, R109). -/
def decodeSample : List Byte → Decoded
  | b0 :: b1 :: rest => .ok (sampleOfWord (beNat [b0, b1])) rest
  | _ => .need 2

/-- Four raster bytes in the order blue, green, red, alpha (R113). -/
def decodeRaster : List Byte → Decoded
  | b :: g :: r :: a :: rest => .ok (.rasterPixel b g r a) rest
  | _ => .need 4

/-- A control byte: every value is legal (R95, R174). -/
def decodeControl : List Byte → Decoded
  | b :: rest => .ok (.ctl b) rest
  | [] => .need 1

/-- A literal byte: every value is legal (R97). -/
def decodeLiteral : List Byte → Decoded
  | b :: rest => .ok (.lit b) rest
  | [] => .need 1

/-- The `CMD` register's value as one byte (R120). -/
def decodeCommand : List Byte → Decoded
  | b :: rest => if b.toNat < 4 then .ok (decodeCmd (BitVec.ofNat 2 b.toNat)) rest else .reject .notACommand
  | [] => .need 1

/-- The decoder: which instruction the bytes at a position of kind `c` hold, and what follows it; with the default tag, token
table and command codes (R6). -/
def decode (c : Ctx) (bs : List Byte) : Decoded :=
  match c with
  | .header => decodeHeader Machine.tagByte bs
  | .control => decodeControl bs
  | .literal => decodeLiteral bs
  | .reference => decodeReference bs
  | .sample => decodeSample bs
  | .raster => decodeRaster bs
  | .command => decodeCommand bs

/-- The fewest bytes that an item of a kind has: what is fetched before its size is known (R106, R179). -/
def Ctx.firstBytes (c : Ctx) : Nat :=
  match c with
  | .header => 4
  | .control => 1
  | .literal => 1
  | .reference => 1
  | .sample => 2
  | .raster => 4
  | .command => 1

/-- The kind of position at which an instruction stands (R106). -/
def Instr.ctx (i : Instr) : Ctx :=
  match i with
  | .hdr _ => .header
  | .hdrx _ => .header
  | .ctl _ => .control
  | .lit _ => .literal
  | .ref2 _ _ => .reference
  | .ref3 _ _ => .reference
  | .ref4 _ _ => .reference
  | .pixA3rgb4 _ _ _ _ => .sample
  | .pixRgb5 _ _ _ => .sample
  | .rasterPixel _ _ _ _ => .raster
  | .decompress => .command
  | .compress => .command
  | .decodeTileset => .command
  | .decodeTilesetOpaque => .command

/-- The value of `CMD` for a command, as one byte (R120), with the default codes. -/
def commandByte (k : Machine.Command) : List Byte := [(Machine.codeOfCommand k).setWidth 8]

/-- The encoder: an instruction's bytes in address order (R91 to R113, R120). -/
def encode (i : Instr) : List Byte :=
  match i with
  | .hdr len24 => Machine.tagByte :: leBytes 3 len24.toNat
  | .hdrx len32 => Machine.tagByte :: 0 :: 0 :: 0 :: leBytes 4 len32.toNat
  | .ctl flags => [flags]
  | .lit value => [value]
  | .ref2 n disp => beBytes 2 (n.toNat * 4096 + disp.toNat)
  | .ref3 lenf disp => beBytes 3 (lenf.toNat * 4096 + disp.toNat)
  | .ref4 lenf disp => beBytes 4 (2 ^ 28 + lenf.toNat * 4096 + disp.toNat)
  | .pixA3rgb4 a3 r4 g4 b4 => beBytes 2 (a3.toNat * 4096 + r4.toNat * 256 + g4.toNat * 16 + b4.toNat)
  | .pixRgb5 r5 g5 b5 => beBytes 2 (32768 + r5.toNat * 1024 + g5.toNat * 32 + b5.toNat)
  | .rasterPixel blue green red alpha => [blue, green, red, alpha]
  | .decompress => commandByte .decompress
  | .compress => commandByte .compress
  | .decodeTileset => commandByte .decodeTileset
  | .decodeTilesetOpaque => commandByte .decodeTilesetOpaque

/-- The bytes of a table word of `nbits` bits: ONE word, stored most significant byte first, as the opcode table
numbers its patterns ("byte 0 is bits [31:24]"), and zeros after it up to the longest instruction. -/
def tableWordBytes (nbits w : Nat) : List Byte := beBytes ((nbits + 7) / 8) w ++ List.replicate 8 0

/-- The position at which a table word of `nbits` bits is read. The table's rows overlap, since position and not
opcode bits selects a row (R106, R123): 8 bits below 4 are a `CMD` value and otherwise a control byte; 16 bits are
a sample; 24 bits a token; 32 bits a header if the first byte is `TAG`, a `REF4` token if its nibble is 1, and
otherwise raster bytes; 64 bits a header. DESIGN CHOICE (log entry 18): for the host's question only; `step`
takes the position from the machine's state. -/
def tableWordCtx (nbits w : Nat) : Ctx :=
  if nbits ≤ 8 then (if w < 4 then .command else .control)
  else if nbits ≤ 16 then .sample
  else if nbits ≤ 24 then .reference
  else if nbits ≤ 32 then
    (if bitField w 31 24 = Machine.tagByte.toNat then .header
     else if bitField w 31 28 = 1 then .reference else .raster)
  else .header

/-- The instruction the decoder reads from a table word (the host's question). -/
def decodeTableWord (nbits w : Nat) : Option Instr :=
  match decode (tableWordCtx nbits w) (tableWordBytes nbits w) with
  | .ok i _ => some i
  | _ => none

end Sys2Proof
end

