-- ==== Sys2Proof/Machine/State.lean ====
section
/-! DEFINITION. The whole state of one block as plain data (spec R20): the seven interface registers (R21), the
memories `IN` and `OUT` (R33, R60), the match index that lives in `IDX` (R29), the working registers of the three
engines (R25, R27, R31), and two fields of the model's own, the input line `start` and `PixelDecoder.latch` (log
entries 2 and 3). Hidden cursors and counts are naturals, which decision D4 allows ("a model may use unbounded naturals");
`Sys2Proof/Safety.lean` bounds them (log entry 7). -/

namespace Sys2Proof.Machine

/-- `dstate`, the state of the LZ decoder's state machine (R26); its coding is free. -/
inductive DState where
  /-- `D_HDR`: reading the header. -/
  | hdr
  /-- `D_CTRL`: loop head, a control byte may be needed. -/
  | ctrl
  /-- `D_BIT`: a control bit is to be examined. -/
  | bit
  /-- `D_LIT`: collecting a literal. -/
  | lit
  /-- `D_REF`: collecting a reference token. -/
  | ref
  /-- `D_COPY`: copying `ref_left` more bytes. -/
  | copy
  /-- `D_END`: finished. -/
  | ended
  deriving DecidableEq, Repr

/-- Byte-addressed memory: (address, byte) pairs with strictly rising addresses. An unlisted address holds no value
(R36: "unspecified; a model gives it no value"). -/
abbrev Memory := List Host.Cell

/-- The match index (R29): (key, positions) pairs with strictly rising keys, a key's `K` bytes read as one
big-endian number, positions most recent first. A key that is not listed has the empty list. -/
abbrev MatchIndex := List (Nat × List Nat)

/-- The four bytes of one raster pixel in address order (R113). -/
structure RasterPx where
  blue : Byte
  green : Byte
  red : Byte
  alpha : Byte
  deriving DecidableEq, Repr

/-- The LZ decoder's working registers (R25). -/
structure LzDecoder where
  /-- `total_len` [31:0]. -/
  totalLen : Nat
  /-- `rp` [31:0], read cursor. -/
  rp : Nat
  /-- `wp` [31:0], write cursor. -/
  wp : Nat
  /-- `ctrl` [7:0], control-byte shift register. -/
  ctrl : BitVec 8
  /-- `nbits` [3:0], control bits not yet used. -/
  nbits : Nat
  /-- `ref_len` [16:0]. -/
  refLen : Nat
  /-- `ref_dist` [12:0]. -/
  refDist : Nat
  /-- `ref_left` [16:0], bytes still to copy. -/
  refLeft : Nat
  /-- `tok_start` [31:0]. -/
  tokStart : Nat
  /-- `dstate` [2:0]. -/
  dstate : DState
  deriving DecidableEq, Repr

/-- The LZ encoder's working registers (R27). -/
structure LzEncoder where
  /-- `n` [31:0], the input length. -/
  n : Nat
  /-- `pos` [31:0], scan cursor. -/
  pos : Nat
  /-- `wp` [32:0], next `OUT` address. -/
  wp : Nat
  /-- `best_len` [16:0]. -/
  bestLen : Nat
  /-- `best_dist` [12:0]. -/
  bestDist : Nat
  /-- `grp_ctrl` [7:0]. -/
  grpCtrl : BitVec 8
  /-- `grp_cnt` [3:0]. -/
  grpCnt : Nat
  /-- `grp_len` [5:0]. -/
  grpLen : Nat
  /-- `grp_buf[0..31]`, 32 × [7:0]. -/
  grpBuf : Vector Byte 32
  deriving DecidableEq, Repr

/-- The pixel decoder's working registers (R31), and the model's `latch`. -/
structure PixelDecoder where
  /-- `honor_alpha` [0]. -/
  honorAlpha : Bool
  /-- `npix` [30:0]. -/
  npix : Nat
  /-- `s` [30:0], sample cursor. -/
  s : Nat
  /-- `d` [15:0], the current sample. -/
  d : BitVec 16
  /-- `r` [7:0]. -/
  r : Byte
  /-- `g` [7:0]. -/
  g : Byte
  /-- `b` [7:0]. -/
  b : Byte
  /-- `a` [7:0]. -/
  a : Byte
  /-- The MODEL's own: the packed pixel of the current sample, not yet written to the raster. DESIGN CHOICE
  (log entry 3). -/
  latch : Option RasterPx
  deriving DecidableEq, Repr

structure State where
  /-- `CMD` [1:0] (R21). -/
  cmd : BitVec 2
  /-- `IN_LEN` [31:0] (R21). -/
  inLen : BitVec 32
  /-- `OUT_LEN` [32:0] (R21). -/
  outLen : BitVec 33
  /-- `STATUS` [1:0] (R21, R22). -/
  status : Status
  /-- `ERR_KIND` [1:0] (R21, R262). -/
  errKind : ErrKind
  /-- `ERR_CAUSE` [2:0] (R21, R262). -/
  errCause : ErrCause
  /-- `ERR_OFFSET` [31:0] (R21, R263). -/
  errOffset : BitVec 32
  /-- The MODEL's own: the `START` line as the step samples it, an input and not a register. The spec's `START` is an event,
  "not a stored bit" (R23): the host's move `hostStart` raises the line for one step and takes that step at once, and no
  step and no move of the host leaves it raised. DESIGN CHOICE (log entry 2). -/
  start : Bool
  /-- `IN` (R33, R60). -/
  inp : Memory
  /-- `OUT` (R33, R60). -/
  out : Memory
  /-- The match index in `IDX` (R29, R33). -/
  idx : MatchIndex
  /-- The LZ decoder's registers (R25). -/
  dec : LzDecoder
  /-- The LZ encoder's registers (R27). -/
  enc : LzEncoder
  /-- The pixel decoder's registers (R31). -/
  pix : PixelDecoder
  deriving DecidableEq, Repr

/-- Why a run stops. The spec's own faults (`MalformedStream`, `MalformedBuffer`) are NOT here: they are next states,
entered as R270 says. These are the model's stops for what the spec gives no meaning. -/
inductive Fault where
  /-- Raised by a fetch, or by the encoder's read of its input, when a byte of `IN` below `IN_LEN` was never written:
  the host broke its duty to write `IN[0 .. L − 1]` before `START` (R305) and the byte has no value (R36). Safe: the
  model stops where the hardware would use an unspecified byte. -/
  | unwrittenIn
  /-- Raised by the back-reference copy when the `OUT` byte it reads was not written by the current command. R78 says
  this cannot happen, and no state that satisfies `BlockInv` raises it. Safe. -/
  | unwrittenOut
  /-- Raised where R185 has no transition: `STATUS = BUSY` with an engine that has nothing to run (`dstate = D_END`
  under `DECOMPRESS`, a sample at or beyond `IN_LEN`). No state that satisfies `BlockInv` raises it. Safe. -/
  | noTransition
  deriving DecidableEq, Repr

/-- Why an action has no meaning. -/
inductive Refusal where
  /-- An instruction of the opcode table that has no meaning yet, by its mnemonic. No arm of `exec` answers it now.
  Safe. -/
  | notModelled (mnemonic : String)
  /-- Raised by the host operations: the host wrote `IN`, `IN_LEN` or `CMD` while `STATUS = BUSY` (R306; treatment
  "refuse", U6). Safe: claims hold only for dutiful hosts. -/
  | hostDuty
  /-- Raised by the host's `START` when the result may not fit a finite `OUT_CAP` (R309; treatment "refuse", U7).
  Never raised with the default, which is unbounded. Safe. -/
  | outCapacity
  deriving DecidableEq, Repr

/-- Right after reset (R36, R300): interface registers 0, `STATUS = IDLE`, `dstate = D_END`, no memory byte has a value.
Every other register is unspecified by the spec and reads 0 here: DESIGN CHOICE (log entry 6). -/
def State.reset : State where
  cmd := 0
  inLen := 0
  outLen := 0
  status := .idle
  errKind := .none
  errCause := .none
  errOffset := 0
  start := false
  inp := []
  out := []
  idx := []
  dec :=
    { totalLen := 0, rp := 0, wp := 0, ctrl := 0, nbits := 0, refLen := 0, refDist := 0, refLeft := 0,
      tokStart := 0, dstate := .ended }
  enc :=
    { n := 0, pos := 0, wp := 0, bestLen := 0, bestDist := 0, grpCtrl := 0, grpCnt := 0, grpLen := 0,
      grpBuf := Vector.replicate 32 0 }
  pix :=
    { honorAlpha := false, npix := 0, s := 0, d := 0, r := 0, g := 0, b := 0, a := 0, latch := none }

end Sys2Proof.Machine
end

