-- ==== Sys2Proof/Machine/Ops.lean ====
section
/-! DEFINITION. The named operations over memory and the interface registers: `MemRead` and `MemWrite` (spec R9,
R60), the match index as a map (R29), the kind of a cause (R262), the engine of a command (R120), the start of a command
(R37), completion (R133) and taking a fault (R270). -/

namespace Sys2Proof.Machine

/-! ### Finite maps with natural keys, in canonical form -/

/-- The value at a key, if the map lists it. -/
def mapGet {α : Type} : List (Nat × α) → Nat → Option α
  | [], _ => none
  | (k, v) :: m, a => if a = k then some v else mapGet m a

/-- Set the value at a key, keeping the keys strictly rising. -/
def mapSet {α : Type} : List (Nat × α) → Nat → α → List (Nat × α)
  | [], a, v => [(a, v)]
  | (k, w) :: m, a, v =>
    if a < k then (a, v) :: (k, w) :: m
    else if a = k then (a, v) :: m
    else (k, w) :: mapSet m a v

/-- The keys rise strictly. -/
def mapWf {α : Type} : List (Nat × α) → Bool
  | [] => true
  | [_] => true
  | (a, _) :: (b, v) :: m => decide (a < b) && mapWf ((b, v) :: m)

/-! ### The byte memories (R9, R60) -/

/-- `MemRead(S, a, 1)`; `none` where the address holds no value. -/
def memRead (m : Memory) (a : Nat) : Option Byte := mapGet m a

/-- `MemWrite(S, a, 1, v)`. -/
def memWrite (m : Memory) (a : Nat) (v : Byte) : Memory := mapSet m a v

/-- The canonical form of a memory: strictly rising addresses. An unlisted address holds no value, so there is no
entry equal to what an unlisted address reads as. -/
def memWf (m : Memory) : Bool := mapWf m

/-- `MemRead(S, a, n)`: the `n` bytes at `a`, `a + 1`, …; `none` if one of them holds no value. -/
def memReadN : Memory → Nat → Nat → Option (List Byte)
  | _, _, 0 => some []
  | [], _, _ + 1 => none
  | (k, v) :: m, a, n + 1 =>
    if k < a then memReadN m a (n + 1)
    else if k = a then (memReadN m (a + 1) n).map (v :: ·)
    else none

/-- `MemWrite(S, a, n, bytes)`: the bytes to `a`, `a + 1`, … in that order. -/
def memWriteN : Memory → Nat → List Byte → Memory
  | m, _, [] => m
  | m, a, b :: bs => memWriteN (memWrite m a b) (a + 1) bs

/-! ### The match index as a map (R29) -/

/-- The positions recorded under a key; an unlisted key has the empty list. -/
def idxGet (idx : MatchIndex) (key : Nat) : List Nat := (mapGet idx key).getD []

/-- `idx[key] <- p :: idx[key]` (R152). -/
def idxPush (idx : MatchIndex) (key p : Nat) : MatchIndex := mapSet idx key (p :: idxGet idx key)

/-- The canonical form of the index: strictly rising keys. -/
def idxWf (idx : MatchIndex) : Bool := mapWf idx

/-! ### Faults and commands -/

/-- The kind of a cause: `ERR_KIND` is a function of `ERR_CAUSE` (R262). -/
def kindOfCause (c : ErrCause) : ErrKind :=
  match c with
  | .none => .none
  | .truncatedHeader => .malformedStream
  | .truncatedToken => .malformedStream
  | .refBeforeStart => .malformedStream
  | .badTag => .malformedStream
  | .badLength => .malformedBuffer

/-- The engine that a command runs. -/
inductive Engine where
  | lzDecoder
  | lzEncoder
  | pixelDecoder
  deriving DecidableEq, Repr

/-- The engine a command runs (R120, R130). -/
def engineOf (k : Command) : Engine :=
  match k with
  | .decompress => .lzDecoder
  | .compress => .lzEncoder
  | .decodeTileset => .pixelDecoder
  | .decodeTilesetOpaque => .pixelDecoder

/-! ### Taking a fault, and what follows it -/

/-- `raise K(cause, offset)` (R270): the fault is recorded, there is no result, the command is over. The content of
every `OUT` byte is unspecified from here (R271), so `OUT` holds no value (log entry 5). -/
def raise (cause : ErrCause) (offset : Nat) (s : State) : State :=
  { s with
    errKind := kindOfCause cause
    errCause := cause
    errOffset := BitVec.ofNat 32 offset
    outLen := 0
    status := .err
    out := []
    dec := { s.dec with dstate := .ended } }

/-- The writes that every accepted `START` makes (R37, R130), which is also all that ends an `ERR` (R273: there is no
return from a fault; the next accepted `START` clears it). `OUT`'s previous content is dead from this point (R37), so
it holds no value (log entry 5). -/
def commandStart (s : State) : State :=
  { s with
    status := .busy
    outLen := 0
    errKind := .none
    errCause := .none
    errOffset := 0
    start := false
    out := [] }

/-- `START` as a command sees it: ignored while `STATUS = BUSY` (R23, R131), otherwise the common writes and then
the command's own (R130). -/
def issue (begin_ : State → State) (s : State) : Host.Outcome State Fault Refusal :=
  if s.status = .busy then .next { s with start := false } else .next (begin_ (commandStart s))

/-- Success (R133): `OUT_LEN <- len`, in `OUT_LEN`'s width, then `STATUS <- DONE`. No result of a lawful configuration exceeds
the width (R141). -/
def complete (c : Config) (len : Nat) (s : State) : State :=
  { s with outLen := BitVec.ofNat 33 (len % 2 ^ c.outLenBits), status := .done }

end Sys2Proof.Machine
end

