-- ==== Sys2Proof/Machine/Operands.lean ====
section
/-! DEFINITION. The operand forms: length and distance of a back-reference (spec R102 to R104), the expansions of
the sample fields and the channels they give (R235, R236), the premultiplier (R237 to R240), the pack (R241) and the
tile-to-raster address translator (R242, R243). -/

namespace Sys2Proof.Machine

/-! ### Back-reference fields -/

/-- `disp + 1`, in every tier (R102 to R104). -/
def distanceOf (disp : BitVec 12) : Nat := disp.toNat + 1

/-- `N + 1` (R102). -/
def ref2Length (n : BitVec 4) : Nat := n.toNat + 1

/-- `lenf + 17` (R103). -/
def ref3Length (lenf : BitVec 8) : Nat := lenf.toNat + 17

/-- `lenf + 273` (R104). -/
def ref4Length (lenf : BitVec 16) : Nat := lenf.toNat + 273

/-! ### Sample fields and channels -/

/-- The four 8-bit channels of a pixel (R31). -/
structure Rgba where
  r : Byte
  g : Byte
  b : Byte
  a : Byte
  deriving DecidableEq, Repr

/-- A 4-bit channel scaled by 17 (R235). -/
def expand4 (x : BitVec 4) : Byte := BitVec.ofNat 8 (x.toNat * 17)

/-- 3-bit alpha by bit replication, `(a3 << 5) | (a3 << 2) | (a3 >> 1)` (R235). -/
def expand3 (x : BitVec 3) : Byte :=
  (x.setWidth 8 <<< 5) ||| (x.setWidth 8 <<< 2) ||| (x.setWidth 8 >>> 1)

/-- A 5-bit channel, `(x << 3) | (x >> 2)` (R236). -/
def expand5 (x : BitVec 5) : Byte := (x.setWidth 8 <<< 3) ||| (x.setWidth 8 >>> 2)

/-- The channels of a `PIX_A3RGB4` sample (R235). -/
def unpackA3rgb4 (a3 : BitVec 3) (r4 g4 b4 : BitVec 4) : Rgba :=
  { r := expand4 r4, g := expand4 g4, b := expand4 b4, a := expand3 a3 }

/-- The channels of a `PIX_RGB5` sample; alpha is 255 (R236). -/
def unpackRgb5 (r5 g5 b5 : BitVec 5) : Rgba :=
  { r := expand5 r5, g := expand5 g5, b := expand5 b5, a := 255 }

/-! ### Premultiplication and packing -/

/-- `pm(c, a) = (c × a + 127) div 255`, round half up of `c × a / 255` (R239). -/
def premultiply (c a : Byte) : Byte := BitVec.ofNat 8 ((c.toNat * a.toNat + 127) / 255)

/-- Alpha honoured (R238): alpha zero gives black (R240), otherwise each colour is premultiplied. -/
def honoured (p : Rgba) : Rgba :=
  if p.a = 0 then { r := 0, g := 0, b := 0, a := p.a }
  else { r := premultiply p.r p.a, g := premultiply p.g p.a, b := premultiply p.b p.a, a := p.a }

/-- Alpha forced opaque (R237): colours pass unscaled. -/
def forcedOpaque (p : Rgba) : Rgba := { p with a := 255 }

/-- The alpha stage, selected by `honor_alpha` (R233, R237, R238). -/
def alphaStage (honorAlpha : Bool) (p : Rgba) : Rgba := if honorAlpha then honoured p else forcedOpaque p

/-- The packed pixel: blue, green, red, alpha (R113, R241). -/
def pack (p : Rgba) : RasterPx := { blue := p.b, green := p.g, red := p.r, alpha := p.a }

/-- The bytes of a raster pixel in address order (R65, R113). -/
def rasterBytes (p : RasterPx) : List Byte := [p.blue, p.green, p.red, p.alpha]

/-! ### The tile-to-raster address translator -/

/-- `tx`, the tile column of a sample index (R242). -/
def tileCol (s : Nat) : Nat := s / 16 % tilesPerRow

/-- `ty`, the tile row (R242). -/
def tileRow (s : Nat) : Nat := s / 16 / tilesPerRow

/-- `ix`, the column within the tile (R242). -/
def inTileCol (s : Nat) : Nat := s % 16 % tileSide

/-- `iy`, the row within the tile (R242). -/
def inTileRow (s : Nat) : Nat := s % 16 / tileSide

/-- `x`, the raster column (R243). -/
def rasterX (s : Nat) : Nat := tileSide * tileCol s + inTileCol s

/-- `y`, the raster row (R243). -/
def rasterY (s : Nat) : Nat := tileSide * tileRow s + inTileRow s

/-- `P`, the raster pixel index `1024 × y + x` (R243). -/
def rasterIndex (s : Nat) : Nat := rasterWidth * rasterY s + rasterX s

/-- `A = 4 × (1024 × y + x)`, the `OUT` address of sample `s`'s pixel (R243). -/
def rasterAddr (s : Nat) : Nat := 4 * rasterIndex s

/-- The sample that feeds raster pixel `P`: the translator's inverse (R244). -/
def sampleOfRaster (p : Nat) : Nat :=
  16 * (tilesPerRow * (p / rasterWidth / tileSide) + p % rasterWidth / tileSide)
    + 4 * (p / rasterWidth % tileSide) + p % rasterWidth % tileSide

end Sys2Proof.Machine
end

