-- ==== Sys2Proof/Machine/Flags.lean ====
section
/-! DEFINITION. The block has no condition-code register (spec R32); these are its predicates: the control bits
in `ctrl` and `grp_ctrl`. `honor_alpha` and bit 15 of a sample are read in `Operands.lean` and `Decode.lean`. -/

namespace Sys2Proof.Machine

/-- The control bit to use next, `ctrl[7]` (R175). -/
def nextCtrlBit (ctrl : BitVec 8) : Bool := ctrl.getLsbD 7

/-- `(ctrl << 1)[7:0]` (R175). -/
def shiftCtrl (ctrl : BitVec 8) : BitVec 8 := ctrl <<< 1

/-- `grp_ctrl | (0x80 >> grp_cnt)` for a back-reference, `grp_ctrl` for a literal (R211). -/
def markToken (isRef : Bool) (cnt : Nat) (ctrl : BitVec 8) : BitVec 8 :=
  if isRef then ctrl ||| ((0x80 : BitVec 8) >>> cnt) else ctrl

end Sys2Proof.Machine
end

