-- ==== Sys2Proof/Machine/Command.lean ====
section
/-! DEFINITION. The meanings of the four commands: what an accepted `START` does for each (spec R37, R130, R134 to R137).
The engine then runs step by step (`Machine/Internal.lean`; R132 allows "the step-by-step machine those rules
describe"; log entry 1). The whole-command functions of R186, R216 and R247 stand in `Machine/Whole.lean`. -/

namespace Sys2Proof.Machine

/-- The LZ decoder's registers at command start (R37). -/
def beginDecompress (s : State) : State :=
  { s with
    dec :=
      { s.dec with rp := 0, wp := 0, nbits := 0, ctrl := 0, refLeft := 0, tokStart := 0, dstate := .hdr } }

/-- The LZ encoder's registers and the empty index at command start (R37). -/
def beginCompress (s : State) : State :=
  { s with
    idx := []
    enc :=
      { s.enc with
        n := s.inLen.toNat
        pos := 0
        wp := 0
        grpCtrl := 0
        grpCnt := 0
        grpLen := 0
        bestLen := 0 } }

/-- The pixel decoder's registers at command start (R37). -/
def beginPixels (honorAlpha : Bool) (s : State) : State :=
  { s with
    pix := { s.pix with honorAlpha := honorAlpha, npix := s.inLen.toNat / 2, s := 0, latch := none } }

/-- The length check, first action of a pixel command (R231): a length that is no multiple of the stride takes
`MalformedBuffer(BAD_LENGTH)` at the start of the incomplete tile-row. -/
def checkLength (s : State) : State :=
  if s.inLen.toNat % tileRowStride = 0 then s
  else raise .badLength (s.inLen.toNat / tileRowStride * tileRowStride) s

/-- `DECOMPRESS` (R37, R130, R134). -/
def execDecompress (s : State) : Host.Outcome State Fault Refusal := issue beginDecompress s

/-- `COMPRESS` (R37, R130, R135). -/
def execCompress (s : State) : Host.Outcome State Fault Refusal := issue beginCompress s

/-- `DECODE_TILESET` (R37, R130, R136, R231). -/
def execDecodeTileset (s : State) : Host.Outcome State Fault Refusal :=
  issue (fun t => checkLength (beginPixels true t)) s

/-- `DECODE_TILESET_OPAQUE` (R37, R130, R137, R231). -/
def execDecodeTilesetOpaque (s : State) : Host.Outcome State Fault Refusal :=
  issue (fun t => checkLength (beginPixels false t)) s

end Sys2Proof.Machine
end

