-- ==== Sys2Proof/Machine/Header.lean ====
section
/-! DEFINITION. The meanings of the two header forms (spec R170 to R172). The tag and the lengths are checked by the fetch
(`Machine/Fetch.lean`); these are the transitions out of `D_HDR` that succeed (R185). -/

namespace Sys2Proof.Machine

/-- A header of `size` bytes is read: `total_len` is known and the token blocks begin (R171, R172, R185). -/
def enterBlocks (len size : Nat) (s : State) : State :=
  { s with dec := { s.dec with tokStart := 0, totalLen := len, rp := size, dstate := .ctrl } }

/-- `HDR` (R171): `total_len <- zext_32(len24)`, `rp <- 4`. -/
def execHdr (len24 : BitVec 24) (s : State) : Host.Outcome State Fault Refusal :=
  .next (enterBlocks len24.toNat 4 s)

/-- `HDRX` (R172): `total_len <- len32`, `rp <- 8`. -/
def execHdrx (len32 : BitVec 32) (s : State) : Host.Outcome State Fault Refusal :=
  .next (enterBlocks len32.toNat 8 s)

end Sys2Proof.Machine
end

