-- ==== Sys2Proof/Machine/Pixel.lean ====
section
/-! DEFINITION. The meanings of the two sample formats and of the raster pixel (spec R233 to R245). A sample is unpacked,
passes the alpha stage and is packed into the latch; the raster pixel in the latch is then written at the translated
address and the sample cursor moves on (log entry 3). -/

namespace Sys2Proof.Machine

/-- The 16-bit word of a sample instruction (R64, R109). -/
def sampleWord (i : Instr) : BitVec 16 := BitVec.ofNat 16 (beNat (encode i))

/-- `d` and the channels are loaded, and the pixel packed after the alpha stage is latched (R232 to R241). -/
def latchPixel (d : BitVec 16) (p : Rgba) (s : State) : State :=
  { s with
    pix :=
      { s.pix with
        d := d
        r := p.r
        g := p.g
        b := p.b
        a := p.a
        latch := some (pack (alphaStage s.pix.honorAlpha p)) } }

/-- `PIX_A3RGB4` (R235, R237 to R241). -/
def execPixA3rgb4 (a3 : BitVec 3) (r4 g4 b4 : BitVec 4) (s : State) : Host.Outcome State Fault Refusal :=
  .next (latchPixel (sampleWord (.pixA3rgb4 a3 r4 g4 b4)) (unpackA3rgb4 a3 r4 g4 b4) s)

/-- `PIX_RGB5` (R236 to R239, R241). -/
def execPixRgb5 (r5 g5 b5 : BitVec 5) (s : State) : Host.Outcome State Fault Refusal :=
  .next (latchPixel (sampleWord (.pixRgb5 r5 g5 b5)) (unpackRgb5 r5 g5 b5) s)

/-- The write stage: the four bytes go to the raster address of the current sample (R241 to R243), and `s <- s + 1`
(R245). -/
def writeRaster (p : RasterPx) (s : State) : State :=
  { s with
    out := memWriteN s.out (rasterAddr s.pix.s) (rasterBytes p)
    pix := { s.pix with s := s.pix.s + 1, latch := none } }

/-- `RASTER_PIXEL` (R113, R241 to R243). -/
def execRasterPixel (blue green red alpha : BitVec 8) (s : State) : Host.Outcome State Fault Refusal :=
  .next (writeRaster { blue := blue, green := green, red := red, alpha := alpha } s)

end Sys2Proof.Machine
end

