-- ==== Sys2Proof/Machine/TokenCodec.lean ====
section
/-! DEFINITION. The default `TOKCODEC`, built from the decoder and the encoder of the three tiers (spec R101 to R105),
and the default configuration record. PRESUMED (log entries 9 and 10): the spec supplies the tag and the tier table from
general knowledge. Both are parameters of the block's step (`stepWith`, `Machine/Engine.lean`). -/

namespace Sys2Proof.Machine

/-- `(length, distance)` of a back-reference instruction; `(0, 0)` for what is no back-reference. -/
def pairOf (i : Instr) : Nat × Nat :=
  match i with
  | .ref2 n disp => (ref2Length n, distanceOf disp)
  | .ref3 lenf disp => (ref3Length lenf, distanceOf disp)
  | .ref4 lenf disp => (ref4Length lenf, distanceOf disp)
  | _ => (0, 0)

/-- `TOKCODEC.decode` (R180): the pair of the token that the bytes hold. The bytes are those of the size that the first
nibble selects (R99), so their number tells the tier; other strings are no token. -/
def tokenDecode (t : List Byte) : Nat × Nat :=
  match t with
  | [_, _] => pairOf (ref2OfWord (beNat t))
  | [_, _, _] => pairOf (ref3OfWord (beNat t))
  | [_, _, _, _] => pairOf (ref4OfWord (beNat t))
  | _ => (0, 0)

/-- The back-reference of a pair: the only tier whose length range holds the length (R105). -/
def refInstr (len dist : Nat) : Instr :=
  if len ≤ 16 then .ref2 (BitVec.ofNat 4 (len - 1)) (BitVec.ofNat 12 (dist - 1))
  else if len ≤ 272 then .ref3 (BitVec.ofNat 8 (len - 17)) (BitVec.ofNat 12 (dist - 1))
  else .ref4 (BitVec.ofNat 16 (len - 273)) (BitVec.ofNat 12 (dist - 1))

/-- `TOKCODEC.encode` (R105). -/
def tokenEncode (len dist : Nat) : List Byte := encode (refInstr len dist)

/-- The default token coding. -/
def tokCodec : TokCodec where
  size n := tokenSizeOfNibble n.toNat
  decode := tokenDecode
  encode := tokenEncode

/-- The default configuration of the block (R6). -/
def config : Config where
  tag := tagByte
  tok := tokCodec
  window := windowSize
  maxLen := maxLen
  keyBytes := keyBytes
  outCap := outCapacity
  commandOf := commandOfCode
  commandCode := codeOfCommand
  statusCode := statusCode
  errKindCode := errKindCode
  errCauseCode := errCauseCode
  inLenBits := inLenWidth
  outLenBits := outLenWidth

end Sys2Proof.Machine
end

