-- ==== Sys2Proof/Machine/Token.lean ====
section
/-! DEFINITION. The meanings of the items of a token block: the control byte (spec R174), the literal (R177) and the three
back-reference tiers (R178 to R183). Each is one row of R185's table; the copy of a back-reference goes on byte by
byte in the `D_COPY` rows (`Machine/Internal.lean`, log entry 1). -/

namespace Sys2Proof.Machine

/-- `CTL` (R174): `ctrl <- IN[rp]`, `rp <- rp + 1`, `nbits <- 8`, `D_BIT`. -/
def execCtl (flags : BitVec 8) (s : State) : Host.Outcome State Fault Refusal :=
  .next
    { s with
      dec :=
        { s.dec with tokStart := s.dec.rp, ctrl := flags, rp := s.dec.rp + 1, nbits := 8, dstate := .bit } }

/-- `LIT` (R177): `OUT[wp] <- IN[rp]`, both cursors advance by 1, back to the loop head. -/
def execLit (value : BitVec 8) (s : State) : Host.Outcome State Fault Refusal :=
  .next
    { s with
      out := memWrite s.out s.dec.wp value
      dec := { s.dec with rp := s.dec.rp + 1, wp := s.dec.wp + 1, dstate := .ctrl } }

/-- A complete back-reference token of `size` bytes (R179 to R183): `rp` moves past it, the pair is loaded (R180), a
distance beyond the output so far faults (R181), and otherwise the copy of `min(ref_len, total_len − wp)` bytes begins
(R182, R183). -/
def takeReference (size len dist : Nat) (s : State) : State :=
  if s.dec.wp < dist then
    raise .refBeforeStart s.dec.tokStart
      { s with dec := { s.dec with rp := s.dec.rp + size, refLen := len, refDist := dist } }
  else
    { s with
      dec :=
        { s.dec with
          rp := s.dec.rp + size
          refLen := len
          refDist := dist
          refLeft := min len (s.dec.totalLen - s.dec.wp)
          dstate := .copy } }

/-- The token `t` (all its bytes) under the token coding of `c` (R99, R178 to R183). -/
def execToken (c : Config) (t : List Byte) (s : State) : Host.Outcome State Fault Refusal :=
  .next (takeReference t.length (c.tok.decode t).1 (c.tok.decode t).2 s)

/-- `REF2` (R102, R178): the 2-byte token, under the default token coding: length `N + 1`, distance `disp + 1`. -/
def execRef2 (n : BitVec 4) (disp : BitVec 12) (s : State) : Host.Outcome State Fault Refusal :=
  execToken config (encode (.ref2 n disp)) s

/-- `REF3` (R103, R178): the 3-byte token, under the default token coding: length `lenf + 17`, distance `disp + 1`. -/
def execRef3 (lenf : BitVec 8) (disp : BitVec 12) (s : State) : Host.Outcome State Fault Refusal :=
  execToken config (encode (.ref3 lenf disp)) s

/-- `REF4` (R104, R178): the 4-byte token, under the default token coding: length `lenf + 273`, distance `disp + 1`. -/
def execRef4 (lenf : BitVec 16) (disp : BitVec 12) (s : State) : Host.Outcome State Fault Refusal :=
  execToken config (encode (.ref4 lenf disp)) s

end Sys2Proof.Machine
end

