-- ==== Sys2Proof/Machine/Dispatch.lean ====
section
/-! DEFINITION. What each row of the opcode table does, one arm per constructor. -/

namespace Sys2Proof.Machine

def exec (i : Instr) (s : State) : Host.Outcome State Fault Refusal :=
  match i with
  | .hdr len24 => Sys2Proof.Machine.execHdr len24 s
  | .hdrx len32 => Sys2Proof.Machine.execHdrx len32 s
  | .ctl flags => Sys2Proof.Machine.execCtl flags s
  | .lit value => Sys2Proof.Machine.execLit value s
  | .ref2 n disp => Sys2Proof.Machine.execRef2 n disp s
  | .ref3 lenf disp => Sys2Proof.Machine.execRef3 lenf disp s
  | .ref4 lenf disp => Sys2Proof.Machine.execRef4 lenf disp s
  | .pixA3rgb4 a3 r4 g4 b4 => Sys2Proof.Machine.execPixA3rgb4 a3 r4 g4 b4 s
  | .pixRgb5 r5 g5 b5 => Sys2Proof.Machine.execPixRgb5 r5 g5 b5 s
  | .rasterPixel blue green red alpha => Sys2Proof.Machine.execRasterPixel blue green red alpha s
  | .decompress => Sys2Proof.Machine.execDecompress s
  | .compress => Sys2Proof.Machine.execCompress s
  | .decodeTileset => Sys2Proof.Machine.execDecodeTileset s
  | .decodeTilesetOpaque => Sys2Proof.Machine.execDecodeTilesetOpaque s

end Sys2Proof.Machine
end

