-- ==== Sys2Proof/Machine/MatchIndex.lean ====
section
/-! DEFINITION. The match index of the encoder (spec `41_match_index.md`): keys, `insert`, `candidates`; and the match
search over it (R203 to R207). The concrete ring of R158 is informative; this is the normative map of R29. -/

namespace Sys2Proof.Machine

/-- `key(p)`, the `K` bytes at `p` read as one number (R151). -/
def keyAt (c : Config) (inp : List Byte) (p : Nat) : Nat := beNat ((inp.drop p).take c.keyBytes)

/-- `insert(p)` (R152): nothing is recorded where the key would run past the input. -/
def insertPos (c : Config) (inp : List Byte) (idx : MatchIndex) (p : Nat) : MatchIndex :=
  if p + c.keyBytes ≤ inp.length then idxPush idx (keyAt c inp p) p else idx

/-- `insert` for `p`, `p + 1`, …, `adv` positions in increasing order (R212). -/
def insertRange (c : Config) (inp : List Byte) : MatchIndex → Nat → Nat → MatchIndex
  | idx, _, 0 => idx
  | idx, p, adv + 1 => insertRange c inp (insertPos c inp idx p) (p + 1) adv

/-- `candidates(q)` (R153): the recorded positions with the same key within the window, most recent first. -/
def candidates (c : Config) (inp : List Byte) (idx : MatchIndex) (q : Nat) : List Nat :=
  if q + c.keyBytes ≤ inp.length then
    (idxGet idx (keyAt c inp q)).filter (fun p => decide (1 ≤ q - p ∧ q - p ≤ c.window))
  else []

/-- The length of the longest common prefix, at most `cap`. -/
def commonPrefix : Nat → List Byte → List Byte → Nat
  | 0, _, _ => 0
  | _ + 1, [], _ => 0
  | _ + 1, _ :: _, [] => 0
  | cap + 1, x :: xs, y :: ys => if x = y then commonPrefix cap xs ys + 1 else 0

/-- `mlen(p, pos)` (R204): byte-by-byte comparison that runs past `pos`, capped by `MAXLEN` and the bytes left. -/
def matchLen (c : Config) (inp : List Byte) (p pos : Nat) : Nat :=
  commonPrefix (min c.maxLen (inp.length - pos)) (inp.drop p) (inp.drop pos)

/-- The walk of R206: replace the best match only on a strictly greater length. -/
def betterMatch (c : Config) (inp : List Byte) (pos : Nat) (best : Nat × Nat) (p : Nat) : Nat × Nat :=
  if best.1 < matchLen c inp p pos then (matchLen c inp p pos, pos - p) else best

/-- `(best_len, best_dist)` over a candidate list (R205, R206); `dist0` is what `best_dist` held before, which stays
while no candidate matches. -/
def searchMatch (c : Config) (inp : List Byte) (pos dist0 : Nat) (cands : List Nat) : Nat × Nat :=
  cands.foldl (betterMatch c inp pos) (0, dist0)

/-- The token at `pos` for a best match (R207, R209): a back-reference from length `MINLEN` on, else the literal. -/
def tokenBytes (c : Config) (inp : List Byte) (pos : Nat) (best : Nat × Nat) : List Byte :=
  if minLen ≤ best.1 then c.tok.encode best.1 best.2 else (inp.drop pos).take 1

/-- How many input bytes the token covers (R209). -/
def tokenAdvance (best : Nat × Nat) : Nat := if minLen ≤ best.1 then best.1 else 1

/-- The header of a stream for `n` bytes (R201). -/
def headerBytes (c : Config) (n : Nat) : List Byte :=
  if 1 ≤ n ∧ n ≤ len24Max then c.tag :: leBytes 3 n else c.tag :: 0 :: 0 :: 0 :: leBytes 4 n

end Sys2Proof.Machine
end

