-- ==== Sys2Proof/Machine/Fetch.lean ====
section
/-! DEFINITION. Which item the block handles next, and where its bytes are (spec R106, R185, R232): the fetch of a
command code, a stream item, a sample or a latched raster pixel; and the faults a fetch takes (R263, R265). -/

namespace Sys2Proof.Machine

/-- What a fetch finds. -/
inductive Fetched where
  /-- An instruction, decoded. -/
  | instr (i : Instr)
  /-- A back-reference token, all its bytes; what it stands for is the token coding's. -/
  | token (t : List Byte)
  /-- The item runs to or beyond `IN_LEN`. -/
  | truncated
  /-- Bytes that are no instruction. -/
  | rejected (r : Reject)
  /-- A byte of the item was never written. -/
  | unwritten
  /-- Nothing is to be fetched: the engine makes a step of its own. -/
  | internal
  /-- No command runs. -/
  | idle
  deriving DecidableEq, Repr

/-- Read `n` bytes of `IN` at `at_`, below `len` (R62). -/
def fetchBytes (m : Memory) (len at_ n : Nat) : Except Fetched (List Byte) :=
  if len < at_ + n then .error .truncated
  else match memReadN m at_ n with
    | none => .error .unwritten
    | some bs => .ok bs

/-- The item at address `at_` that `dec` decodes: its first `first` bytes, and, where those say that it is longer, all of it
(R106, R170 to R172). No byte at or beyond `len` is read (R62). -/
def fetchWith (dec : List Byte → Decoded) (first : Nat) (m : Memory) (len at_ : Nat) : Fetched :=
  match fetchBytes m len at_ first with
  | .error e => e
  | .ok bs =>
    match dec bs with
    | .ok i _ => .instr i
    | .reject r => .rejected r
    | .need n =>
      match fetchBytes m len at_ n with
      | .error e => e
      | .ok bs' =>
        match dec bs' with
        | .ok i _ => .instr i
        | .reject r => .rejected r
        | .need _ => .truncated

/-- The item of kind `k` at address `at_` (R106). -/
def fetchItem (m : Memory) (len : Nat) (k : Ctx) (at_ : Nat) : Fetched :=
  fetchWith (decode k) k.firstBytes m len at_

/-- The header at stream offset 0, with the tag of `c` (R170 to R172). -/
def fetchHeader (c : Config) (m : Memory) (len : Nat) : Fetched :=
  fetchWith (decodeHeader c.tag) Ctx.header.firstBytes m len 0

/-- The size of a token from its first byte, under the token coding of `c` (R99, R179). -/
def tokenSize (c : Config) (first : List Byte) : Nat :=
  match first with
  | [] => 0
  | b :: _ => c.tok.size (BitVec.ofNat 4 (highNibble b))

/-- The back-reference token at address `at_`: its first byte, and then as many bytes as that one's high nibble says (R179). -/
def fetchReference (c : Config) (m : Memory) (len at_ : Nat) : Fetched :=
  match fetchBytes m len at_ 1 with
  | .error e => e
  | .ok bs =>
    match fetchBytes m len at_ (tokenSize c bs) with
    | .error e => e
    | .ok t => .token t

/-- The LZ decoder's fetch, by its state (R185): an item where one is due, nothing where a step of its own is. -/
def fetchStream (c : Config) (s : State) : Fetched :=
  match s.dec.dstate with
  | .hdr => fetchHeader c s.inp s.inLen.toNat
  | .ctrl =>
    if s.dec.wp = s.dec.totalLen ∨ s.dec.nbits ≠ 0 then .internal
    else fetchItem s.inp s.inLen.toNat .control s.dec.rp
  | .bit => .internal
  | .lit => fetchItem s.inp s.inLen.toNat .literal s.dec.rp
  | .ref => fetchReference c s.inp s.inLen.toNat s.dec.rp
  | .copy => .internal
  | .ended => .internal

/-- The pixel decoder's fetch: the latched pixel if there is one, else the next sample, at `IN` address `2 × s`
(R232), while there is one. -/
def fetchPixel (s : State) : Fetched :=
  match s.pix.latch with
  | some p =>
    match decode .raster (rasterBytes p) with
    | .ok i _ => .instr i
    | _ => .internal
  | none =>
    if s.pix.s < s.pix.npix then fetchItem s.inp s.inLen.toNat .sample (2 * s.pix.s) else .internal

/-- The engine that a value of `CMD` selects (R120, R130). -/
def engineOfCmd (c : Config) (cmd : BitVec 2) : Engine := engineOf (c.commandOf cmd)

/-- What the block handles next: a raised `START` (R23), otherwise what the running engine is due. The LZ encoder's steps
have no encoding of their own. -/
def fetch (c : Config) (s : State) : Fetched :=
  if s.start then .instr (commandInstr (c.commandOf s.cmd))
  else if s.status ≠ .busy then .idle
  else match engineOfCmd c s.cmd with
    | .lzDecoder => fetchStream c s
    | .lzEncoder => .internal
    | .pixelDecoder => fetchPixel s

/-- The fault of an item that runs past `IN_LEN` (R171, R172, R174, R177, R179), with the offset of R263. A sample
cannot be cut short (R232). -/
def takeTruncated (c : Config) (s : State) : Host.Outcome State Fault Refusal :=
  match engineOfCmd c s.cmd with
  | .lzDecoder =>
    match s.dec.dstate with
    | .hdr => .next (raise .truncatedHeader 0 { s with dec := { s.dec with tokStart := 0 } })
    | .ctrl =>
      .next (raise .truncatedToken s.dec.rp { s with dec := { s.dec with tokStart := s.dec.rp } })
    | .lit => .next (raise .truncatedToken s.dec.rp s)
    | _ => .next (raise .truncatedToken s.dec.tokStart s)
  | _ => .fault .noTransition

/-- The fault of bytes that are no instruction: a wrong tag (R170). `CMD` has no reserved code (R120). -/
def takeRejected (r : Reject) (s : State) : Host.Outcome State Fault Refusal :=
  match r with
  | .badTag => .next (raise .badTag 0 { s with dec := { s.dec with tokStart := 0 } })
  | .notACommand => .fault .noTransition

/-- The bytes of a table word written at `IN` address `at_`, `IN_LEN` covering `len` bytes. -/
def placeBytes (len at_ : Nat) (bs : List Byte) (s : State) : State :=
  { s with start := false, status := .busy, inLen := BitVec.ofNat 32 len, inp := memWriteN s.inp at_ bs }

/-- `s` with a table word where the very next step fetches it (for `State.withFetchWord`): a command code in `CMD` with
the `START` line raised; a stream item at `IN` address 0 with the decoder in the state that reads that kind of item; a sample
at `IN` address 0; raster bytes in the latch. Log entry 17. -/
def placeWord (s : State) (nbits w : Nat) : State :=
  match tableWordCtx nbits w with
  | .command =>
    { s with
      cmd := BitVec.ofNat 2 w
      start := true
      status := if s.status = .busy then .idle else s.status }
  | .header =>
    let t := placeBytes (tableWordBytes nbits w).length 0 (tableWordBytes nbits w) s
    { t with cmd := 0, dec := { t.dec with rp := 0, wp := 0, nbits := 0, tokStart := 0, dstate := .hdr } }
  | .control =>
    let t := placeBytes (tableWordBytes nbits w).length 0 (tableWordBytes nbits w) s
    { t with
      cmd := 0
      dec := { t.dec with rp := 0, nbits := 0, tokStart := 0, totalLen := t.dec.wp + 1, dstate := .ctrl } }
  | .literal =>
    let t := placeBytes (tableWordBytes nbits w).length 0 (tableWordBytes nbits w) s
    { t with cmd := 0, dec := { t.dec with rp := 0, tokStart := 0, dstate := .lit } }
  | .reference =>
    let t := placeBytes (tableWordBytes nbits w).length 0 (tableWordBytes nbits w) s
    { t with cmd := 0, dec := { t.dec with rp := 0, tokStart := 0, dstate := .ref } }
  | .sample =>
    let t := placeBytes tileRowStride 0 (tableWordBytes nbits w) s
    { t with cmd := 2, pix := { t.pix with npix := tileRowStride / 2, s := 0, latch := none } }
  | .raster =>
    match decode .raster (tableWordBytes nbits w) with
    | .ok (.rasterPixel b g r a) _ =>
      { s with
        start := false
        status := .busy
        cmd := 2
        pix := { s.pix with latch := some { blue := b, green := g, red := r, alpha := a } } }
    | _ => s

end Sys2Proof.Machine
end

