-- ==== Sys2Proof/Machine/Internal.lean ====
section
/-! DEFINITION. The steps that the engines make between instructions: the LZ decoder's rows of R185 that read no stream
item (loop head, control-bit test, copy), the whole LZ encoder (spec `43_lz_encoder.md`, whose steps "have no encoding
of their own"), and the pixel decoder's completion (R246). -/

namespace Sys2Proof.Machine

/-! ### LZ decoder -/

/-- `OUT_LEN <- total_len; STATUS <- DONE; dstate <- D_END` (R173, R184). -/
def finishDecompress (c : Config) (s : State) : State :=
  complete c s.dec.totalLen { s with dec := { s.dec with dstate := .ended } }

/-- The loop head where no control byte is due: done, or a control bit is to be examined (R173, R185). -/
def loopHead (c : Config) (s : State) : State :=
  if s.dec.wp = s.dec.totalLen then finishDecompress c s
  else { s with dec := { s.dec with dstate := .bit } }

/-- The control-bit test (R175): bit 7 is used and shifted out, and selects literal or back-reference. -/
def bitTest (s : State) : State :=
  { s with
    dec :=
      { s.dec with
        ctrl := shiftCtrl s.dec.ctrl
        nbits := s.dec.nbits - 1
        tokStart := s.dec.rp
        dstate := if nextCtrlBit s.dec.ctrl then .ref else .lit } }

/-- One step of the copy (R182, R185): read `OUT[wp − ref_dist]` first, then write `OUT[wp]`, then advance; back to the loop
head when nothing is left. -/
def copyStep (s : State) : Host.Outcome State Fault Refusal :=
  if s.dec.refLeft = 0 then .next { s with dec := { s.dec with dstate := .ctrl } }
  else match memRead s.out (s.dec.wp - s.dec.refDist) with
    | none => .fault .unwrittenOut
    | some v =>
      .next
        { s with
          out := memWrite s.out s.dec.wp v
          dec := { s.dec with wp := s.dec.wp + 1, refLeft := s.dec.refLeft - 1 } }

/-- The LZ decoder's own steps; `D_END` has no transition (R185). -/
def decoderStep (c : Config) (s : State) : Host.Outcome State Fault Refusal :=
  match s.dec.dstate with
  | .ctrl => .next (loopHead c s)
  | .bit => .next (bitTest s)
  | .copy => copyStep s
  | _ => .fault .noTransition

/-! ### LZ encoder -/

/-- `grp_buf[at_ + i] <- t[i]` (R209). -/
def writeGroup : Vector Byte 32 → Nat → List Byte → Vector Byte 32
  | buf, _, [] => buf
  | buf, at_, b :: bs => writeGroup (buf.setIfInBounds at_ b) (at_ + 1) bs

/-- `grp_buf[0 .. grp_len − 1]` (R213). -/
def groupBytes (e : LzEncoder) : List Byte := e.grpBuf.toList.take e.grpLen

/-- The header (R201): 4 or 8 bytes at `OUT` address 0. -/
def emitHeader (c : Config) (s : State) : State :=
  { s with
    out := memWriteN s.out 0 (headerBytes c s.enc.n)
    enc := { s.enc with wp := (headerBytes c s.enc.n).length } }

/-- The group flush (R213): the control byte, then its tokens; the group is empty after it. -/
def flushGroup (s : State) : State :=
  { s with
    out := memWriteN s.out s.enc.wp (s.enc.grpCtrl :: groupBytes s.enc)
    enc :=
      { s.enc with wp := s.enc.wp + 1 + s.enc.grpLen, grpCtrl := 0, grpCnt := 0, grpLen := 0 } }

/-- The best match at `pos` (R203 to R206). -/
def bestAt (c : Config) (inp : List Byte) (s : State) : Nat × Nat :=
  searchMatch c inp s.enc.pos s.enc.bestDist (candidates c inp s.idx s.enc.pos)

/-- The token of a best match goes into the group (R209, R211), the covered positions into the index (R212), and the
scan advances (R210). -/
def emitToken (c : Config) (inp : List Byte) (best : Nat × Nat) (s : State) : State :=
  { s with
    idx := insertRange c inp s.idx s.enc.pos (tokenAdvance best)
    enc :=
      { s.enc with
        bestLen := best.1
        bestDist := best.2
        pos := s.enc.pos + tokenAdvance best
        grpBuf := writeGroup s.enc.grpBuf s.enc.grpLen (tokenBytes c inp s.enc.pos best)
        grpLen := s.enc.grpLen + (tokenBytes c inp s.enc.pos best).length
        grpCtrl := markToken (decide (minLen ≤ best.1)) s.enc.grpCnt s.enc.grpCtrl
        grpCnt := s.enc.grpCnt + 1 } }

/-- One step of the scan loop (R202): search and choose, query before insert (R313), then emit. The model reads the whole
input `IN[0 .. n − 1]` at each search (log entry 14). -/
def scanStep (c : Config) (s : State) : Host.Outcome State Fault Refusal :=
  match memReadN s.inp 0 s.enc.n with
  | none => .fault .unwrittenIn
  | some inp => .next (emitToken c inp (bestAt c inp s) s)

/-- The LZ encoder's step: header first (`wp = 0` only before it, R37, R201), a flush when the group is full (R213) or
the input ends with a group begun (R214), a token while input is left (R202), and completion (R215). -/
def encoderStep (c : Config) (s : State) : Host.Outcome State Fault Refusal :=
  if s.enc.wp = 0 then .next (emitHeader c s)
  else if s.enc.grpCnt = groupSize ∨ (s.enc.pos = s.enc.n ∧ 0 < s.enc.grpCnt) then .next (flushGroup s)
  else if s.enc.pos < s.enc.n then scanStep c s
  else .next (complete c s.enc.wp s)

/-! ### Pixel decoder -/

/-- When every sample is done: `OUT_LEN <- 2 × IN_LEN; STATUS <- DONE` (R246). -/
def finishPixels (c : Config) (s : State) : State := complete c (2 * s.inLen.toNat) s

/-- The step of the running engine where nothing is fetched. -/
def internalStep (c : Config) (s : State) : Host.Outcome State Fault Refusal :=
  match engineOfCmd c s.cmd with
  | .lzDecoder => decoderStep c s
  | .lzEncoder => encoderStep c s
  | .pixelDecoder => .next (finishPixels c s)

end Sys2Proof.Machine
end

