-- ==== Sys2Proof/Machine/Engine.lean ====
section
/-! DEFINITION. One step of the block for ANY configuration (spec R6, R99, R100): tag, token coding, window, longest match, key
width, codes and widths are those of the record. `step` (`Machine/Step.lean`) is this at the default record. -/

namespace Sys2Proof.Machine

/-- One step under `c`: the instruction that is due is executed, its fault is taken, the running engine makes a step of its
own, or the block waits for `START` (R302). One row of R185 for the LZ decoder (log entry 1). -/
def stepWith (c : Config) (s : State) : Host.Outcome State Fault Refusal :=
  match fetch c s with
  | .instr i => exec i s
  | .token t => execToken c t s
  | .truncated => takeTruncated c s
  | .rejected r => takeRejected r s
  | .unwritten => .fault .unwrittenIn
  | .internal => internalStep c s
  | .idle => .next s

end Sys2Proof.Machine
end

