-- ==== Sys2Proof/Machine/Step.lean ====
section
/-! DEFINITION. One step of the block at the default configuration, and where the host places an instruction for it. -/

namespace Sys2Proof.Machine

/-- One step of the block: `stepWith` at the spec's default parameters. -/
def step (s : State) : Host.Outcome State Fault Refusal := stepWith config s

/-- The state in which the very next step fetches the instruction of a table word (`placeWord`). -/
def State.withFetchWord (s : State) (nbits w : Nat) : State := placeWord s nbits w

end Sys2Proof.Machine
end

