-- ==== Sys2Proof/Machine/HostPort.lean ====
section
/-! DEFINITION. What the host may do to the block between steps (spec R21 to R23, R60, R130, R271, R301, R305 to R309): the
reads and writes of the interface registers, the writes of `IN`, the reads of `OUT`, `START` and reset. These are the
environment's moves; `stepWith` is the block's. `START` is an event: its move takes the block's own step on it, so
that no move comes between the event and `STATUS = BUSY` (R23, R79, R130, R316). -/

namespace Sys2Proof.Machine

/-- The seven interface registers (R21). -/
inductive HostReg where
  | cmd
  | inLen
  | outLen
  | status
  | errKind
  | errCause
  | errOffset
  deriving DecidableEq, Repr

/-- A host write of a register: `CMD` and `IN_LEN` take the value outside a command, while `STATUS = BUSY` the write breaks a
host duty and has no meaning (R306, U6); a write to a read-only register has no effect (R21). Of a value wider than the
register the low bits are kept, the spec giving only the widths: DESIGN CHOICE (log entry 23). -/
def hostWriteReg (c : Config) (r : HostReg) (v : BitVec 33) (s : State) : Host.Outcome State Fault Refusal :=
  match r with
  | .cmd => if s.status = .busy then .refused .hostDuty else .next { s with cmd := v.setWidth 2 }
  | .inLen =>
    if s.status = .busy then .refused .hostDuty
    else .next { s with inLen := BitVec.ofNat 32 (v.toNat % 2 ^ c.inLenBits) }
  | .outLen => .next s
  | .status => .next s
  | .errKind => .next s
  | .errCause => .next s
  | .errOffset => .next s

/-- A host read of a register; `none` where the value has no meaning: while `STATUS = BUSY` every register but
`STATUS` (R21, R307; log entry 21). A read changes nothing (R21). -/
def hostReadReg (c : Config) (r : HostReg) (s : State) : Option Nat :=
  match r with
  | .status => some (c.statusCode s.status).toNat
  | .cmd => if s.status = .busy then none else some s.cmd.toNat
  | .inLen => if s.status = .busy then none else some s.inLen.toNat
  | .outLen => if s.status = .busy then none else some s.outLen.toNat
  | .errKind => if s.status = .busy then none else some (c.errKindCode s.errKind).toNat
  | .errCause => if s.status = .busy then none else some (c.errCauseCode s.errCause).toNat
  | .errOffset => if s.status = .busy then none else some s.errOffset.toNat

/-- A host write of one byte of `IN`, at a 32-bit address; not while `STATUS = BUSY` (R60, R306). -/
def hostWriteIn (a : BitVec 32) (v : Byte) (s : State) : Host.Outcome State Fault Refusal :=
  if s.status = .busy then .refused .hostDuty else .next { s with inp := memWrite s.inp a.toNat v }

/-- A host read of one byte of `OUT`: a value only below `OUT_LEN` after `DONE` (R73, R271, R307). -/
def hostReadOut (a : Nat) (s : State) : Option Byte :=
  if s.status = .done ∧ a < s.outLen.toNat then memRead s.out a else none

/-- The header's `total_len`, "which the host can read from `IN` itself" (R309), as the decoder will read it: with all of the
header below `IN_LEN`, written and with the right tag. Where it is not, the launch can only stop in the header without a
result, and the length is 0: DESIGN CHOICE (log entry 12). -/
def headerLength (c : Config) (s : State) : Nat :=
  match fetchHeader c s.inp s.inLen.toNat with
  | .instr (.hdr len24) => len24.toNat
  | .instr (.hdrx len32) => len32.toNat
  | _ => 0

/-- A bound on the result of the command that `CMD` selects (R141, R309); the one of `COMPRESS` is for token codings whose tokens
are no longer than what they stand for (`Config.Compact`), as the default's. A pixel command on a length that is no
multiple of the stride only faults, and its bound is 0: DESIGN CHOICE (log entry 12). -/
def resultBound (c : Config) (s : State) : Nat :=
  match engineOfCmd c s.cmd with
  | .lzDecoder => headerLength c s
  | .lzEncoder => 8 + s.inLen.toNat + (s.inLen.toNat + 7) / 8
  | .pixelDecoder => if s.inLen.toNat % tileRowStride = 0 then 2 * s.inLen.toNat else 0

/-- The result fits the capacity of `OUT`: always, when `OUT_CAP` is unbounded (R309). -/
def fitsCapacity (c : Config) (s : State) : Bool :=
  match c.outCap with
  | none => true
  | some cap => decide (resultBound c s ≤ cap)

/-- `START` (R23): an event, not a stored bit. The block takes it at once, in its own step on the raised line: outside a command
the command in `CMD` begins and `STATUS` is `BUSY` in the answered state (or already `ERR`, for the length check of R231),
and while `STATUS = BUSY` nothing changes (R131). A launch whose result may not fit a finite `OUT_CAP` is refused (R309,
U7). -/
def hostStart (c : Config) (s : State) : Host.Outcome State Fault Refusal :=
  if s.status ≠ .busy ∧ fitsCapacity c s = false then .refused .outCapacity
  else stepWith c { s with start := true }

/-- The reset input (R300, R301): in any state, also while `STATUS = BUSY`, the registers take their reset values and the
memories hold no value. -/
def hostReset (_s : State) : State := State.reset

end Sys2Proof.Machine
end

