-- ==== Sys2Proof/Machine/Whole.lean ====
section
/-! DEFINITION. The whole-command functions of the spec, each command as one function from the input bytes: R186 for
`DECOMPRESS`, R216 for `COMPRESS` (and R208, the token choice without the index), R247 for the pixel commands. The
stepped machine agrees with them at completion (R132); that is stated in the obligations. They take the
parameters as a `Config`, so that claims can be made for any lawful token coding (R99, D6). -/

namespace Sys2Proof.Machine

/-! ### `DECOMPRESS` (R186) -/

/-- The output and the read cursor at completion. -/
structure DecResult where
  bytes : List Byte
  rp : Nat
  deriving DecidableEq, Repr

/-- A fault: its cause and its offset (R262, R263). -/
abbrev StreamFault := ErrCause × Nat

/-- `repeat m times: out <- out ++ [out[len(out) - d]]` (R182, R186). -/
def copyBack : Nat → Nat → List Byte → List Byte
  | 0, _, out => out
  | m + 1, d, out => copyBack m d (out ++ [out.getD (out.length - d) 0])

/-- The back-reference of R186 at `rp`. -/
def wholeReference (c : Config) (inp : List Byte) (total : Nat) (st : DecResult) : Except StreamFault DecResult :=
  match inp.drop st.rp with
  | [] => .error (.truncatedToken, st.rp)
  | b0 :: bs =>
    let sz := c.tok.size (BitVec.ofNat 4 (highNibble b0))
    if inp.length < st.rp + sz then .error (.truncatedToken, st.rp)
    else
      let p := c.tok.decode ((b0 :: bs).take sz)
      if st.bytes.length < p.2 then .error (.refBeforeStart, st.rp)
      else .ok { bytes := copyBack (min p.1 (total - st.bytes.length)) p.2 st.bytes, rp := st.rp + sz }

/-- The literal of R186 at `rp`. -/
def wholeLiteral (inp : List Byte) (st : DecResult) : Except StreamFault DecResult :=
  match inp.drop st.rp with
  | [] => .error (.truncatedToken, st.rp)
  | b :: _ => .ok { bytes := st.bytes ++ [b], rp := st.rp + 1 }

/-- `for bit from j − 1 down to 0` of R186: the tokens of one block, stopping at `total` bytes. -/
def wholeBits (c : Config) (inp : List Byte) (total : Nat) (ctrl : Byte) :
    Nat → DecResult → Except StreamFault DecResult
  | 0, st => .ok st
  | j + 1, st =>
    if st.bytes.length = total then .ok st
    else
      match (if ctrl.getLsbD j then wholeReference c inp total st else wholeLiteral inp st) with
      | .error e => .error e
      | .ok st' => wholeBits c inp total ctrl j st'

/-- `while len(out) < total` of R186. Every block takes at least its control byte, so the bytes left are fuel enough;
without fuel no byte is left. -/
def wholeBlocks (c : Config) (inp : List Byte) (total : Nat) : Nat → DecResult → Except StreamFault DecResult
  | 0, st => if st.bytes.length < total then .error (.truncatedToken, st.rp) else .ok st
  | fuel + 1, st =>
    if st.bytes.length < total then
      match inp.drop st.rp with
      | [] => .error (.truncatedToken, st.rp)
      | ctrl :: _ =>
        match wholeBits c inp total ctrl 8 { st with rp := st.rp + 1 } with
        | .error e => .error e
        | .ok st' => wholeBlocks c inp total fuel st'
    else .ok st

/-- The header of R186: `(total, rp)`. -/
def wholeHeader (c : Config) (inp : List Byte) : Except StreamFault (Nat × Nat) :=
  match inp with
  | t :: b1 :: b2 :: b3 :: rest =>
    if t ≠ c.tag then .error (.badTag, 0)
    else if leNat [b1, b2, b3] ≠ 0 then .ok (leNat [b1, b2, b3], 4)
    else match rest with
      | c0 :: c1 :: c2 :: c3 :: _ => .ok (leNat [c0, c1, c2, c3], 8)
      | _ => .error (.truncatedHeader, 0)
  | _ => .error (.truncatedHeader, 0)

/-- `decompress(inp)` (R186). -/
def decompressFn (c : Config) (inp : List Byte) : Except StreamFault DecResult :=
  match wholeHeader c inp with
  | .error e => .error e
  | .ok (total, rp) => wholeBlocks c inp total (inp.length - rp) { bytes := [], rp := rp }

/-! ### `COMPRESS` (R216) -/

/-- The variables of R216's loop. -/
structure EncState where
  pos : Nat
  idx : MatchIndex
  ctrl : Byte
  cnt : Nat
  buf : List Byte
  out : List Byte
  deriving DecidableEq, Repr

/-- The match that R216 chooses at `st.pos`. -/
def wholeBest (c : Config) (inp : List Byte) (st : EncState) : Nat × Nat :=
  searchMatch c inp st.pos 0 (candidates c inp st.idx st.pos)

/-- One token of R216's loop, before the test for a full group. -/
def wholeToken (c : Config) (inp : List Byte) (best : Nat × Nat) (st : EncState) : EncState :=
  { st with
    ctrl := markToken (decide (minLen ≤ best.1)) st.cnt st.ctrl
    buf := st.buf ++ tokenBytes c inp st.pos best
    cnt := st.cnt + 1
    idx := insertRange c inp st.idx st.pos (tokenAdvance best)
    pos := st.pos + tokenAdvance best }

/-- `out <- out ++ [ctrl] ++ buf`, and an empty group (R213). -/
def wholeFlush (st : EncState) : EncState :=
  { st with out := st.out ++ st.ctrl :: st.buf, ctrl := 0, cnt := 0, buf := [] }

/-- One pass of R216's loop. -/
def wholeStep (c : Config) (inp : List Byte) (st : EncState) : EncState :=
  let st' := wholeToken c inp (wholeBest c inp st) st
  if st'.cnt = groupSize then wholeFlush st' else st'

/-- `while pos < n` of R216; every pass advances `pos`, so the input's length is fuel enough. -/
def wholeScan (c : Config) (inp : List Byte) : Nat → EncState → EncState
  | 0, st => st
  | fuel + 1, st => if st.pos < inp.length then wholeScan c inp fuel (wholeStep c inp st) else st

/-- The variables of R216 before its loop. -/
def wholeStart (c : Config) (inp : List Byte) : EncState :=
  { pos := 0, idx := [], ctrl := 0, cnt := 0, buf := [], out := headerBytes c inp.length }

/-- `compress(inp)` (R216). -/
def compressFn (c : Config) (inp : List Byte) : List Byte :=
  let st := wholeScan c inp inp.length (wholeStart c inp)
  if 0 < st.cnt then (wholeFlush st).out else st.out

/-- The match of R208, without the index: the least distance among those with the greatest length, `(0, 0)` where no
earlier byte matches. Distances are tried from 1 up. -/
def exhaustiveMatch (c : Config) (inp : List Byte) (pos : Nat) : Nat → Nat × Nat
  | 0 => (0, 0)
  | d + 1 => betterMatch c inp pos (exhaustiveMatch c inp pos d) (pos - (d + 1))

/-! ### The pixel commands (R247) -/

/-- The channels of a sample word (R234 to R236). -/
def unpackSample (d : Nat) : Rgba :=
  match sampleOfWord d with
  | .pixA3rgb4 a3 r4 g4 b4 => unpackA3rgb4 a3 r4 g4 b4
  | .pixRgb5 r5 g5 b5 => unpackRgb5 r5 g5 b5
  | _ => { r := 0, g := 0, b := 0, a := 0 }

/-- Sample `s` of a tiled buffer (R232). -/
def sampleAt (inp : List Byte) (s : Nat) : Nat := beNat ((inp.drop (2 * s)).take 2)

/-- The four raster bytes of a sample word (R234 to R241). -/
def pixelBytes (honorAlpha : Bool) (d : Nat) : List Byte :=
  rasterBytes (pack (alphaStage honorAlpha (unpackSample d)))

/-- `for s in s0 .. s0 + n − 1` of R247: each sample's pixel is written at its raster address. -/
def wholePixels (inp : List Byte) (honorAlpha : Bool) : Nat → Nat → Memory → Memory
  | 0, _, out => out
  | n + 1, s, out =>
    wholePixels inp honorAlpha n (s + 1)
      (memWriteN out (rasterAddr s) (pixelBytes honorAlpha (sampleAt inp s)))

/-- `decode_tileset(inp, honor_alpha)` (R247): a fault, or the raster as a memory of `2 × len(inp)` bytes. -/
def decodeTilesetFn (inp : List Byte) (honorAlpha : Bool) : Except StreamFault Memory :=
  if inp.length % tileRowStride = 0 then .ok (wholePixels inp honorAlpha (inp.length / 2) 0 [])
  else .error (.badLength, inp.length / tileRowStride * tileRowStride)

end Sys2Proof.Machine
end

