-- ==== Sys2Proof/Safety.lean ====
section
/-! DEFINITION. The words that claims are made in: runs of the block, a launch and its input, the result of a command, the
frames of an instruction, and the invariant `BlockInv` of the block (spec R22, R24, R29, R36, R187, R244). What concerns
the whole block is said for any configuration `c` (R6); what concerns one instruction or one step of an engine is said
for the default one, as `exec` and `step` are. -/

namespace Sys2Proof.Machine

/-! ### Runs, launches and results -/

/-- `k` steps of the block. -/
def steps (c : Config) : Nat → State → Host.Outcome State Fault Refusal
  | 0, s => .next s
  | k + 1, s =>
    match stepWith c s with
    | .next t => steps c k t
    | .fault f => .fault f
    | .refused r => .refused r

/-- Some number of steps leads from `s` to `t`. -/
def Reaches (c : Config) (s t : State) : Prop := ∃ k, steps c k s = .next t

/-- `IN[0 .. IN_LEN − 1]` holds exactly `inp` (R132, R305). -/
def InputIs (s : State) (inp : List Byte) : Prop :=
  s.inLen.toNat = inp.length ∧ memReadN s.inp 0 inp.length = some inp

/-- The host has done its duty before `START` (R305): no command runs, `CMD` selects `k`, the input is written, its length fits
the register, and the result fits `OUT` (R309). -/
def Ready (c : Config) (k : Command) (inp : List Byte) (s : State) : Prop :=
  s.status ≠ .busy ∧ c.commandOf s.cmd = k ∧ InputIs s inp ∧ inp.length < 2 ^ c.inLenBits ∧ fitsCapacity c s = true

/-- The command is over with the result `bs`: `DONE`, `OUT_LEN = len(bs)`, `OUT[0 .. OUT_LEN − 1] = bs`, no error
recorded (R22, R133). -/
def ResultIs (s : State) (bs : List Byte) : Prop :=
  s.status = .done ∧ s.outLen.toNat = bs.length ∧ memReadN s.out 0 bs.length = some bs ∧
    s.errKind = .none ∧ s.errCause = .none ∧ s.errOffset = 0

/-- The command is over with a fault (R22, R270). -/
def FaultIs (s : State) (cause : ErrCause) (offset : Nat) : Prop :=
  s.status = .err ∧ s.errKind = kindOfCause cause ∧ s.errCause = cause ∧ s.errOffset.toNat = offset ∧
    s.outLen = 0

/-! ### Frames -/

/-- Every interface register is as before. -/
def SameInterface (s t : State) : Prop :=
  t.cmd = s.cmd ∧ t.inLen = s.inLen ∧ t.outLen = s.outLen ∧ t.status = s.status ∧ t.errKind = s.errKind ∧
    t.errCause = s.errCause ∧ t.errOffset = s.errOffset ∧ t.start = s.start

/-- Every byte of `IN` and the match index are as before. -/
def SameInput (s t : State) : Prop := (∀ a, memRead t.inp a = memRead s.inp a) ∧ t.idx = s.idx

/-- Every byte of `OUT` outside `lo`, …, `lo + n − 1` reads as before. -/
def OutSameOutside (lo n : Nat) (s t : State) : Prop :=
  ∀ a, (a < lo ∨ lo + n ≤ a) → memRead t.out a = memRead s.out a

/-- Nothing but the LZ decoder's registers (and `OUT`, of which the statement says more) changes. -/
def OnlyDecoder (s t : State) : Prop := SameInterface s t ∧ SameInput s t ∧ t.enc = s.enc ∧ t.pix = s.pix

/-- Nothing but the pixel decoder's registers (and `OUT`) changes. -/
def OnlyPixels (s t : State) : Prop := SameInterface s t ∧ SameInput s t ∧ t.dec = s.dec ∧ t.enc = s.enc

/-- Nothing but the LZ encoder's registers, the match index (and `OUT`) changes. -/
def OnlyEncoder (s t : State) : Prop :=
  SameInterface s t ∧ (∀ a, memRead t.inp a = memRead s.inp a) ∧ t.dec = s.dec ∧ t.pix = s.pix

/-- Every byte of `OUT` reads as before. -/
def SameOut (s t : State) : Prop := ∀ a, memRead t.out a = memRead s.out a

/-- What an accepted `START` writes in the interface (R37), with `CMD`, `IN_LEN` and every byte of `IN` as before. -/
def Begun (s t : State) : Prop :=
  t.status = .busy ∧ t.outLen = 0 ∧ t.errKind = .none ∧ t.errCause = .none ∧ t.errOffset = 0 ∧ t.start = false ∧
    t.cmd = s.cmd ∧ t.inLen = s.inLen ∧ ∀ a, memRead t.inp a = memRead s.inp a

/-! ### Where the machine stands -/

/-- `DECOMPRESS` runs and the LZ decoder is in state `d`. -/
def DecoderAt (s : State) (d : DState) : Prop :=
  s.start = false ∧ s.status = .busy ∧ s.cmd = 0 ∧ s.dec.dstate = d

/-- `COMPRESS` runs. -/
def EncoderRuns (s : State) : Prop := s.start = false ∧ s.status = .busy ∧ s.cmd = 1

/-- A pixel command runs. -/
def PixelsRun (s : State) : Prop := s.start = false ∧ s.status = .busy ∧ (s.cmd = 2 ∨ s.cmd = 3)

/-- An item of kind `c` at `IN` address `a` is what the running engine fetches next (R106, R185, R232). -/
def FetchPoint (s : State) (c : Ctx) (a : Nat) : Prop :=
  (DecoderAt s .hdr ∧ c = .header ∧ a = 0) ∨
    (DecoderAt s .ctrl ∧ s.dec.wp ≠ s.dec.totalLen ∧ s.dec.nbits = 0 ∧ c = .control ∧ a = s.dec.rp) ∨
    (DecoderAt s .lit ∧ c = .literal ∧ a = s.dec.rp) ∨
    (DecoderAt s .ref ∧ c = .reference ∧ a = s.dec.rp) ∨
    (PixelsRun s ∧ s.pix.latch = none ∧ s.pix.s < s.pix.npix ∧ c = .sample ∧ a = 2 * s.pix.s)

/-- The back-reference tiers: size in bytes, length and distance of a token instruction (R102 to R104). -/
inductive RefFields : Instr → Nat → Nat → Nat → Prop
  | ref2 (n : BitVec 4) (disp : BitVec 12) : RefFields (.ref2 n disp) 2 (n.toNat + 1) (disp.toNat + 1)
  | ref3 (lenf : BitVec 8) (disp : BitVec 12) : RefFields (.ref3 lenf disp) 3 (lenf.toNat + 17) (disp.toNat + 1)
  | ref4 (lenf : BitVec 16) (disp : BitVec 12) : RefFields (.ref4 lenf disp) 4 (lenf.toNat + 273) (disp.toNat + 1)

/-! ### The invariant -/

/-- Exactly the addresses `0, …, n − 1` of `OUT` hold a value. -/
def OutFilled (s : State) (n : Nat) : Prop := s.out.map Prod.fst = List.range n

/-- What holds while `DECOMPRESS` runs (R24, R25, R187). -/
structure DecInv (c : Config) (s : State) : Prop where
  live : s.dec.dstate ≠ .ended
  head : s.dec.dstate = .hdr → s.dec.rp = 0 ∧ s.dec.wp = 0 ∧ s.dec.nbits = 0
  cursor : s.dec.dstate ≠ .hdr → 4 ≤ s.dec.rp ∧ s.dec.rp ≤ s.inLen.toNat
  owed : s.dec.dstate ≠ .hdr → s.dec.wp ≤ s.dec.totalLen ∧ s.dec.totalLen < 2 ^ 32
  bits : s.dec.nbits ≤ 8
  filled : OutFilled s s.dec.wp
  bit : s.dec.dstate = .bit → 0 < s.dec.nbits ∧ s.dec.wp < s.dec.totalLen
  token : s.dec.dstate = .lit ∨ s.dec.dstate = .ref → s.dec.wp < s.dec.totalLen ∧ s.dec.tokStart = s.dec.rp
  copy : s.dec.dstate = .copy →
    1 ≤ s.dec.refDist ∧ s.dec.refDist ≤ c.window ∧ s.dec.refDist ≤ s.dec.wp ∧
      minLen ≤ s.dec.refLen ∧ s.dec.refLen ≤ c.maxLen ∧ s.dec.refLeft ≤ s.dec.refLen ∧
      s.dec.wp + s.dec.refLeft ≤ s.dec.totalLen

/-- What holds while `COMPRESS` runs (R24, R27, R29, R214). -/
structure EncInv (c : Config) (s : State) : Prop where
  length : s.enc.n = s.inLen.toNat
  scan : s.enc.pos ≤ s.enc.n
  head : s.enc.wp = 0 → s.enc.pos = 0 ∧ s.enc.grpCnt = 0 ∧ s.enc.grpLen = 0
  group : s.enc.grpCnt ≤ groupSize ∧ s.enc.grpLen ≤ 4 * s.enc.grpCnt
  filled : OutFilled s s.enc.wp
  best : s.enc.bestLen ≤ c.maxLen ∧ (0 < s.enc.bestLen → 1 ≤ s.enc.bestDist ∧ s.enc.bestDist ≤ c.window)
  unused : ∀ j, j < groupSize - s.enc.grpCnt → s.enc.grpCtrl.getLsbD j = false
  index : ∀ key p, p ∈ idxGet s.idx key → p < s.enc.pos
  recency : ∀ key, (idxGet s.idx key).Pairwise (fun p q => q < p)

/-- What holds while a pixel command runs (R24, R31, R69, R244). -/
structure PixInv (c : Config) (s : State) : Prop where
  mode : s.pix.honorAlpha = decide (c.commandOf s.cmd = .decodeTileset)
  stride : s.inLen.toNat % tileRowStride = 0
  count : s.pix.npix = s.inLen.toNat / 2
  cursor : s.pix.s ≤ s.pix.npix
  latched : s.pix.latch.isSome → s.pix.s < s.pix.npix
  filled : ∀ a, (memRead s.out a).isSome ↔ ∃ i, i < s.pix.s ∧ rasterAddr i ≤ a ∧ a < rasterAddr i + 4

/-- What the running engine keeps. -/
def EngineInv (c : Config) (s : State) : Prop :=
  match engineOfCmd c s.cmd with
  | .lzDecoder => DecInv c s
  | .lzEncoder => EncInv c s
  | .pixelDecoder => PixInv c s

/-- The invariant of the block: the memories and the index keep their canonical form; the length registers hold no more than
their widths; the registers agree with `STATUS` (R21, R22, R36, R262, R270); a result is all written (R22); and the
running engine keeps its own. It says nothing of the `START` line, which the statements say every move leaves down. -/
structure BlockInv (c : Config) (s : State) : Prop where
  inWf : memWf s.inp = true
  outWf : memWf s.out = true
  idxWf : idxWf s.idx = true
  widths : s.inLen.toNat < 2 ^ c.inLenBits ∧ s.outLen.toNat < 2 ^ c.outLenBits
  kind : s.errKind = kindOfCause s.errCause
  cause : s.status = .err ↔ s.errCause ≠ .none
  noResult : s.status ≠ .done → s.outLen = 0
  dead : s.status = .err → s.out = []
  result : s.status = .done → ∀ a, a < s.outLen.toNat → (memRead s.out a).isSome
  ended : s.status ≠ .busy ∨ c.commandOf s.cmd ≠ .decompress → s.dec.dstate = .ended
  engine : s.status = .busy → EngineInv c s

end Sys2Proof.Machine
end

