-- ==== Sys2Proof/Certificates/Slice0/Obligations.lean ====
section
/-! DEFINITION. The statements about the block. Each docstring names the rules of the spec it rests on. Where a statement
rests on a choice of the model's, it says so and names the log entry. -/

open Sys2Proof Sys2Proof.Machine

/-! ### Reset, the invariant and the frame of every step -/

/-- R36, R300: what reset leaves in the interface registers, `dstate` and the byte memories. That the memories hold NO value is
the model's reading of "unspecified; a model gives it no value" (log entry 4). -/
def Obligations.ResetLeavesInterfaceZero : Prop :=
  State.reset.cmd = 0 ∧ State.reset.inLen = 0 ∧ State.reset.outLen = 0 ∧ State.reset.status = .idle ∧
    config.statusCode State.reset.status = 0 ∧ config.errKindCode State.reset.errKind = 0 ∧
    config.errCauseCode State.reset.errCause = 0 ∧ State.reset.errOffset = 0 ∧ State.reset.dec.dstate = .ended ∧
    (∀ a, memRead State.reset.inp a = none) ∧ (∀ a, memRead State.reset.out a = none)

/-- The invariant holds right after reset (R36), whatever the parameters. -/
def Obligations.ResetSatisfiesInvariant : Prop := ∀ c : Config, BlockInv c State.reset

/-- Every step keeps the invariant, from every state that satisfies it, for any lawful parameters whose tokens fit the group
buffer (R6, R24, R27, R29, R99, R187, R244), and leaves no `START` behind (R23); so does `step`, which has the default
parameters. -/
def Obligations.StepKeepsInvariant : Prop :=
  (∀ c : Config, c.Lawful → c.Buffered → ∀ s t, BlockInv c s → stepWith c s = .next t →
      BlockInv c t ∧ t.start = false) ∧
    ∀ s t, BlockInv config s → step s = .next t → BlockInv config t ∧ t.start = false

/-- Every move of the host keeps the invariant: register writes, writes of `IN`, `START` and reset (R21, R23, R301, R306). None
leaves the `START` line raised: `START` is an event and not a stored bit (R23; log entry 2). -/
def Obligations.HostMovesKeepInvariant : Prop :=
  ∀ (c : Config) (s : State), BlockInv c s → s.start = false →
    (∀ r v t, hostWriteReg c r v s = .next t → BlockInv c t ∧ t.start = false) ∧
      (∀ a v t, hostWriteIn a v s = .next t → BlockInv c t ∧ t.start = false) ∧
      (∀ t, hostStart c s = .next t → BlockInv c t ∧ t.start = false) ∧
      BlockInv c (hostReset s) ∧ (hostReset s).start = false

/-- From a state that satisfies the invariant a step stops only at a byte of `IN` that was never written: the copy never
reads an unwritten `OUT` byte (R78), no engine is without a transition (R185), and nothing is refused. -/
def Obligations.InvariantRulesOutStrayStops : Prop :=
  ∀ (c : Config) (s : State), BlockInv c s →
    stepWith c s ≠ .fault .unwrittenOut ∧ stepWith c s ≠ .fault .noTransition ∧ ∀ r, stepWith c s ≠ .refused r

/-- R61: no step and no `START` changes a byte of `IN` (nor `IN_LEN` or `CMD`), and no host write to `IN` happens during a
command. -/
def Obligations.InputIsNeverChangedByTheBlock : Prop :=
  (∀ (c : Config) s t, stepWith c s = .next t ∨ hostStart c s = .next t →
      (∀ a, memRead t.inp a = memRead s.inp a) ∧ t.inLen = s.inLen ∧ t.cmd = s.cmd) ∧
    ∀ s a v, s.status = .busy → hostWriteIn a v s = .refused .hostDuty

/-- R62: no step depends on a byte of `IN` at or beyond `IN_LEN`: with any other contents there it ends the same way. -/
def Obligations.StepReadsNoByteBeyondTheInput : Prop :=
  ∀ (c : Config) s m, BlockInv c s → memWf m = true → (∀ a, a < s.inLen.toNat → memRead m a = memRead s.inp a) →
    (∀ t, stepWith c s = .next t → stepWith c { s with inp := m } = .next { t with inp := m }) ∧
      ∀ f, stepWith c s = .fault f → stepWith c { s with inp := m } = .fault f

/-- The step runs the decoded instruction: where the bytes at the running engine's fetch point are those of a well-formed
instruction, the step is `exec` of it; a raised `START` runs the command in `CMD`; and a latched pixel is the raster
pixel that is written next (R106, R130, R185, R233; the latch is the model's, log entry 3). `step` is the block's step
at the default parameters, of which the other statements speak. -/
def Obligations.StepRunsTheDecodedInstruction : Prop :=
  (∀ s i a, i.wellFormed = true → FetchPoint s i.ctx a → a + (encode i).length ≤ s.inLen.toNat →
      memReadN s.inp a (encode i).length = some (encode i) → step s = exec i s) ∧
    (∀ s, s.start = true → step s = exec (decodeCmd s.cmd) s) ∧
    (∀ s p, PixelsRun s → s.pix.latch = some p →
      step s = exec (.rasterPixel p.blue p.green p.red p.alpha) s) ∧
    ∀ s, step s = stepWith config s

/-! ### Encoding -/

/-- Words written out from the spec: `HDR 31` (R171), `HDRX 4` (R172), control byte 0x1C (R175), `REF 7,7` (R180), `REF 17,3`
(R180), `REF 287,1` (R180), sample 0x3ABC (R235), sample 0xFC00 (R236) and the four command codes (R120). -/
def Obligations.SpecWordsDecodeToTheirInstructions : Prop :=
  decode .header [0x11, 0x1F, 0x00, 0x00] = .ok (.hdr 31) [] ∧
    decode .header [0x11, 0x00, 0x00, 0x00, 0x04, 0x00, 0x00, 0x00] = .ok (.hdrx 4) [] ∧
    decode .control [0x1C] = .ok (.ctl 0b00011100) [] ∧
    decode .literal [0x41] = .ok (.lit 0x41) [] ∧
    decode .reference [0x60, 0x06] = .ok (.ref2 6 6) [] ∧
    decode .reference [0x00, 0x00, 0x02] = .ok (.ref3 0 2) [] ∧
    decode .reference [0x10, 0x00, 0xE0, 0x00] = .ok (.ref4 14 0) [] ∧
    decode .sample [0x3A, 0xBC] = .ok (.pixA3rgb4 3 10 11 12) [] ∧
    decode .sample [0xFC, 0x00] = .ok (.pixRgb5 31 0 0) [] ∧
    decode .raster [0x57, 0x50, 0x49, 0x6D] = .ok (.rasterPixel 0x57 0x50 0x49 0x6D) [] ∧
    decodeCmd 0 = .decompress ∧ decodeCmd 1 = .compress ∧ decodeCmd 2 = .decodeTileset ∧
    decodeCmd 3 = .decodeTilesetOpaque

/-- Decoding the bytes of a well-formed instruction, at its kind of position and before any other bytes, gives it back (R91 to
R113, R120). The tag and the tier table are the spec's general-knowledge defaults (log entries 9 and 10). -/
def Obligations.DecodeOfEncodeIsTheInstruction : Prop :=
  ∀ i rest, i.wellFormed = true → decode i.ctx (encode i ++ rest) = .ok i rest

/-- Each byte string has one meaning: what decodes is a well-formed instruction of that position followed by the rest, and the
bytes are its own encoding (R105, R112). -/
def Obligations.EncodeOfDecodeIsTheBytes : Prop :=
  ∀ c bs i rest, decode c bs = .ok i rest → i.wellFormed = true ∧ i.ctx = c ∧ bs = encode i ++ rest

/-- The default configuration obeys the laws of R99 (R105) and the other laws of the parameters, its tokens fit the group buffer
(R27) and are no longer than what they stand for (R141). The table itself is PRESUMED (log entry 10). -/
def Obligations.DefaultConfigurationIsLawful : Prop := config.Lawful ∧ config.Buffered ∧ config.Compact

/-! ### Stream items -/

/-- `HDR`: the length and the cursor of R171, and its frame. -/
def Obligations.HdrLoadsLengthAndCursor : Prop :=
  ∀ (len24 : BitVec 24) (s : State), ∃ t, exec (.hdr len24) s = .next t ∧
    t.dec = { s.dec with tokStart := 0, totalLen := len24.toNat, rp := 4, dstate := .ctrl } ∧
    OnlyDecoder s t ∧ SameOut s t

/-- `HDRX`: the length and the cursor of R172, and its frame. -/
def Obligations.HdrxLoadsLengthAndCursor : Prop :=
  ∀ (len32 : BitVec 32) (s : State), ∃ t, exec (.hdrx len32) s = .next t ∧
    t.dec = { s.dec with tokStart := 0, totalLen := len32.toNat, rp := 8, dstate := .ctrl } ∧
    OnlyDecoder s t ∧ SameOut s t

/-- `CTL`: the eight control bits are loaded and `rp` moves on (R174), and its frame. -/
def Obligations.CtlLoadsTheControlBits : Prop :=
  ∀ (flags : BitVec 8) (s : State), ∃ t, exec (.ctl flags) s = .next t ∧
    t.dec =
      { s.dec with tokStart := s.dec.rp, ctrl := flags, rp := s.dec.rp + 1, nbits := 8, dstate := .bit } ∧
    OnlyDecoder s t ∧ SameOut s t

/-- `LIT`: the byte is stored at `OUT[wp]`, both cursors move on by 1 (R177), and its frame. -/
def Obligations.LitStoresItsByte : Prop :=
  ∀ (value : BitVec 8) (s : State), ∃ t, exec (.lit value) s = .next t ∧
    memRead t.out s.dec.wp = some value ∧ OutSameOutside s.dec.wp 1 s t ∧
    t.dec = { s.dec with rp := s.dec.rp + 1, wp := s.dec.wp + 1, dstate := .ctrl } ∧ OnlyDecoder s t

/-- `REF2`, `REF3`, `REF4` with a legal distance: the token is passed, the pair is loaded, and `min(ref_len, total_len − wp)`
bytes are to be copied (R180 to R183, R185); nothing is stored yet. -/
def Obligations.ReferenceLoadsTheCopy : Prop :=
  ∀ i size len dist, RefFields i size len dist → ∀ s : State, dist ≤ s.dec.wp → ∃ t, exec i s = .next t ∧
    t.dec =
      { s.dec with
        rp := s.dec.rp + size
        refLen := len
        refDist := dist
        refLeft := min len (s.dec.totalLen - s.dec.wp)
        dstate := .copy } ∧
    OnlyDecoder s t ∧ SameOut s t

/-- `REF2`, `REF3`, `REF4` with a distance beyond the output so far fault with `REF_BEFORE_START` at the token's first byte
(R181, R263), with `rp` past the token (R185). -/
def Obligations.ReferenceBeforeStartFaults : Prop :=
  ∀ i size len dist, RefFields i size len dist → ∀ s : State, s.dec.wp < dist → s.dec.tokStart < 2 ^ 32 →
    ∃ t, exec i s = .next t ∧ FaultIs t .refBeforeStart s.dec.tokStart ∧
      t.dec = { s.dec with rp := s.dec.rp + size, refLen := len, refDist := dist, dstate := .ended } ∧
      t.cmd = s.cmd ∧ t.inLen = s.inLen ∧ t.start = s.start ∧ SameInput s t ∧ t.enc = s.enc ∧ t.pix = s.pix

/-- A whole back-reference (R179, R180, R182, R183, R185). It copies `m = min(ref_len, total_len − wp)` bytes, and the last
`ref_dist` bytes of the output are repeated periodically: `OUT[w0 + j] = old[w0 − ref_dist + (j mod ref_dist)]`. That this
takes `m + 1` steps after the token's own is the model's granularity (log entry 1); the clip is DEDUCED (log entry 11);
the lengths and sizes of the tiers are PRESUMED (log entry 10). -/
def Obligations.ReferenceRepeatsThePeriod : Prop :=
  ∀ i size len dist, RefFields i size len dist → ∀ s : State,
    s.start = false → s.status = .busy → s.cmd = 0 → dist ≤ s.dec.wp →
    (∀ a, a < s.dec.wp → (memRead s.out a).isSome) →
    ∃ t u, exec i s = .next t ∧ steps config (min len (s.dec.totalLen - s.dec.wp) + 1) t = .next u ∧
      u.dec =
        { s.dec with
          rp := s.dec.rp + size
          refLen := len
          refDist := dist
          refLeft := 0
          wp := s.dec.wp + min len (s.dec.totalLen - s.dec.wp)
          dstate := .ctrl } ∧
      (∀ j, j < min len (s.dec.totalLen - s.dec.wp) →
        memRead u.out (s.dec.wp + j) = memRead s.out (s.dec.wp - dist + j % dist)) ∧
      OutSameOutside s.dec.wp (min len (s.dec.totalLen - s.dec.wp)) s u ∧ OnlyDecoder s u

/-- R175: the control-bit test, for either value of the bit. -/
def Obligations.ControlBitSelectsTheToken : Prop :=
  ∀ s, DecoderAt s .bit → ∃ t, step s = .next t ∧
    t.dec =
      { s.dec with
        ctrl := BitVec.ofNat 8 (2 * s.dec.ctrl.toNat)
        nbits := s.dec.nbits - 1
        tokStart := s.dec.rp
        dstate := if s.dec.ctrl.toNat < 128 then .lit else .ref } ∧
    OnlyDecoder s t ∧ SameOut s t

/-- R173, R184: the main loop stops exactly at `total_len`, before a control byte is fetched and before a control bit is used,
whatever `nbits` and the unused bits are: `OUT_LEN`, `STATUS` and `dstate` are written and nothing else. -/
def Obligations.DecoderStopsAtTotalLength : Prop :=
  (∀ s, DecoderAt s .ctrl → s.dec.wp = s.dec.totalLen → s.dec.totalLen < 2 ^ 32 → ∃ t, step s = .next t ∧
      t.status = .done ∧ t.outLen.toNat = s.dec.totalLen ∧ t.dec = { s.dec with dstate := .ended } ∧
      t.errKind = s.errKind ∧ t.errCause = s.errCause ∧ t.errOffset = s.errOffset ∧ t.start = s.start ∧
      t.enc = s.enc ∧ t.pix = s.pix ∧ SameInput s t ∧ SameOut s t ∧ t.cmd = s.cmd ∧ t.inLen = s.inLen) ∧
    (∀ s, DecoderAt s .ctrl → s.dec.wp ≠ s.dec.totalLen → s.dec.nbits ≠ 0 → ∃ t, step s = .next t ∧
      t.dec = { s.dec with dstate := .bit } ∧ OnlyDecoder s t ∧ SameOut s t)

/-- R170 to R172, R265: the header is checked in order (length, tag, length of the extended form), and its little-endian length
is loaded (R63). -/
def Obligations.HeaderIsCheckedInOrder : Prop :=
  ∀ s, DecoderAt s .hdr →
    (s.inLen.toNat < 4 → ∃ t, step s = .next t ∧ FaultIs t .truncatedHeader 0) ∧
    (∀ b0 b1 b2 b3, 4 ≤ s.inLen.toNat → memReadN s.inp 0 4 = some [b0, b1, b2, b3] →
      (b0 ≠ tagByte → ∃ t, step s = .next t ∧ FaultIs t .badTag 0) ∧
      (b0 = tagByte → b1.toNat + 256 * b2.toNat + 65536 * b3.toNat ≠ 0 → ∃ t, step s = .next t ∧
        t.dec.totalLen = b1.toNat + 256 * b2.toNat + 65536 * b3.toNat ∧ t.dec.rp = 4 ∧
        t.dec.dstate = .ctrl ∧ t.status = .busy) ∧
      (b0 = tagByte → b1.toNat + 256 * b2.toNat + 65536 * b3.toNat = 0 → s.inLen.toNat < 8 →
        ∃ t, step s = .next t ∧ FaultIs t .truncatedHeader 0)) ∧
    (∀ c0 c1 c2 c3, 8 ≤ s.inLen.toNat →
      memReadN s.inp 0 8 = some [tagByte, 0, 0, 0, c0, c1, c2, c3] → ∃ t, step s = .next t ∧
        t.dec.totalLen = c0.toNat + 256 * c1.toNat + 65536 * c2.toNat + 16777216 * c3.toNat ∧
        t.dec.rp = 8 ∧ t.dec.dstate = .ctrl ∧ t.status = .busy)

/-- R174, R177, R179, R263: a control byte, a literal or part of a token at or beyond `IN_LEN` faults with
`TRUNCATED_TOKEN`, at the address of the item's first byte. -/
def Obligations.MissingItemBytesFault : Prop :=
  ∀ s, BlockInv config s →
    (DecoderAt s .ctrl → s.dec.wp ≠ s.dec.totalLen → s.dec.nbits = 0 → s.inLen.toNat ≤ s.dec.rp →
      ∃ t, step s = .next t ∧ FaultIs t .truncatedToken s.dec.rp) ∧
    (DecoderAt s .lit → s.inLen.toNat ≤ s.dec.rp → ∃ t, step s = .next t ∧ FaultIs t .truncatedToken s.dec.rp) ∧
    (DecoderAt s .ref → s.inLen.toNat ≤ s.dec.rp →
      ∃ t, step s = .next t ∧ FaultIs t .truncatedToken s.dec.tokStart) ∧
    (∀ b0, DecoderAt s .ref → s.dec.rp < s.inLen.toNat → memReadN s.inp s.dec.rp 1 = some [b0] →
      s.inLen.toNat < s.dec.rp + tokenSizeOfNibble (b0.toNat / 16) →
      ∃ t, step s = .next t ∧ FaultIs t .truncatedToken s.dec.tokStart)

/-! ### Samples and raster pixels -/

/-- `PIX_A3RGB4` (R235, R237, R238, R240, R241): the sample, the four expanded channels, and the packed pixel after the alpha
stage. The pixel waits in the latch, which is the model's (log entry 3). -/
def Obligations.PixA3rgb4UnpacksItsSample : Prop :=
  ∀ (a3 : BitVec 3) (r4 g4 b4 : BitVec 4) (s : State), ∃ t q, exec (.pixA3rgb4 a3 r4 g4 b4) s = .next t ∧
    t.pix =
      { s.pix with
        d := BitVec.ofNat 16 (a3.toNat * 4096 + r4.toNat * 256 + g4.toNat * 16 + b4.toNat)
        r := t.pix.r
        g := t.pix.g
        b := t.pix.b
        a := t.pix.a
        latch := some q } ∧
    t.pix.r.toNat = r4.toNat * 17 ∧ t.pix.g.toNat = g4.toNat * 17 ∧ t.pix.b.toNat = b4.toNat * 17 ∧
    t.pix.a.toNat = (a3.toNat <<< 5 ||| a3.toNat <<< 2 ||| a3.toNat >>> 1) ∧
    (s.pix.honorAlpha = false → q = ⟨t.pix.b, t.pix.g, t.pix.r, 255⟩) ∧
    (s.pix.honorAlpha = true → a3 = 0 → q = ⟨0, 0, 0, 0⟩) ∧
    (s.pix.honorAlpha = true → a3 ≠ 0 →
      q.blue.toNat = (t.pix.b.toNat * t.pix.a.toNat + 127) / 255 ∧
      q.green.toNat = (t.pix.g.toNat * t.pix.a.toNat + 127) / 255 ∧
      q.red.toNat = (t.pix.r.toNat * t.pix.a.toNat + 127) / 255 ∧ q.alpha = t.pix.a) ∧
    OnlyPixels s t ∧ SameOut s t

/-- `PIX_RGB5` (R236, R237, R238, R241): as above; alpha is 255 and both alpha modes pass the colours through. -/
def Obligations.PixRgb5UnpacksItsSample : Prop :=
  ∀ (r5 g5 b5 : BitVec 5) (s : State), ∃ t, exec (.pixRgb5 r5 g5 b5) s = .next t ∧
    t.pix =
      { s.pix with
        d := BitVec.ofNat 16 (32768 + r5.toNat * 1024 + g5.toNat * 32 + b5.toNat)
        r := t.pix.r
        g := t.pix.g
        b := t.pix.b
        a := 255
        latch := some ⟨t.pix.b, t.pix.g, t.pix.r, 255⟩ } ∧
    t.pix.r.toNat = (r5.toNat <<< 3 ||| r5.toNat >>> 2) ∧ t.pix.g.toNat = (g5.toNat <<< 3 ||| g5.toNat >>> 2) ∧
    t.pix.b.toNat = (b5.toNat <<< 3 ||| b5.toNat >>> 2) ∧ OnlyPixels s t ∧ SameOut s t

/-- `RASTER_PIXEL` (R113, R241, R243, R245): blue, green, red, alpha at the raster address `4 × (1024 × y + x)` of the current
sample; no other byte of `OUT` changes; the sample cursor moves on by 1. -/
def Obligations.RasterPixelIsStoredAtItsAddress : Prop :=
  ∀ (blue green red alpha : BitVec 8) (s : State), ∃ t, exec (.rasterPixel blue green red alpha) s = .next t ∧
    memRead t.out (rasterAddr s.pix.s) = some blue ∧ memRead t.out (rasterAddr s.pix.s + 1) = some green ∧
    memRead t.out (rasterAddr s.pix.s + 2) = some red ∧ memRead t.out (rasterAddr s.pix.s + 3) = some alpha ∧
    OutSameOutside (rasterAddr s.pix.s) 4 s t ∧
    t.pix = { s.pix with s := s.pix.s + 1, latch := none } ∧ OnlyPixels s t

/-- R246: when every sample is written, `OUT_LEN <- 2 × IN_LEN` and `STATUS <- DONE`; nothing else changes. -/
def Obligations.PixelDecoderCompletes : Prop :=
  ∀ s, PixelsRun s → s.pix.latch = none → s.pix.s = s.pix.npix → ∃ t, step s = .next t ∧
    t.status = .done ∧ t.outLen.toNat = 2 * s.inLen.toNat ∧ t.pix = s.pix ∧ SameOut s t ∧ SameInput s t ∧
    t.dec = s.dec ∧ t.enc = s.enc ∧ t.cmd = s.cmd ∧ t.inLen = s.inLen ∧ t.start = s.start ∧
    t.errKind = s.errKind ∧ t.errCause = s.errCause ∧ t.errOffset = s.errOffset

/-- R239: the premultiplier is round half up of `c × a / 255`, and its bounds and corner values. -/
def Obligations.PremultiplyRoundsHalfUp : Prop :=
  ∀ c a : Byte,
    (premultiply c a).toNat = (2 * c.toNat * a.toNat + 255) / 510 ∧
    (premultiply c a).toNat = (c.toNat * a.toNat + 127) / 255 ∧
    (premultiply c a).toNat ≤ min c.toNat a.toNat ∧
    premultiply c 255 = c ∧ premultiply c 0 = 0 ∧ premultiply 0 a = 0 ∧ premultiply 255 a = a

/-- R240: decoded alpha is 0 exactly for the samples 0x0000 to 0x0FFF, and with alpha honoured those give four zero bytes;
with alpha forced, alpha is 255 for every sample (R237). -/
def Obligations.ZeroAlphaGivesTransparentBlack : Prop :=
  ∀ d, d < 65536 →
    ((unpackSample d).a = 0 ↔ d < 4096) ∧
    (d < 4096 → pixelBytes true d = [0, 0, 0, 0]) ∧
    (pixelBytes false d)[3]? = some 255

/-- R243, R244: the translator moves the fields of the sample index as the bit layout says, is inverted by
`sampleOfRaster`, and permutes the pixels of a buffer of whole tile-rows. -/
def Obligations.TranslatorPermutesThePixels : Prop :=
  (∀ s, rasterIndex s % 4 = s % 4 ∧ rasterIndex s / 4 % 256 = s / 16 % 256 ∧
      rasterIndex s / 1024 % 4 = s / 4 % 4 ∧ rasterIndex s / 4096 = s / 4096) ∧
    (∀ s, sampleOfRaster (rasterIndex s) = s) ∧ (∀ p, rasterIndex (sampleOfRaster p) = p) ∧
    (∀ npix s, npix % 4096 = 0 → (rasterIndex s < npix ↔ s < npix))

/-! ### Commands -/

/-- `DECOMPRESS`, accepted (R37, R130): the interface and the LZ decoder's registers at command start. -/
def Obligations.DecompressBegins : Prop :=
  ∀ s : State, s.status ≠ .busy → ∃ t, exec .decompress s = .next t ∧ Begun s t ∧
    t.dec =
      { s.dec with rp := 0, wp := 0, nbits := 0, ctrl := 0, refLeft := 0, tokStart := 0, dstate := .hdr } ∧
    t.idx = s.idx ∧ t.enc = s.enc ∧ t.pix = s.pix

/-- `COMPRESS`, accepted (R37, R130): the interface, the LZ encoder's registers and the empty index. -/
def Obligations.CompressBegins : Prop :=
  ∀ s : State, s.status ≠ .busy → ∃ t, exec .compress s = .next t ∧ Begun s t ∧
    t.enc =
      { s.enc with
        n := s.inLen.toNat
        pos := 0
        wp := 0
        grpCtrl := 0
        grpCnt := 0
        grpLen := 0
        bestLen := 0 } ∧
    (∀ key, idxGet t.idx key = []) ∧ t.dec = s.dec ∧ t.pix = s.pix

/-- `DECODE_TILESET` and `DECODE_TILESET_OPAQUE`, accepted with a length that is a multiple of 8192 (R37, R130, R231): the
registers at command start; `honor_alpha` is 1 for the first and 0 for the second. -/
def Obligations.PixelCommandsBegin : Prop :=
  ∀ s : State, s.status ≠ .busy → s.inLen.toNat % 8192 = 0 →
    (∃ t, exec .decodeTileset s = .next t ∧ Begun s t ∧
      t.pix = { s.pix with honorAlpha := true, npix := s.inLen.toNat / 2, s := 0, latch := none } ∧
      t.idx = s.idx ∧ t.dec = s.dec ∧ t.enc = s.enc) ∧
    (∃ t, exec .decodeTilesetOpaque s = .next t ∧ Begun s t ∧
      t.pix = { s.pix with honorAlpha := false, npix := s.inLen.toNat / 2, s := 0, latch := none } ∧
      t.idx = s.idx ∧ t.dec = s.dec ∧ t.enc = s.enc)

/-- R231: a pixel command on a length that is no multiple of 8192 faults with `BAD_LENGTH` at the start of the incomplete
tile-row, and no byte of `OUT` below `OUT_LEN` = 0 is a result. -/
def Obligations.BadLengthFaults : Prop :=
  ∀ (s : State) (i : Instr), s.status ≠ .busy → s.inLen.toNat % 8192 ≠ 0 →
    (i = .decodeTileset ∨ i = .decodeTilesetOpaque) → ∃ t, exec i s = .next t ∧
      FaultIs t .badLength (s.inLen.toNat / 8192 * 8192) ∧ t.errKind = .malformedBuffer ∧
      t.start = false ∧ t.cmd = s.cmd ∧ t.inLen = s.inLen ∧ SameInput s t ∧ t.enc = s.enc ∧
      t.dec = { s.dec with dstate := .ended } ∧
      t.pix =
        { s.pix with
          honorAlpha := decide (i = .decodeTileset)
          npix := s.inLen.toNat / 2
          s := 0
          latch := none }

/-- R23, R131: `START` during a command is ignored: every one of the four commands leaves all state as it was, but for the
`START` line, which is the model's (log entry 2) and is down after it; and the host's move leaves the state as it is,
whatever the parameters. -/
def Obligations.StartIsIgnoredWhileBusy : Prop :=
  (∀ (s : State) (i : Instr), s.status = .busy → i.ctx = .command → exec i s = .next { s with start := false }) ∧
    ∀ (c : Config) (s : State), s.status = .busy → s.start = false → hostStart c s = .next s

/-- R270: what taking a fault writes, for every cause, and that nothing else changes but `OUT`, whose content is unspecified
after a fault (R271). -/
def Obligations.RaiseRecordsTheFault : Prop :=
  ∀ cause offset (s : State), offset < 2 ^ 32 →
    (raise cause offset s).errKind = kindOfCause cause ∧ (raise cause offset s).errCause = cause ∧
    (raise cause offset s).errOffset.toNat = offset ∧ (raise cause offset s).outLen = 0 ∧
    (raise cause offset s).status = .err ∧
    (raise cause offset s).dec = { s.dec with dstate := .ended } ∧
    (raise cause offset s).cmd = s.cmd ∧ (raise cause offset s).inLen = s.inLen ∧
    (raise cause offset s).start = s.start ∧ SameInput s (raise cause offset s) ∧
    (raise cause offset s).enc = s.enc ∧ (raise cause offset s).pix = s.pix

/-- R261: `COMPRESS` never faults, `DECOMPRESS` faults only with the causes of `MalformedStream`, and the pixel commands only
with `BAD_LENGTH`; whether the fault comes in a step of the command or at its `START`. -/
def Obligations.EachCommandRaisesItsOwnFaults : Prop :=
  ∀ (c : Config) s t, BlockInv c s →
    ((s.start = true ∨ s.status = .busy) ∧ stepWith c s = .next t) ∨ hostStart c s = .next t → t.status = .err →
    (c.commandOf s.cmd = .decompress ∧ t.errKind = .malformedStream ∧
      (t.errCause = .truncatedHeader ∨ t.errCause = .truncatedToken ∨ t.errCause = .refBeforeStart ∨
        t.errCause = .badTag)) ∨
    ((c.commandOf s.cmd = .decodeTileset ∨ c.commandOf s.cmd = .decodeTilesetOpaque) ∧
      t.errKind = .malformedBuffer ∧ t.errCause = .badLength)

/-- R263: a fault's offset lies in the input or at its end, `ERR_OFFSET ≤ IN_LEN`. -/
def Obligations.FaultOffsetIsWithinTheInput : Prop :=
  ∀ (c : Config) s t, BlockInv c s →
    ((s.start = true ∨ s.status = .busy) ∧ stepWith c s = .next t) ∨ hostStart c s = .next t → t.status = .err →
    t.errOffset.toNat ≤ t.inLen.toNat

/-- There is no return from a fault (R37, R231, R273). With no `START` raised the block stays as it is outside a command, so
`ERR` and the `ERR_*` registers last until the next accepted `START`, which clears them, or until reset, which clears
them too. That an accepted pixel command may at once record its own `BAD_LENGTH` is the model's granularity (log entry
1), with the spec's offset (log entry 20). -/
def Obligations.OutcomeLastsUntilTheNextStart : Prop :=
  (∀ s, s.start = false → s.status ≠ .busy → ∀ k, steps config k s = .next s) ∧
    (∀ (s : State) (i : Instr), s.status ≠ .busy → i.ctx = .command → ∃ t, exec i s = .next t ∧
      ((t.status = .busy ∧ t.errKind = .none ∧ t.errCause = .none ∧ t.errOffset = 0) ∨
        ((i = .decodeTileset ∨ i = .decodeTilesetOpaque) ∧ s.inLen.toNat % 8192 ≠ 0 ∧
          FaultIs t .badLength (s.inLen.toNat / 8192 * 8192)))) ∧
    ∀ s, (hostReset s).status = .idle ∧ (hostReset s).errKind = .none ∧ (hostReset s).errCause = .none ∧
      (hostReset s).errOffset = 0

/-! ### The match index and the search -/

/-- R204: `mlen(p, pos)` is the largest length within the cap at which the bytes agree, running past `pos`. -/
def Obligations.MatchLengthIsTheLongestRun : Prop :=
  ∀ (c : Config) (inp : List Byte) (p pos : Nat), p < pos → pos ≤ inp.length →
    matchLen c inp p pos ≤ min c.maxLen (inp.length - pos) ∧
    (∀ i, i < matchLen c inp p pos → inp[p + i]? = inp[pos + i]?) ∧
    ∀ l, l ≤ min c.maxLen (inp.length - pos) → (∀ i, i < l → inp[p + i]? = inp[pos + i]?) →
      l ≤ matchLen c inp p pos

/-- R205, R206: over a most-recent-first candidate list the search ends with the greatest length and, among the candidates that
reach it, the smallest distance. -/
def Obligations.SearchTakesLongestThenNearest : Prop :=
  ∀ (c : Config) (inp : List Byte) (pos dist0 : Nat) (cands : List Nat),
    cands.Pairwise (fun p q => q < p) → (∀ p ∈ cands, p < pos) →
    (∀ p ∈ cands, matchLen c inp p pos ≤ (searchMatch c inp pos dist0 cands).1) ∧
    (cands = [] → (searchMatch c inp pos dist0 cands).1 = 0) ∧
    (0 < (searchMatch c inp pos dist0 cands).1 → ∃ p ∈ cands,
      matchLen c inp p pos = (searchMatch c inp pos dist0 cands).1 ∧
      (searchMatch c inp pos dist0 cands).2 = pos - p ∧
      ∀ q ∈ cands, matchLen c inp q pos = (searchMatch c inp pos dist0 cands).1 → pos - p ≤ pos - q)

/-- R156: when every position below `q` has been inserted, `candidates(q)` is exactly the earlier positions within the window
with the same key, in decreasing order. -/
def Obligations.CandidatesAreExact : Prop :=
  ∀ (c : Config) (inp : List Byte) (q : Nat),
    candidates c inp (insertRange c inp [] 0 q) q =
      (List.range q).reverse.filter (fun p =>
        decide (q - p ≤ c.window ∧ q + c.keyBytes ≤ inp.length ∧
          (inp.drop p).take c.keyBytes = (inp.drop q).take c.keyBytes))

/-- R157, R208: for any key width of at most 3 the token chosen through the index is the one an exhaustive search over all
distances chooses, so the index and its key width are not observable. -/
def Obligations.IndexChoosesAsExhaustiveSearch : Prop :=
  ∀ (c : Config) (inp : List Byte) (pos : Nat), c.keyBytes ≤ 3 → pos < inp.length →
    tokenBytes c inp pos (searchMatch c inp pos 0 (candidates c inp (insertRange c inp [] 0 pos) pos)) =
      tokenBytes c inp pos (exhaustiveMatch c inp pos (min pos c.window)) ∧
    tokenAdvance (searchMatch c inp pos 0 (candidates c inp (insertRange c inp [] 0 pos) pos)) =
      tokenAdvance (exhaustiveMatch c inp pos (min pos c.window))

/-! ### The encoder's own steps -/

/-- R201: the header, 4 bytes when `1 ≤ n ≤ 2^24 − 1` and 8 bytes otherwise, is written at `OUT` address 0. -/
def Obligations.EncoderWritesTheHeaderFirst : Prop :=
  ∀ s, EncoderRuns s → s.enc.wp = 0 → ∃ t hdr, step s = .next t ∧
    (1 ≤ s.enc.n → s.enc.n ≤ 2 ^ 24 - 1 →
      hdr = [tagByte, BitVec.ofNat 8 s.enc.n, BitVec.ofNat 8 (s.enc.n / 256),
        BitVec.ofNat 8 (s.enc.n / 65536)]) ∧
    (s.enc.n = 0 ∨ 2 ^ 24 ≤ s.enc.n →
      hdr = [tagByte, 0, 0, 0, BitVec.ofNat 8 s.enc.n, BitVec.ofNat 8 (s.enc.n / 256),
        BitVec.ofNat 8 (s.enc.n / 65536), BitVec.ofNat 8 (s.enc.n / 16777216)]) ∧
    (∀ j, j < hdr.length → memRead t.out j = hdr[j]?) ∧ OutSameOutside 0 hdr.length s t ∧
    t.enc = { s.enc with wp := hdr.length } ∧ t.idx = s.idx ∧ OnlyEncoder s t

/-- R213, R214: a full group, or a group begun when the input ends, is flushed: the control byte at `wp`, then the group's
bytes; the group is empty after it. -/
def Obligations.EncoderFlushesTheGroup : Prop :=
  ∀ s, EncoderRuns s → s.enc.wp ≠ 0 → s.enc.grpLen ≤ 32 →
    (s.enc.grpCnt = 8 ∨ (s.enc.pos = s.enc.n ∧ 0 < s.enc.grpCnt)) → ∃ t, step s = .next t ∧
      memRead t.out s.enc.wp = some s.enc.grpCtrl ∧
      (∀ j, j < s.enc.grpLen → memRead t.out (s.enc.wp + 1 + j) = s.enc.grpBuf[j]?) ∧
      OutSameOutside s.enc.wp (1 + s.enc.grpLen) s t ∧
      t.enc =
        { s.enc with wp := s.enc.wp + 1 + s.enc.grpLen, grpCtrl := 0, grpCnt := 0, grpLen := 0 } ∧
      t.idx = s.idx ∧ OnlyEncoder s t

/-- R207, R209 to R212: one token. With a best match of at least 3 the group gets the back-reference's token and control bit
`7 − grp_cnt`, and the scan passes the match; otherwise it gets the literal `IN[pos]` and the scan passes one byte. The
covered positions are inserted. -/
def Obligations.EncoderEmitsOneToken : Prop :=
  ∀ s inp, EncoderRuns s → s.enc.wp ≠ 0 → s.enc.grpCnt < 8 → s.enc.pos < s.enc.n → s.enc.grpLen + 4 ≤ 32 →
    memReadN s.inp 0 s.enc.n = some inp →
    ∃ t best tok, step s = .next t ∧
      best = searchMatch config inp s.enc.pos s.enc.bestDist (candidates config inp s.idx s.enc.pos) ∧
      t.enc.bestLen = best.1 ∧ t.enc.bestDist = best.2 ∧
      (3 ≤ best.1 → tok = tokenEncode best.1 best.2 ∧ t.enc.pos = s.enc.pos + best.1 ∧
        t.enc.grpCtrl = s.enc.grpCtrl ||| BitVec.ofNat 8 (2 ^ (7 - s.enc.grpCnt)) ∧
        t.idx = insertRange config inp s.idx s.enc.pos best.1) ∧
      (best.1 < 3 → some tok = (inp[s.enc.pos]?).map (fun b => [b]) ∧ t.enc.pos = s.enc.pos + 1 ∧
        t.enc.grpCtrl = s.enc.grpCtrl ∧ t.idx = insertPos config inp s.idx s.enc.pos) ∧
      t.enc.grpCnt = s.enc.grpCnt + 1 ∧ t.enc.grpLen = s.enc.grpLen + tok.length ∧
      (∀ j, (j < s.enc.grpLen ∨ s.enc.grpLen + tok.length ≤ j) → t.enc.grpBuf[j]? = s.enc.grpBuf[j]?) ∧
      (∀ j, j < tok.length → t.enc.grpBuf[s.enc.grpLen + j]? = tok[j]?) ∧
      t.enc.wp = s.enc.wp ∧ t.enc.n = s.enc.n ∧ OnlyEncoder s t ∧ SameOut s t

/-- R215: when the input is covered and no group is begun, `OUT_LEN <- wp` and `DONE`; nothing more is written, in `OUT` or in
any other register. -/
def Obligations.EncoderCompletes : Prop :=
  ∀ s, EncoderRuns s → s.enc.wp ≠ 0 → s.enc.wp < 2 ^ 33 → s.enc.pos = s.enc.n → s.enc.grpCnt = 0 →
    ∃ t, step s = .next t ∧ t.status = .done ∧ t.outLen.toNat = s.enc.wp ∧ SameOut s t ∧ SameInput s t ∧
      t.enc = s.enc ∧ t.dec = s.dec ∧ t.pix = s.pix ∧ t.cmd = s.cmd ∧ t.inLen = s.inLen ∧ t.start = s.start ∧
      t.errKind = s.errKind ∧ t.errCause = s.errCause ∧ t.errOffset = s.errOffset

/-! ### The commands as a whole -/

/-- `DECOMPRESS` as a whole (R132, R134, R186), for any lawful parameters (R6, R99): ready on an input and started, the machine
executes the command and reaches the outcome of the whole function: its bytes with `rp` at its cursor, or its fault. -/
def Obligations.DecompressReachesTheWholeFunction : Prop :=
  ∀ c : Config, c.Lawful → ∀ (inp : List Byte) (s : State), Ready c .decompress inp s →
    match decompressFn c inp with
    | .ok r => ∃ t u, exec .decompress s = .next t ∧ hostStart c s = .next t ∧ Reaches c t u ∧
        ResultIs u r.bytes ∧ u.dec.rp = r.rp
    | .error f => ∃ t u, exec .decompress s = .next t ∧ hostStart c s = .next t ∧ Reaches c t u ∧
        FaultIs u f.1 f.2

/-- `COMPRESS` as a whole (R132, R135, R216), for any lawful parameters whose tokens fit the group buffer (R6, R27, R99): ready
on any input and started, the machine reaches `DONE` with the canonical stream. -/
def Obligations.CompressReachesTheWholeFunction : Prop :=
  ∀ c : Config, c.Lawful → c.Buffered → ∀ (inp : List Byte) (s : State), Ready c .compress inp s →
    ∃ t u, exec .compress s = .next t ∧ hostStart c s = .next t ∧ Reaches c t u ∧ ResultIs u (compressFn c inp)

/-- The pixel commands as a whole (R132, R136, R137, R246, R247), for any lawful parameters: the raster of the whole function
and `OUT_LEN = 2 × IN_LEN`, or its fault. -/
def Obligations.PixelCommandsReachTheWholeFunction : Prop :=
  ∀ c : Config, c.Lawful → ∀ (inp : List Byte) (s : State) (honorAlpha : Bool),
    Ready c (if honorAlpha then .decodeTileset else .decodeTilesetOpaque) inp s →
    ∃ t, exec (if honorAlpha then .decodeTileset else .decodeTilesetOpaque) s = .next t ∧ hostStart c s = .next t ∧
      match decodeTilesetFn inp honorAlpha with
      | .ok m => ∃ u, Reaches c t u ∧ u.status = .done ∧ u.outLen.toNat = 2 * inp.length ∧ u.out = m ∧
          u.errKind = .none ∧ u.errCause = .none ∧ u.errOffset = 0
      | .error f => FaultIs t f.1 f.2

/-- R244: de-tiling. At `DONE` the raster pixel `P` is the decoding of the sample that the translator's inverse gives, for every
`P`: each position holds the value placed at that linear position, and no byte below `OUT_LEN` is unwritten. -/
def Obligations.RasterIsTheDetiledImage : Prop :=
  ∀ c : Config, c.Lawful → ∀ (inp : List Byte) (s : State) (honorAlpha : Bool),
    Ready c (if honorAlpha then .decodeTileset else .decodeTilesetOpaque) inp s → inp.length % 8192 = 0 →
    ∃ t u, hostStart c s = .next t ∧ Reaches c t u ∧ u.status = .done ∧ u.outLen.toNat = 2 * inp.length ∧
      ∀ p, p < inp.length / 2 →
        memReadN u.out (4 * p) 4 = some (pixelBytes honorAlpha (sampleAt inp (sampleOfRaster p)))

/-- R139: the pixel commands, started on one input, fault alike or both succeed with equal `OUT_LEN`; then byte 3 of every
opaque pixel is 0xFF, and the pixels of samples with bit 15 set are equal. The runs begin with the states that `START`
answers, so no outcome of an earlier command counts. -/
def Obligations.PixelCommandsDifferOnlyInAlpha : Prop :=
  ∀ c : Config, c.Lawful → ∀ (inp : List Byte) (s2 s3 : State), Ready c .decodeTileset inp s2 →
    Ready c .decodeTilesetOpaque inp s3 →
    ∃ t2 t3 u2 u3, hostStart c s2 = .next t2 ∧ hostStart c s3 = .next t3 ∧ Reaches c t2 u2 ∧ Reaches c t3 u3 ∧
      u2.start = false ∧ u3.start = false ∧
      ((∃ off, FaultIs u2 .badLength off ∧ FaultIs u3 .badLength off ∧ inp.length % 8192 ≠ 0) ∨
        (u2.status = .done ∧ u3.status = .done ∧ u2.outLen = u3.outLen ∧ u2.outLen.toNat = 2 * inp.length ∧
          (∀ p, 4 * p < u3.outLen.toNat → memRead u3.out (4 * p + 3) = some 255) ∧
          ∀ p k, 4 * p < u3.outLen.toNat → k < 4 → 32768 ≤ sampleAt inp (sampleOfRaster p) →
            memRead u2.out (4 * p + k) = memRead u3.out (4 * p + k)))

/-- R138 for the whole functions, over ANY lawful token coding and parameters (R99, D6): decompressing what was compressed
succeeds, gives the input back and consumes the whole stream. -/
def Obligations.DecompressInvertsCompress : Prop :=
  ∀ c : Config, c.Lawful → ∀ b : List Byte, b.length ≤ 2 ^ 32 - 1 →
    decompressFn c (compressFn c b) = .ok { bytes := b, rp := (compressFn c b).length }

/-- R138 for the machine, for any lawful parameters whose tokens fit the group buffer: `COMPRESS` on `b` completes with some
stream, and `DECOMPRESS` started on that stream, in any state, completes with `b` and with `rp = IN_LEN`. -/
def Obligations.MachineRoundTrip : Prop :=
  ∀ c : Config, c.Lawful → c.Buffered → ∀ (b : List Byte) (s : State), Ready c .compress b s →
    ∃ t u stream, hostStart c s = .next t ∧ Reaches c t u ∧ ResultIs u stream ∧
      ∀ s' : State, Ready c .decompress stream s' →
        ∃ t' u', hostStart c s' = .next t' ∧ Reaches c t' u' ∧ ResultIs u' b ∧ u'.dec.rp = s'.inLen.toNat

/-- R141: the size of a compressed stream, for any token coding whose tokens are no longer than what they stand for, as the
default's are. -/
def Obligations.CompressedSizeIsBounded : Prop :=
  ∀ c : Config, c.Compact → ∀ b : List Byte, (compressFn c b).length ≤ 8 + b.length + (b.length + 7) / 8

/-- R132: the outcome of a command is a function of `CMD`, `IN_LEN` and `IN[0 .. IN_LEN − 1]`: two launches that agree on these
end alike, whatever else the two states hold. -/
def Obligations.OutcomeDependsOnTheInputAlone : Prop :=
  ∀ c : Config, c.Lawful → c.Buffered → ∀ (k : Command) (inp : List Byte) (s1 s2 : State),
    Ready c k inp s1 → Ready c k inp s2 →
    ∃ t1 t2 u1 u2, hostStart c s1 = .next t1 ∧ hostStart c s2 = .next t2 ∧ Reaches c t1 u1 ∧ Reaches c t2 u2 ∧
      u1.start = false ∧ u2.start = false ∧ u1.status ≠ .busy ∧ u1.status = u2.status ∧ u1.outLen = u2.outLen ∧
      u1.errKind = u2.errKind ∧ u1.errCause = u2.errCause ∧ u1.errOffset = u2.errOffset ∧
      ∀ a, hostReadOut a u1 = hostReadOut a u2

/-- R133: every command ends, in one of the two ways: from any state that satisfies the invariant with the input written, a
running command, a raised `START` and a `START` of the host's each lead to `DONE` or `ERR`. -/
def Obligations.EveryCommandEnds : Prop :=
  ∀ c : Config, c.Lawful → c.Buffered → ∀ (inp : List Byte) (s : State), BlockInv c s → InputIs s inp →
    ((s.start = true ∨ s.status = .busy) →
      ∃ u, Reaches c s u ∧ u.start = false ∧ (u.status = .done ∨ u.status = .err)) ∧
    ∀ t, hostStart c s = .next t → ∃ u, Reaches c t u ∧ u.start = false ∧ (u.status = .done ∨ u.status = .err)

/-! ### The host's side -/

/-- R21, R306: outside a command the host's writes of `CMD`, `IN_LEN` and `IN` take effect and change nothing else; during a
command they have no meaning and are refused (log entry 13); a write to a read-only register never has an effect. That a
value wider than the register keeps its low bits is the model's choice (log entry 23). -/
def Obligations.HostWritesObeyTheHandshake : Prop :=
  (∀ (c : Config) (s : State), s.status ≠ .busy →
    (∀ v, hostWriteReg c .cmd v s = .next { s with cmd := BitVec.ofNat 2 v.toNat }) ∧
    (∀ v, hostWriteReg c .inLen v s = .next { s with inLen := BitVec.ofNat 32 (v.toNat % 2 ^ c.inLenBits) }) ∧
    (∀ a v, ∃ t, hostWriteIn a v s = .next t ∧ memRead t.inp a.toNat = some v ∧
      (∀ b, b ≠ a.toNat → memRead t.inp b = memRead s.inp b) ∧ t = { s with inp := t.inp })) ∧
  (∀ (c : Config) (s : State), s.status = .busy →
    (∀ v, hostWriteReg c .cmd v s = .refused .hostDuty) ∧ (∀ v, hostWriteReg c .inLen v s = .refused .hostDuty) ∧
    (∀ a v, hostWriteIn a v s = .refused .hostDuty)) ∧
  (∀ (c : Config) (s : State) r v, r ≠ .cmd → r ≠ .inLen → hostWriteReg c r v s = .next s)

/-- R21, R22, R262, R271, R307: what the host reads. A byte of `OUT` only below `OUT_LEN` after `DONE`: none during a command,
none after a fault. A register outside a command has its value, with the spec's codes (log entry 20) for `STATUS`,
`ERR_KIND` and `ERR_CAUSE`; during a command only `STATUS` has a value, and it is `BUSY`. That a read without meaning
gives no value is log entry 21. -/
def Obligations.HostReadsOnlyResults : Prop :=
  (∀ s a, s.status ≠ .done → hostReadOut a s = none) ∧
    (∀ s a, s.outLen.toNat ≤ a → hostReadOut a s = none) ∧
    (∀ s bs a, ResultIs s bs → a < bs.length → hostReadOut a s = bs[a]?) ∧
    (∀ (c : Config) (s : State), s.status ≠ .busy →
      hostReadReg c .cmd s = some s.cmd.toNat ∧ hostReadReg c .inLen s = some s.inLen.toNat ∧
      hostReadReg c .outLen s = some s.outLen.toNat ∧ hostReadReg c .errOffset s = some s.errOffset.toNat ∧
      hostReadReg c .status s = some (c.statusCode s.status).toNat ∧
      hostReadReg c .errKind s = some (c.errKindCode s.errKind).toNat ∧
      hostReadReg c .errCause s = some (c.errCauseCode s.errCause).toNat) ∧
    (∀ s : State, s.status = .busy → hostReadReg config .status s = some 1 ∧
      ∀ c r, r ≠ .status → hostReadReg c r s = none) ∧
    (∀ s : State, s.status ≠ .busy →
      (s.status = .idle → hostReadReg config .status s = some 0) ∧
      (s.status = .done → hostReadReg config .status s = some 2) ∧
      (s.status = .err → hostReadReg config .status s = some 3) ∧
      (s.errKind = .none → hostReadReg config .errKind s = some 0) ∧
      (s.errKind = .malformedStream → hostReadReg config .errKind s = some 1) ∧
      (s.errKind = .malformedBuffer → hostReadReg config .errKind s = some 2) ∧
      (s.errCause = .none → hostReadReg config .errCause s = some 0) ∧
      (s.errCause = .truncatedHeader → hostReadReg config .errCause s = some 1) ∧
      (s.errCause = .truncatedToken → hostReadReg config .errCause s = some 2) ∧
      (s.errCause = .refBeforeStart → hostReadReg config .errCause s = some 3) ∧
      (s.errCause = .badTag → hostReadReg config .errCause s = some 4) ∧
      (s.errCause = .badLength → hostReadReg config .errCause s = some 5))

/-- R23, R130, R309, R316: what `START` answers. With the spec's unbounded `OUT_CAP` it is never refused: outside a command the
block is `BUSY` at once (or `ERR` with `BAD_LENGTH`, log entry 1), during one nothing changes, and nothing is left raised
(log entry 2). A launch is refused exactly when no command runs and the bound of the result exceeds a finite `OUT_CAP`;
and then that bound holds: whatever an admitted launch reaches, `OUT_LEN` is at most `OUT_CAP`, for any lawful parameters
whose tokens fit the group buffer and are no longer than what they stand for. -/
def Obligations.CapacityDecidesTheLaunch : Prop :=
  (∀ s : State, ∃ t, hostStart config s = .next t ∧ t.start = false ∧
      (s.status ≠ .busy → t.status = .busy ∨ FaultIs t .badLength (s.inLen.toNat / 8192 * 8192)) ∧
      (s.status = .busy → t = { s with start := false })) ∧
    (∀ (c : Config) (s : State), hostStart c s = .refused .outCapacity ↔
      s.status ≠ .busy ∧ ∃ cap, c.outCap = some cap ∧ cap < resultBound c s) ∧
    ∀ c : Config, c.Lawful → c.Buffered → c.Compact → ∀ cap k inp (s t u : State), c.outCap = some cap →
      Ready c k inp s → hostStart c s = .next t → Reaches c t u → u.outLen.toNat ≤ cap
end

