-- ==== Sys2Proof/Laws/Decode.lean ====
section
/-! SUPPORT. Lemmas about the byte orders, the decoder and the encoder (spec R9, R63, R64, R106): lengths, the context and size
of what is decoded, and what a `decode` that succeeds says about the instruction. -/

namespace Sys2Proof

/-! ### Byte orders -/

@[simp] theorem leBytes_length (n v : Nat) : (leBytes n v).length = n := by
  induction n generalizing v with
  | zero => rfl
  | succ n ih => simp [leBytes, ih]

@[simp] theorem beBytes_length (n v : Nat) : (beBytes n v).length = n := by simp [beBytes]

theorem leNat_lt (bs : List Byte) : leNat bs < 256 ^ bs.length := by
  induction bs with
  | nil => simp [leNat]
  | cons b bs ih =>
    have := b.isLt
    simp only [leNat, List.length_cons, Nat.pow_succ]
    omega

theorem leNat_leBytes (n v : Nat) : leNat (leBytes n v) = v % 256 ^ n := by
  induction n generalizing v with
  | zero => simp [leNat, leBytes, Nat.mod_one]
  | succ n ih =>
    simp only [leBytes, leNat, ih, BitVec.toNat_ofNat]
    rw [show (256 : Nat) ^ (n + 1) = 256 * 256 ^ n by ring, Nat.mod_mul]

theorem beNatAcc_eq (acc : Nat) (bs : List Byte) : beNatAcc acc bs = acc * 256 ^ bs.length + leNat bs.reverse := by
  induction bs generalizing acc with
  | nil => simp [beNatAcc, leNat]
  | cons b bs ih =>
    have hle : ∀ xs : List Byte, leNat (xs ++ [b]) = leNat xs + b.toNat * 256 ^ xs.length := by
      intro xs
      induction xs with
      | nil => simp [leNat]
      | cons x xs ihx => simp only [List.cons_append, leNat, ihx, List.length_cons, Nat.pow_succ]; ring
    simp only [beNatAcc, ih, List.reverse_cons, hle, List.length_reverse, List.length_cons, Nat.pow_succ]
    ring

/-- Big-endian is little-endian of the reversed bytes. -/
theorem beNat_eq_leNat_reverse (bs : List Byte) : beNat bs = leNat bs.reverse := by
  simp [beNat, beNatAcc_eq]

theorem beNat_beBytes (n v : Nat) : beNat (beBytes n v) = v % 256 ^ n := by
  simp [beNat_eq_leNat_reverse, beBytes, leNat_leBytes]

theorem beNat_lt (bs : List Byte) : beNat bs < 256 ^ bs.length := by
  have := leNat_lt bs.reverse
  simpa [beNat_eq_leNat_reverse] using this

/-! ### Lengths -/

/-- How many bytes each row of the opcode table has. -/
def Instr.byteLen (i : Instr) : Nat :=
  match i with
  | .hdr _ => 4
  | .hdrx _ => 8
  | .ctl _ => 1
  | .lit _ => 1
  | .ref2 _ _ => 2
  | .ref3 _ _ => 3
  | .ref4 _ _ => 4
  | .pixA3rgb4 _ _ _ _ => 2
  | .pixRgb5 _ _ _ => 2
  | .rasterPixel _ _ _ _ => 4
  | .decompress => 1
  | .compress => 1
  | .decodeTileset => 1
  | .decodeTilesetOpaque => 1

@[simp] theorem encode_length (i : Instr) : (encode i).length = i.byteLen := by
  cases i <;> simp [encode, commandByte, Instr.byteLen]

@[simp] theorem commandInstr_ctx (k : Machine.Command) : (commandInstr k).ctx = .command := by cases k <;> rfl

@[simp] theorem commandInstr_byteLen (k : Machine.Command) : (commandInstr k).byteLen = 1 := by cases k <;> rfl

@[simp] theorem sampleOfWord_ctx (d : Nat) : (sampleOfWord d).ctx = .sample := by
  unfold sampleOfWord; split <;> rfl

@[simp] theorem sampleOfWord_byteLen (d : Nat) : (sampleOfWord d).byteLen = 2 := by
  unfold sampleOfWord; split <;> rfl

/-- What a header decodes to, for any tag: one of the two header forms, of the size of its row. -/
theorem decodeHeader_ok {tag : Byte} {bs rest : List Byte} {i : Instr} (h : decodeHeader tag bs = .ok i rest) :
    i.ctx = .header ∧ bs.length = i.byteLen + rest.length := by
  simp only [decodeHeader] at h
  split at h
  · split at h
    · cases h
    · split at h
      · cases h; simp [Instr.ctx, Instr.byteLen]; omega
      · split at h
        · cases h; simp [Instr.ctx, Instr.byteLen]; omega
        · cases h
  · cases h

/-- What is decoded at a position is an instruction of that position, and its bytes are the first ones. -/
theorem decode_ok_size {c : Ctx} {bs rest : List Byte} {i : Instr} (h : decode c bs = .ok i rest) :
    i.ctx = c ∧ bs.length = i.byteLen + rest.length := by
  cases c with
  | header => exact decodeHeader_ok h
  | control =>
    cases bs with
    | nil => simp [decode, decodeControl] at h
    | cons b bs => simp only [decode, decodeControl] at h; cases h; simp [Instr.ctx, Instr.byteLen]; omega
  | literal =>
    cases bs with
    | nil => simp [decode, decodeLiteral] at h
    | cons b bs => simp only [decode, decodeLiteral] at h; cases h; simp [Instr.ctx, Instr.byteLen]; omega
  | reference =>
    cases bs with
    | nil => simp [decode, decodeReference] at h
    | cons b bs =>
      simp only [decode, decodeReference] at h
      split at h
      · split at h
        · cases h; simp [Instr.ctx, Instr.byteLen, ref3OfWord]; omega
        · cases h
      · split at h
        · split at h
          · cases h; simp [Instr.ctx, Instr.byteLen, ref4OfWord]; omega
          · cases h
        · split at h
          · cases h; simp [Instr.ctx, Instr.byteLen, ref2OfWord]; omega
          · cases h
  | sample =>
    simp only [decode, decodeSample] at h
    split at h
    · cases h; simp; omega
    · cases h
  | raster =>
    simp only [decode, decodeRaster] at h
    split at h
    · cases h; simp [Instr.ctx, Instr.byteLen]; omega
    · cases h
  | command =>
    cases bs with
    | nil => simp [decode, decodeCommand] at h
    | cons b bs =>
      simp only [decode, decodeCommand, decodeCmd] at h
      split at h
      · cases h; simp; omega
      · cases h

end Sys2Proof
end

