-- ==== Sys2Proof/Laws/Memory.lean ====
section
/-! SUPPORT. The laws of the canonical maps and of the byte memories (spec R9, R60, R71, R75): read after write, the frame
of a write, the canonical form, and memories filled from address 0. -/

namespace Sys2Proof.Machine

variable {α : Type}

/-! ### Maps -/

theorem mapGet_mapSet_same (m : List (Nat × α)) (a : Nat) (v : α) : mapGet (mapSet m a v) a = some v := by
  induction m with
  | nil => simp [mapSet, mapGet]
  | cons p m ih =>
    obtain ⟨k, w⟩ := p
    simp only [mapSet]
    split
    · simp [mapGet]
    · split
      · simp [mapGet]
      · simp [mapGet, *]

theorem mapGet_mapSet_other (m : List (Nat × α)) {a b : Nat} (v : α) (h : b ≠ a) :
    mapGet (mapSet m a v) b = mapGet m b := by
  induction m with
  | nil => simp [mapSet, mapGet, h]
  | cons p m ih =>
    obtain ⟨k, w⟩ := p
    simp only [mapSet]
    split
    · simp [mapGet, h]
    · split
      · rename_i h1 h2
        subst h2
        simp [mapGet, h]
      · simp [mapGet, ih]

theorem mapGet_mapSet (m : List (Nat × α)) (a b : Nat) (v : α) :
    mapGet (mapSet m a v) b = if b = a then some v else mapGet m b := by
  split
  · rename_i h; subst h; exact mapGet_mapSet_same m _ v
  · rename_i h; exact mapGet_mapSet_other m v h

theorem mapWf_cons {a : Nat} {v : α} {m : List (Nat × α)} :
    mapWf ((a, v) :: m) = true ↔ mapWf m = true ∧ ∀ p, m.head? = some p → a < p.1 := by
  cases m with
  | nil => simp [mapWf]
  | cons p m => obtain ⟨b, w⟩ := p; simp [mapWf, and_comm]

theorem mapSet_head {m : List (Nat × α)} {a : Nat} {v : α} {p : Nat × α}
    (h : (mapSet m a v).head? = some p) : p.1 = a ∨ m.head? = some p := by
  cases m with
  | nil => simp [mapSet] at h; simp [← h]
  | cons q m =>
    obtain ⟨k, w⟩ := q
    simp only [mapSet] at h
    split at h
    · simp at h; simp [← h]
    · split at h
      · simp at h; simp [← h]
      · simp at h; simp [h]

/-- A write keeps the canonical form. -/
theorem mapWf_mapSet {m : List (Nat × α)} (h : mapWf m = true) (a : Nat) (v : α) :
    mapWf (mapSet m a v) = true := by
  induction m with
  | nil => simp [mapSet, mapWf]
  | cons p m ih =>
    obtain ⟨k, w⟩ := p
    have hc := mapWf_cons.1 h
    simp only [mapSet]
    split
    · rename_i hlt
      rw [mapWf_cons]
      refine ⟨h, fun p hp => ?_⟩
      obtain rfl : (k, w) = p := by simpa using hp
      exact hlt
    · split
      · rename_i h1 h2; subst h2; exact mapWf_cons.2 hc
      · rw [mapWf_cons]
        refine ⟨ih hc.1, fun p hp => ?_⟩
        rcases mapSet_head hp with hp | hp
        · omega
        · exact hc.2 p hp

/-- In canonical form two maps that read alike are equal. -/
theorem mapGet_eq_none_of_lt {m : List (Nat × α)} {a b : Nat} {v : α} (h : mapWf ((a, v) :: m) = true) (hb : b ≤ a) :
    mapGet m b = none := by
  induction m generalizing a v with
  | nil => rfl
  | cons p m ih =>
    obtain ⟨k, w⟩ := p
    have hc := mapWf_cons.1 h
    have hk : a < k := hc.2 (k, w) rfl
    have hne : b ≠ k := by omega
    simp only [mapGet, hne, if_false]
    exact ih hc.1 (by omega)

/-! ### One byte -/

@[simp] theorem memRead_memWrite_same (m : Memory) (a : Nat) (v : Byte) : memRead (memWrite m a v) a = some v :=
  mapGet_mapSet_same m a v

theorem memRead_memWrite_other (m : Memory) {a b : Nat} (v : Byte) (h : b ≠ a) :
    memRead (memWrite m a v) b = memRead m b :=
  mapGet_mapSet_other m v h

theorem memRead_memWrite (m : Memory) (a b : Nat) (v : Byte) :
    memRead (memWrite m a v) b = if b = a then some v else memRead m b :=
  mapGet_mapSet m a b v

theorem memWf_memWrite {m : Memory} (h : memWf m = true) (a : Nat) (v : Byte) : memWf (memWrite m a v) = true :=
  mapWf_mapSet h a v

@[simp] theorem memRead_nil (a : Nat) : memRead [] a = none := rfl

/-! ### Several bytes -/

/-- A read of several bytes after a write of several bytes, byte by byte. -/
theorem memRead_memWriteN (m : Memory) (a b : Nat) (bs : List Byte) :
    memRead (memWriteN m a bs) b =
      if a ≤ b ∧ b < a + bs.length then bs[b - a]? else memRead m b := by
  induction bs generalizing m a with
  | nil => simp [memWriteN, show ¬(a ≤ b ∧ b < a) by omega]
  | cons v bs ih =>
    simp only [memWriteN, ih, memRead_memWrite, List.length_cons]
    by_cases h1 : b = a
    · subst h1; simp
    · by_cases h2 : a + 1 ≤ b ∧ b < a + 1 + bs.length
      · have h3 : a ≤ b ∧ b < a + (bs.length + 1) := by omega
        obtain ⟨j, rfl⟩ : ∃ j, b = a + 1 + j := ⟨b - (a + 1), by omega⟩
        simp only [h2, h3, and_self, if_true]
        rw [show a + 1 + j - (a + 1) = j by omega, show a + 1 + j - a = j + 1 by omega]
        simp
      · have h3 : ¬(a ≤ b ∧ b < a + (bs.length + 1)) := by omega
        rw [if_neg h2, if_neg h3, if_neg h1]

theorem memWf_memWriteN {m : Memory} (h : memWf m = true) (a : Nat) (bs : List Byte) :
    memWf (memWriteN m a bs) = true := by
  induction bs generalizing m a with
  | nil => exact h
  | cons v bs ih => exact ih (memWf_memWrite h a v) (a + 1)

theorem memWriteN_append (m : Memory) (a : Nat) (bs cs : List Byte) :
    memWriteN m a (bs ++ cs) = memWriteN (memWriteN m a bs) (a + bs.length) cs := by
  induction bs generalizing m a with
  | nil => simp [memWriteN]
  | cons v bs ih => simp [memWriteN, ih, show a + 1 + bs.length = a + (bs.length + 1) by omega]

theorem memReadN_length {m : Memory} {a n : Nat} {bs : List Byte} (h : memReadN m a n = some bs) :
    bs.length = n := by
  induction m generalizing a n bs with
  | nil =>
    cases n with
    | zero => simp [memReadN] at h; simp [← h]
    | succ n => simp [memReadN] at h
  | cons p m ih =>
    obtain ⟨k, v⟩ := p
    cases n with
    | zero => simp [memReadN] at h; simp [← h]
    | succ n =>
      simp only [memReadN] at h
      split at h
      · exact ih h
      · split at h
        · simp only [Option.map_eq_some_iff] at h
          obtain ⟨cs, hcs, rfl⟩ := h
          simp [ih hcs]
        · cases h

/-- What a read of several bytes says about each of them. -/
theorem memRead_of_memReadN {m : Memory} {a n : Nat} {bs : List Byte} (h : memReadN m a n = some bs) {i : Nat}
    (hi : i < n) : memRead m (a + i) = bs[i]? := by
  induction m generalizing a n bs i with
  | nil =>
    cases n with
    | zero => omega
    | succ n => simp [memReadN] at h
  | cons p m ih =>
    obtain ⟨k, v⟩ := p
    cases n with
    | zero => omega
    | succ n =>
      simp only [memReadN] at h
      split at h
      · have := ih h hi
        simp only [memRead, mapGet] at this ⊢
        rw [if_neg (by omega), this]
      · split at h
        · rename_i hk
          subst hk
          simp only [Option.map_eq_some_iff] at h
          obtain ⟨cs, hcs, rfl⟩ := h
          cases i with
          | zero => simp [memRead, mapGet]
          | succ i =>
            have := ih hcs (i := i) (by omega)
            simp only [memRead, mapGet] at this ⊢
            rw [if_neg (by omega), List.getElem?_cons_succ, ← this]
            congr 1
            omega
        · cases h

/-- In canonical form a range whose bytes all hold values can be read. -/
theorem memReadN_of_memRead {m : Memory} (hm : memWf m = true) {a : Nat} {bs : List Byte}
    (h : ∀ i, i < bs.length → memRead m (a + i) = bs[i]?) : memReadN m a bs.length = some bs := by
  induction m generalizing a bs with
  | nil =>
    cases bs with
    | nil => rfl
    | cons b bs => simpa using h 0 (by simp)
  | cons p m ih =>
    obtain ⟨k, v⟩ := p
    have hc := mapWf_cons.1 hm
    cases bs with
    | nil => simp [memReadN]
    | cons b bs =>
      simp only [List.length_cons, memReadN]
      split
      · rename_i hk
        apply ih hc.1 (bs := b :: bs)
        intro i hi
        have := h i hi
        simp only [memRead, mapGet] at this ⊢
        rwa [if_neg (by omega)] at this
      · rename_i hk
        have h0 := h 0 (by simp)
        simp only [memRead, mapGet, Nat.add_zero, List.getElem?_cons_zero] at h0
        split at h0
        · rename_i hak
          subst hak
          cases h0
          simp only [if_true]
          rw [ih hc.1 (bs := bs)]
          · rfl
          · intro i hi
            have := h (i + 1) (by simpa using hi)
            simp only [memRead, mapGet, List.getElem?_cons_succ] at this ⊢
            rw [if_neg (by omega)] at this
            rw [← this]
            congr 1
            omega
        · rw [mapGet_eq_none_of_lt hm (by omega)] at h0
          cases h0

/-- A part of a range that was read. -/
theorem memReadN_sub {m : Memory} {a n : Nat} {bs : List Byte} (h : memReadN m a n = some bs) {i k : Nat}
    (hik : i + k ≤ n) : memReadN m (a + i) k = some ((bs.drop i).take k) := by
  induction m generalizing a n bs i k with
  | nil =>
    cases n with
    | zero =>
      obtain rfl : k = 0 := by omega
      simp [memReadN]
    | succ n => simp [memReadN] at h
  | cons p m ih =>
    obtain ⟨c, v⟩ := p
    cases k with
    | zero => simp [memReadN]
    | succ k =>
      cases n with
      | zero => omega
      | succ n =>
        simp only [memReadN] at h ⊢
        split at h
        · rw [if_pos (by omega)]; exact ih h hik
        · split at h
          · rename_i hk
            subst hk
            simp only [Option.map_eq_some_iff] at h
            obtain ⟨cs, hcs, rfl⟩ := h
            cases i with
            | zero =>
              have := ih hcs (i := 0) (k := k) (by omega)
              simp only [Nat.add_zero, List.drop_zero] at this ⊢
              simp [this]
            | succ i =>
              rw [if_pos (by omega)]
              have := ih hcs (i := i) (k := k + 1) (by omega)
              rw [show c + 1 + i = c + (i + 1) by omega] at this
              rw [this]
              simp
          · cases h

/-! ### Memories filled from address 0 -/

/-- Writing at the end of a filled memory appends. -/
theorem memWrite_filled {m : Memory} {n : Nat} (h : m.map Prod.fst = List.range n) (v : Byte) :
    memWrite m n v = m ++ [(n, v)] := by
  have hlt : ∀ p ∈ m, p.1 < n := by
    intro p hp
    have : p.1 ∈ m.map Prod.fst := List.mem_map_of_mem hp
    rw [h] at this
    simpa using this
  clear h
  induction m with
  | nil => rfl
  | cons p m ih =>
    obtain ⟨k, w⟩ := p
    have hk : k < n := hlt (k, w) (by simp)
    have := ih (fun q hq => hlt q (by simp [hq]))
    simp only [memWrite] at this
    simp only [memWrite, mapSet, List.cons_append]
    rw [if_neg (by omega), if_neg (by omega), this]

theorem filled_memWrite {m : Memory} {n : Nat} (h : m.map Prod.fst = List.range n) (v : Byte) :
    (memWrite m n v).map Prod.fst = List.range (n + 1) := by
  rw [memWrite_filled h]
  simp [h, List.range_succ]

theorem filled_memWriteN {m : Memory} {n : Nat} (h : m.map Prod.fst = List.range n) (bs : List Byte) :
    (memWriteN m n bs).map Prod.fst = List.range (n + bs.length) := by
  induction bs generalizing m n with
  | nil => simpa [memWriteN] using h
  | cons v bs ih =>
    simp only [memWriteN, List.length_cons]
    rw [ih (filled_memWrite h v)]
    congr 1
    omega

theorem mapGet_isSome_iff {m : List (Nat × α)} {a : Nat} : (mapGet m a).isSome ↔ a ∈ m.map Prod.fst := by
  induction m with
  | nil => simp [mapGet]
  | cons p m ih =>
    obtain ⟨k, w⟩ := p
    simp only [mapGet]
    split
    · simp [*]
    · simp [*]

/-- A filled memory holds a value exactly below its length. -/
theorem filled_isSome {m : Memory} {n : Nat} (h : m.map Prod.fst = List.range n) (a : Nat) :
    (memRead m a).isSome ↔ a < n := by
  rw [memRead, mapGet_isSome_iff, h]
  simp

/-! ### The match index as a map -/

theorem idxGet_idxPush (idx : MatchIndex) (key p k : Nat) :
    idxGet (idxPush idx key p) k = if k = key then p :: idxGet idx key else idxGet idx k := by
  simp only [idxGet, idxPush, mapGet_mapSet]
  split <;> simp

theorem idxWf_idxPush {idx : MatchIndex} (h : idxWf idx = true) (key p : Nat) :
    idxWf (idxPush idx key p) = true :=
  mapWf_mapSet h key _

@[simp] theorem idxGet_nil (k : Nat) : idxGet [] k = [] := rfl

end Sys2Proof.Machine
end

