-- ==== Sys2Proof/Laws/Encoder.lean ====
section
/-! SUPPORT. Lemmas about the match index and the token choice of the encoder (spec R152, R153, R204 to R206, R211): what an
insertion keeps, and the bounds of a search and of a token. -/

namespace Sys2Proof.Machine

/-! ### The match index -/

theorem idxWf_insertPos (c : Config) (inp : List Byte) {idx : MatchIndex} (h : idxWf idx = true) (p : Nat) :
    idxWf (insertPos c inp idx p) = true := by
  unfold insertPos
  split
  · exact idxWf_idxPush h _ _
  · exact h

theorem idxWf_insertRange (c : Config) (inp : List Byte) {idx : MatchIndex} (h : idxWf idx = true) (p n : Nat) :
    idxWf (insertRange c inp idx p n) = true := by
  induction n generalizing idx p with
  | zero => exact h
  | succ n ih => exact ih (idxWf_insertPos c inp h p) (p + 1)

/-- Insertion keeps every recorded position below the insertion point, and every list most recent first. -/
theorem insertPos_ordered (c : Config) (inp : List Byte) {idx : MatchIndex} {p : Nat}
    (hlt : ∀ k q, q ∈ idxGet idx k → q < p) (hrec : ∀ k, (idxGet idx k).Pairwise (fun x y => y < x)) :
    (∀ k q, q ∈ idxGet (insertPos c inp idx p) k → q < p + 1) ∧
      ∀ k, (idxGet (insertPos c inp idx p) k).Pairwise (fun x y => y < x) := by
  unfold insertPos
  split
  · constructor
    · intro k q hq
      rw [idxGet_idxPush] at hq
      split at hq
      · rcases List.mem_cons.1 hq with rfl | hq
        · omega
        · have := hlt _ _ hq; omega
      · have := hlt _ _ hq; omega
    · intro k
      rw [idxGet_idxPush]
      split
      · exact List.pairwise_cons.2 ⟨fun q hq => hlt _ _ hq, hrec _⟩
      · exact hrec _
  · exact ⟨fun k q hq => Nat.lt_succ_of_lt (hlt k q hq), hrec⟩

theorem insertRange_ordered (c : Config) (inp : List Byte) {idx : MatchIndex} {p : Nat} (n : Nat)
    (hlt : ∀ k q, q ∈ idxGet idx k → q < p) (hrec : ∀ k, (idxGet idx k).Pairwise (fun x y => y < x)) :
    (∀ k q, q ∈ idxGet (insertRange c inp idx p n) k → q < p + n) ∧
      ∀ k, (idxGet (insertRange c inp idx p n) k).Pairwise (fun x y => y < x) := by
  induction n generalizing idx p with
  | zero => exact ⟨hlt, hrec⟩
  | succ n ih =>
    obtain ⟨h1, h2⟩ := insertPos_ordered c inp hlt hrec
    rw [show p + (n + 1) = p + 1 + n by omega]
    exact ih h1 h2

/-- A candidate lies within the window. -/
theorem candidates_window {c : Config} {inp : List Byte} {idx : MatchIndex} {q p : Nat}
    (h : p ∈ candidates c inp idx q) : 1 ≤ q - p ∧ q - p ≤ c.window := by
  unfold candidates at h
  split at h
  · exact of_decide_eq_true (List.mem_filter.1 h).2
  · cases h

/-! ### The search -/

theorem commonPrefix_le (cap : Nat) (xs ys : List Byte) :
    commonPrefix cap xs ys ≤ cap ∧ commonPrefix cap xs ys ≤ ys.length := by
  induction cap generalizing xs ys with
  | zero => simp [commonPrefix]
  | succ n ih =>
    cases xs with
    | nil => simp [commonPrefix]
    | cons x xs =>
      cases ys with
      | nil => simp [commonPrefix]
      | cons y ys =>
        have := ih xs ys
        simp only [commonPrefix, List.length_cons]
        split <;> omega

/-- A property that every candidate's own match has, and that the start has, is had by the result. -/
theorem searchMatch_induct {c : Config} {inp : List Byte} {pos dist0 : Nat} {cands : List Nat} (P : Nat × Nat → Prop)
    (h0 : P (0, dist0)) (hp : ∀ p ∈ cands, P (matchLen c inp p pos, pos - p)) : P (searchMatch c inp pos dist0 cands) := by
  unfold searchMatch
  generalize (0, dist0) = b at h0
  induction cands generalizing b with
  | nil => exact h0
  | cons p ps ih =>
    rw [List.foldl_cons]
    refine ih (fun q hq => hp q (List.mem_cons_of_mem _ hq)) _ ?_
    unfold betterMatch
    split
    · exact hp p (List.mem_cons_self ..)
    · exact h0

/-- The best length is capped, and the best distance of a match lies within the window. -/
theorem searchMatch_bounds (c : Config) (inp : List Byte) (pos dist0 : Nat) {cands : List Nat}
    (hc : ∀ p ∈ cands, 1 ≤ pos - p ∧ pos - p ≤ c.window) :
    (searchMatch c inp pos dist0 cands).1 ≤ min c.maxLen (inp.length - pos) ∧
      (0 < (searchMatch c inp pos dist0 cands).1 →
        1 ≤ (searchMatch c inp pos dist0 cands).2 ∧ (searchMatch c inp pos dist0 cands).2 ≤ c.window) :=
  searchMatch_induct (fun b => b.1 ≤ min c.maxLen (inp.length - pos) ∧ (0 < b.1 → 1 ≤ b.2 ∧ b.2 ≤ c.window))
    (by simp) fun p hp => ⟨(commonPrefix_le _ _ _).1, fun _ => hc p hp⟩

/-! ### Tokens -/

/-- Under a lawful coding that fits the group buffer no token of a legal best match is longer than 4 bytes. -/
theorem tokenBytes_length_le {c : Config} (hc : c.Lawful) (hb : c.Buffered) (inp : List Byte) (pos : Nat) {best : Nat × Nat}
    (hl : best.1 ≤ c.maxLen) (hd : 0 < best.1 → 1 ≤ best.2 ∧ best.2 ≤ c.window) :
    (tokenBytes c inp pos best).length ≤ 4 := by
  unfold tokenBytes
  split
  · rename_i h
    have h3 : 3 ≤ best.1 := h
    obtain ⟨b, rest, -, hs⟩ := hc.size_encode best.1 best.2 ⟨h3, hl, hd (by omega)⟩
    rw [← hs]
    exact hb _
  · exact (List.length_take_le ..).trans (by decide)

/-- Marking token `cnt` leaves the control bits after it 0. -/
theorem markToken_unused (isRef : Bool) {cnt : Nat} (hc : cnt < 8) {x : BitVec 8}
    (h : ∀ j, j < 8 - cnt → x.getLsbD j = false) {j : Nat} (hj : j < 8 - (cnt + 1)) :
    (markToken isRef cnt x).getLsbD j = false := by
  unfold markToken
  split
  · have key : ∀ cnt : Fin 8, ∀ j : Fin 8, j.val < 8 - (cnt.val + 1) →
        ((0x80 : BitVec 8) >>> cnt.val).getLsbD j.val = false := by decide
    rw [BitVec.getLsbD_or, h j (by omega)]
    simpa using key ⟨cnt, hc⟩ ⟨j, by omega⟩ hj
  · exact h j (by omega)

/-- A token that fits is in the group buffer after it is written, and the other bytes stay. -/
theorem writeGroup_get (buf : Vector Byte 32) (at_ : Nat) (bs : List Byte) (h : at_ + bs.length ≤ 32) (j : Nat) :
    (writeGroup buf at_ bs)[j]? = if at_ ≤ j ∧ j < at_ + bs.length then bs[j - at_]? else buf[j]? := by
  induction bs generalizing buf at_ with
  | nil =>
    simp only [writeGroup, List.length_nil, Nat.add_zero]
    rw [if_neg (by omega)]
  | cons b bs ih =>
    simp only [List.length_cons] at h
    simp only [writeGroup, List.length_cons]
    rw [ih _ _ (by omega)]
    by_cases h1 : j = at_
    · subst h1
      rw [if_neg (by omega), if_pos (by omega), Vector.getElem?_setIfInBounds_self_of_lt (by omega)]
      simp
    · by_cases h2 : at_ + 1 ≤ j ∧ j < at_ + 1 + bs.length
      · rw [if_pos h2, if_pos (by omega), show j - at_ = (j - (at_ + 1)) + 1 by omega, List.getElem?_cons_succ]
      · rw [if_neg h2, if_neg (by omega), Vector.getElem?_setIfInBounds_ne (by omega)]

end Sys2Proof.Machine
end

