-- ==== Sys2Proof/Laws/PerInstr.lean ====
section
/-! SUPPORT. The family `EncodedSize`: every row of the opcode table has an encoding of its row's width, which is the fewest
bytes its position fetches (`Ctx.firstBytes`) or more (spec R91 to R113, R123). -/

namespace Sys2Proof.Laws.EncodedSize

/-- The encoding has the width of the instruction's row, 1 to 8 bytes, and at least the bytes that are fetched first. -/
def Statement (i : Instr) : Prop :=
  (encode i).length = i.byteLen ∧ 1 ≤ i.byteLen ∧ i.byteLen ≤ 8 ∧ i.ctx.firstBytes ≤ i.byteLen

theorem hdr (len24 : BitVec 24) : Statement (.hdr len24) := by simp [Statement, Instr.byteLen, Instr.ctx, Ctx.firstBytes]

theorem hdrx (len32 : BitVec 32) : Statement (.hdrx len32) := by simp [Statement, Instr.byteLen, Instr.ctx, Ctx.firstBytes]

theorem ctl (flags : BitVec 8) : Statement (.ctl flags) := by simp [Statement, Instr.byteLen, Instr.ctx, Ctx.firstBytes]

theorem lit (value : BitVec 8) : Statement (.lit value) := by simp [Statement, Instr.byteLen, Instr.ctx, Ctx.firstBytes]

theorem ref2 (n : BitVec 4) (disp : BitVec 12) : Statement (.ref2 n disp) :=
  by simp [Statement, Instr.byteLen, Instr.ctx, Ctx.firstBytes]

theorem ref3 (lenf : BitVec 8) (disp : BitVec 12) : Statement (.ref3 lenf disp) :=
  by simp [Statement, Instr.byteLen, Instr.ctx, Ctx.firstBytes]

theorem ref4 (lenf : BitVec 16) (disp : BitVec 12) : Statement (.ref4 lenf disp) :=
  by simp [Statement, Instr.byteLen, Instr.ctx, Ctx.firstBytes]

theorem pixA3rgb4 (a3 : BitVec 3) (r4 g4 b4 : BitVec 4) : Statement (.pixA3rgb4 a3 r4 g4 b4) :=
  by simp [Statement, Instr.byteLen, Instr.ctx, Ctx.firstBytes]

theorem pixRgb5 (r5 g5 b5 : BitVec 5) : Statement (.pixRgb5 r5 g5 b5) :=
  by simp [Statement, Instr.byteLen, Instr.ctx, Ctx.firstBytes]

theorem rasterPixel (blue green red alpha : BitVec 8) : Statement (.rasterPixel blue green red alpha) :=
  by simp [Statement, Instr.byteLen, Instr.ctx, Ctx.firstBytes]

theorem decompress : Statement .decompress := by simp [Statement, Instr.byteLen, Instr.ctx, Ctx.firstBytes]

theorem compress : Statement .compress := by simp [Statement, Instr.byteLen, Instr.ctx, Ctx.firstBytes]

theorem decodeTileset : Statement .decodeTileset := by simp [Statement, Instr.byteLen, Instr.ctx, Ctx.firstBytes]

theorem decodeTilesetOpaque : Statement .decodeTilesetOpaque := by simp [Statement, Instr.byteLen, Instr.ctx, Ctx.firstBytes]

end Sys2Proof.Laws.EncodedSize
end

