-- ==== Sys2Proof/Laws/State.lean ====
section
/-! SUPPORT. One lemma per field per update of State, true by rfl, so that no later proof unfolds a record update. The updates
are the named ones of the shared operations and of the meanings. -/

namespace Sys2Proof.Machine

/-! ### `raise` -/

@[simp] theorem raise_cmd (c : ErrCause) (o : Nat) (s : State) : (raise c o s).cmd = s.cmd := rfl
@[simp] theorem raise_inLen (c : ErrCause) (o : Nat) (s : State) : (raise c o s).inLen = s.inLen := rfl
@[simp] theorem raise_outLen (c : ErrCause) (o : Nat) (s : State) : (raise c o s).outLen = 0 := rfl
@[simp] theorem raise_status (c : ErrCause) (o : Nat) (s : State) : (raise c o s).status = .err := rfl
@[simp] theorem raise_errKind (c : ErrCause) (o : Nat) (s : State) : (raise c o s).errKind = kindOfCause c := rfl
@[simp] theorem raise_errCause (c : ErrCause) (o : Nat) (s : State) : (raise c o s).errCause = c := rfl
@[simp] theorem raise_errOffset (c : ErrCause) (o : Nat) (s : State) :
    (raise c o s).errOffset = BitVec.ofNat 32 o := rfl
@[simp] theorem raise_start (c : ErrCause) (o : Nat) (s : State) : (raise c o s).start = s.start := rfl
@[simp] theorem raise_inp (c : ErrCause) (o : Nat) (s : State) : (raise c o s).inp = s.inp := rfl
@[simp] theorem raise_out (c : ErrCause) (o : Nat) (s : State) : (raise c o s).out = [] := rfl
@[simp] theorem raise_idx (c : ErrCause) (o : Nat) (s : State) : (raise c o s).idx = s.idx := rfl
@[simp] theorem raise_dec (c : ErrCause) (o : Nat) (s : State) :
    (raise c o s).dec = { s.dec with dstate := .ended } := rfl
@[simp] theorem raise_enc (c : ErrCause) (o : Nat) (s : State) : (raise c o s).enc = s.enc := rfl
@[simp] theorem raise_pix (c : ErrCause) (o : Nat) (s : State) : (raise c o s).pix = s.pix := rfl

/-! ### `commandStart` -/

@[simp] theorem commandStart_cmd (s : State) : (commandStart s).cmd = s.cmd := rfl
@[simp] theorem commandStart_inLen (s : State) : (commandStart s).inLen = s.inLen := rfl
@[simp] theorem commandStart_outLen (s : State) : (commandStart s).outLen = 0 := rfl
@[simp] theorem commandStart_status (s : State) : (commandStart s).status = .busy := rfl
@[simp] theorem commandStart_errKind (s : State) : (commandStart s).errKind = .none := rfl
@[simp] theorem commandStart_errCause (s : State) : (commandStart s).errCause = .none := rfl
@[simp] theorem commandStart_errOffset (s : State) : (commandStart s).errOffset = 0 := rfl
@[simp] theorem commandStart_start (s : State) : (commandStart s).start = false := rfl
@[simp] theorem commandStart_inp (s : State) : (commandStart s).inp = s.inp := rfl
@[simp] theorem commandStart_out (s : State) : (commandStart s).out = [] := rfl
@[simp] theorem commandStart_idx (s : State) : (commandStart s).idx = s.idx := rfl
@[simp] theorem commandStart_dec (s : State) : (commandStart s).dec = s.dec := rfl
@[simp] theorem commandStart_enc (s : State) : (commandStart s).enc = s.enc := rfl
@[simp] theorem commandStart_pix (s : State) : (commandStart s).pix = s.pix := rfl

/-! ### `complete` -/

@[simp] theorem complete_cmd (c : Config) (n : Nat) (s : State) : (complete c n s).cmd = s.cmd := rfl
@[simp] theorem complete_inLen (c : Config) (n : Nat) (s : State) : (complete c n s).inLen = s.inLen := rfl
@[simp] theorem complete_outLen (c : Config) (n : Nat) (s : State) : (complete c n s).outLen =
    BitVec.ofNat 33 (n % 2 ^ c.outLenBits) := rfl
@[simp] theorem complete_status (c : Config) (n : Nat) (s : State) : (complete c n s).status = .done := rfl
@[simp] theorem complete_errKind (c : Config) (n : Nat) (s : State) : (complete c n s).errKind = s.errKind := rfl
@[simp] theorem complete_errCause (c : Config) (n : Nat) (s : State) : (complete c n s).errCause = s.errCause := rfl
@[simp] theorem complete_errOffset (c : Config) (n : Nat) (s : State) : (complete c n s).errOffset = s.errOffset := rfl
@[simp] theorem complete_start (c : Config) (n : Nat) (s : State) : (complete c n s).start = s.start := rfl
@[simp] theorem complete_inp (c : Config) (n : Nat) (s : State) : (complete c n s).inp = s.inp := rfl
@[simp] theorem complete_out (c : Config) (n : Nat) (s : State) : (complete c n s).out = s.out := rfl
@[simp] theorem complete_idx (c : Config) (n : Nat) (s : State) : (complete c n s).idx = s.idx := rfl
@[simp] theorem complete_dec (c : Config) (n : Nat) (s : State) : (complete c n s).dec = s.dec := rfl
@[simp] theorem complete_enc (c : Config) (n : Nat) (s : State) : (complete c n s).enc = s.enc := rfl
@[simp] theorem complete_pix (c : Config) (n : Nat) (s : State) : (complete c n s).pix = s.pix := rfl

/-! ### `enterBlocks` -/

@[simp] theorem enterBlocks_cmd (l z : Nat) (s : State) : (enterBlocks l z s).cmd = s.cmd := rfl
@[simp] theorem enterBlocks_inLen (l z : Nat) (s : State) : (enterBlocks l z s).inLen = s.inLen := rfl
@[simp] theorem enterBlocks_outLen (l z : Nat) (s : State) : (enterBlocks l z s).outLen = s.outLen := rfl
@[simp] theorem enterBlocks_status (l z : Nat) (s : State) : (enterBlocks l z s).status = s.status := rfl
@[simp] theorem enterBlocks_errKind (l z : Nat) (s : State) : (enterBlocks l z s).errKind = s.errKind := rfl
@[simp] theorem enterBlocks_errCause (l z : Nat) (s : State) : (enterBlocks l z s).errCause = s.errCause := rfl
@[simp] theorem enterBlocks_errOffset (l z : Nat) (s : State) : (enterBlocks l z s).errOffset = s.errOffset := rfl
@[simp] theorem enterBlocks_start (l z : Nat) (s : State) : (enterBlocks l z s).start = s.start := rfl
@[simp] theorem enterBlocks_inp (l z : Nat) (s : State) : (enterBlocks l z s).inp = s.inp := rfl
@[simp] theorem enterBlocks_out (l z : Nat) (s : State) : (enterBlocks l z s).out = s.out := rfl
@[simp] theorem enterBlocks_idx (l z : Nat) (s : State) : (enterBlocks l z s).idx = s.idx := rfl
@[simp] theorem enterBlocks_dec (l z : Nat) (s : State) :
    (enterBlocks l z s).dec = { s.dec with tokStart := 0, totalLen := l, rp := z, dstate := .ctrl } := rfl
@[simp] theorem enterBlocks_enc (l z : Nat) (s : State) : (enterBlocks l z s).enc = s.enc := rfl
@[simp] theorem enterBlocks_pix (l z : Nat) (s : State) : (enterBlocks l z s).pix = s.pix := rfl

/-! ### `latchPixel` -/

@[simp] theorem latchPixel_cmd (d : BitVec 16) (p : Rgba) (s : State) : (latchPixel d p s).cmd = s.cmd := rfl
@[simp] theorem latchPixel_inLen (d : BitVec 16) (p : Rgba) (s : State) : (latchPixel d p s).inLen = s.inLen := rfl
@[simp] theorem latchPixel_outLen (d : BitVec 16) (p : Rgba) (s : State) : (latchPixel d p s).outLen = s.outLen := rfl
@[simp] theorem latchPixel_status (d : BitVec 16) (p : Rgba) (s : State) : (latchPixel d p s).status = s.status := rfl
@[simp] theorem latchPixel_errKind (d : BitVec 16) (p : Rgba) (s : State) :
    (latchPixel d p s).errKind = s.errKind := rfl
@[simp] theorem latchPixel_errCause (d : BitVec 16) (p : Rgba) (s : State) :
    (latchPixel d p s).errCause = s.errCause := rfl
@[simp] theorem latchPixel_errOffset (d : BitVec 16) (p : Rgba) (s : State) :
    (latchPixel d p s).errOffset = s.errOffset := rfl
@[simp] theorem latchPixel_start (d : BitVec 16) (p : Rgba) (s : State) : (latchPixel d p s).start = s.start := rfl
@[simp] theorem latchPixel_inp (d : BitVec 16) (p : Rgba) (s : State) : (latchPixel d p s).inp = s.inp := rfl
@[simp] theorem latchPixel_out (d : BitVec 16) (p : Rgba) (s : State) : (latchPixel d p s).out = s.out := rfl
@[simp] theorem latchPixel_idx (d : BitVec 16) (p : Rgba) (s : State) : (latchPixel d p s).idx = s.idx := rfl
@[simp] theorem latchPixel_dec (d : BitVec 16) (p : Rgba) (s : State) : (latchPixel d p s).dec = s.dec := rfl
@[simp] theorem latchPixel_enc (d : BitVec 16) (p : Rgba) (s : State) : (latchPixel d p s).enc = s.enc := rfl
@[simp] theorem latchPixel_pix (d : BitVec 16) (p : Rgba) (s : State) :
    (latchPixel d p s).pix = { s.pix with d := d, r := p.r, g := p.g, b := p.b, a := p.a, latch := some (pack (alphaStage s.pix.honorAlpha p)) } := rfl

/-! ### `writeRaster` -/

@[simp] theorem writeRaster_cmd (p : RasterPx) (s : State) : (writeRaster p s).cmd = s.cmd := rfl
@[simp] theorem writeRaster_inLen (p : RasterPx) (s : State) : (writeRaster p s).inLen = s.inLen := rfl
@[simp] theorem writeRaster_outLen (p : RasterPx) (s : State) : (writeRaster p s).outLen = s.outLen := rfl
@[simp] theorem writeRaster_status (p : RasterPx) (s : State) : (writeRaster p s).status = s.status := rfl
@[simp] theorem writeRaster_errKind (p : RasterPx) (s : State) : (writeRaster p s).errKind = s.errKind := rfl
@[simp] theorem writeRaster_errCause (p : RasterPx) (s : State) : (writeRaster p s).errCause = s.errCause := rfl
@[simp] theorem writeRaster_errOffset (p : RasterPx) (s : State) : (writeRaster p s).errOffset = s.errOffset := rfl
@[simp] theorem writeRaster_start (p : RasterPx) (s : State) : (writeRaster p s).start = s.start := rfl
@[simp] theorem writeRaster_inp (p : RasterPx) (s : State) : (writeRaster p s).inp = s.inp := rfl
@[simp] theorem writeRaster_out (p : RasterPx) (s : State) :
    (writeRaster p s).out = memWriteN s.out (rasterAddr s.pix.s) (rasterBytes p) := rfl
@[simp] theorem writeRaster_idx (p : RasterPx) (s : State) : (writeRaster p s).idx = s.idx := rfl
@[simp] theorem writeRaster_dec (p : RasterPx) (s : State) : (writeRaster p s).dec = s.dec := rfl
@[simp] theorem writeRaster_enc (p : RasterPx) (s : State) : (writeRaster p s).enc = s.enc := rfl
@[simp] theorem writeRaster_pix (p : RasterPx) (s : State) :
    (writeRaster p s).pix = { s.pix with s := s.pix.s + 1, latch := none } := rfl

/-! ### `beginDecompress` -/

@[simp] theorem beginDecompress_cmd (s : State) : (beginDecompress s).cmd = s.cmd := rfl
@[simp] theorem beginDecompress_inLen (s : State) : (beginDecompress s).inLen = s.inLen := rfl
@[simp] theorem beginDecompress_outLen (s : State) : (beginDecompress s).outLen = s.outLen := rfl
@[simp] theorem beginDecompress_status (s : State) : (beginDecompress s).status = s.status := rfl
@[simp] theorem beginDecompress_errKind (s : State) : (beginDecompress s).errKind = s.errKind := rfl
@[simp] theorem beginDecompress_errCause (s : State) : (beginDecompress s).errCause = s.errCause := rfl
@[simp] theorem beginDecompress_errOffset (s : State) : (beginDecompress s).errOffset = s.errOffset := rfl
@[simp] theorem beginDecompress_start (s : State) : (beginDecompress s).start = s.start := rfl
@[simp] theorem beginDecompress_inp (s : State) : (beginDecompress s).inp = s.inp := rfl
@[simp] theorem beginDecompress_out (s : State) : (beginDecompress s).out = s.out := rfl
@[simp] theorem beginDecompress_idx (s : State) : (beginDecompress s).idx = s.idx := rfl
@[simp] theorem beginDecompress_dec (s : State) :
    (beginDecompress s).dec = { s.dec with rp := 0, wp := 0, nbits := 0, ctrl := 0, refLeft := 0, tokStart := 0, dstate := .hdr } := rfl
@[simp] theorem beginDecompress_enc (s : State) : (beginDecompress s).enc = s.enc := rfl
@[simp] theorem beginDecompress_pix (s : State) : (beginDecompress s).pix = s.pix := rfl

/-! ### `beginCompress` -/

@[simp] theorem beginCompress_cmd (s : State) : (beginCompress s).cmd = s.cmd := rfl
@[simp] theorem beginCompress_inLen (s : State) : (beginCompress s).inLen = s.inLen := rfl
@[simp] theorem beginCompress_outLen (s : State) : (beginCompress s).outLen = s.outLen := rfl
@[simp] theorem beginCompress_status (s : State) : (beginCompress s).status = s.status := rfl
@[simp] theorem beginCompress_errKind (s : State) : (beginCompress s).errKind = s.errKind := rfl
@[simp] theorem beginCompress_errCause (s : State) : (beginCompress s).errCause = s.errCause := rfl
@[simp] theorem beginCompress_errOffset (s : State) : (beginCompress s).errOffset = s.errOffset := rfl
@[simp] theorem beginCompress_start (s : State) : (beginCompress s).start = s.start := rfl
@[simp] theorem beginCompress_inp (s : State) : (beginCompress s).inp = s.inp := rfl
@[simp] theorem beginCompress_out (s : State) : (beginCompress s).out = s.out := rfl
@[simp] theorem beginCompress_idx (s : State) : (beginCompress s).idx = [] := rfl
@[simp] theorem beginCompress_dec (s : State) : (beginCompress s).dec = s.dec := rfl
@[simp] theorem beginCompress_enc (s : State) :
    (beginCompress s).enc = { s.enc with n := s.inLen.toNat, pos := 0, wp := 0, grpCtrl := 0, grpCnt := 0, grpLen := 0, bestLen := 0 } := rfl
@[simp] theorem beginCompress_pix (s : State) : (beginCompress s).pix = s.pix := rfl

/-! ### `beginPixels` -/

@[simp] theorem beginPixels_cmd (h : Bool) (s : State) : (beginPixels h s).cmd = s.cmd := rfl
@[simp] theorem beginPixels_inLen (h : Bool) (s : State) : (beginPixels h s).inLen = s.inLen := rfl
@[simp] theorem beginPixels_outLen (h : Bool) (s : State) : (beginPixels h s).outLen = s.outLen := rfl
@[simp] theorem beginPixels_status (h : Bool) (s : State) : (beginPixels h s).status = s.status := rfl
@[simp] theorem beginPixels_errKind (h : Bool) (s : State) : (beginPixels h s).errKind = s.errKind := rfl
@[simp] theorem beginPixels_errCause (h : Bool) (s : State) : (beginPixels h s).errCause = s.errCause := rfl
@[simp] theorem beginPixels_errOffset (h : Bool) (s : State) : (beginPixels h s).errOffset = s.errOffset := rfl
@[simp] theorem beginPixels_start (h : Bool) (s : State) : (beginPixels h s).start = s.start := rfl
@[simp] theorem beginPixels_inp (h : Bool) (s : State) : (beginPixels h s).inp = s.inp := rfl
@[simp] theorem beginPixels_out (h : Bool) (s : State) : (beginPixels h s).out = s.out := rfl
@[simp] theorem beginPixels_idx (h : Bool) (s : State) : (beginPixels h s).idx = s.idx := rfl
@[simp] theorem beginPixels_dec (h : Bool) (s : State) : (beginPixels h s).dec = s.dec := rfl
@[simp] theorem beginPixels_enc (h : Bool) (s : State) : (beginPixels h s).enc = s.enc := rfl
@[simp] theorem beginPixels_pix (h : Bool) (s : State) :
    (beginPixels h s).pix = { s.pix with honorAlpha := h, npix := s.inLen.toNat / 2, s := 0, latch := none } := rfl

/-! ### `finishDecompress` -/

@[simp] theorem finishDecompress_cmd (c : Config) (s : State) : (finishDecompress c s).cmd = s.cmd := rfl
@[simp] theorem finishDecompress_inLen (c : Config) (s : State) : (finishDecompress c s).inLen = s.inLen := rfl
@[simp] theorem finishDecompress_outLen (c : Config) (s : State) :
    (finishDecompress c s).outLen = BitVec.ofNat 33 (s.dec.totalLen % 2 ^ c.outLenBits) := rfl
@[simp] theorem finishDecompress_status (c : Config) (s : State) : (finishDecompress c s).status = .done := rfl
@[simp] theorem finishDecompress_errKind (c : Config) (s : State) : (finishDecompress c s).errKind = s.errKind := rfl
@[simp] theorem finishDecompress_errCause (c : Config) (s : State) : (finishDecompress c s).errCause = s.errCause := rfl
@[simp] theorem finishDecompress_errOffset (c : Config) (s : State) : (finishDecompress c s).errOffset = s.errOffset := rfl
@[simp] theorem finishDecompress_start (c : Config) (s : State) : (finishDecompress c s).start = s.start := rfl
@[simp] theorem finishDecompress_inp (c : Config) (s : State) : (finishDecompress c s).inp = s.inp := rfl
@[simp] theorem finishDecompress_out (c : Config) (s : State) : (finishDecompress c s).out = s.out := rfl
@[simp] theorem finishDecompress_idx (c : Config) (s : State) : (finishDecompress c s).idx = s.idx := rfl
@[simp] theorem finishDecompress_dec (c : Config) (s : State) : (finishDecompress c s).dec = { s.dec with dstate := .ended } := rfl
@[simp] theorem finishDecompress_enc (c : Config) (s : State) : (finishDecompress c s).enc = s.enc := rfl
@[simp] theorem finishDecompress_pix (c : Config) (s : State) : (finishDecompress c s).pix = s.pix := rfl

/-! ### `bitTest` -/

@[simp] theorem bitTest_cmd (s : State) : (bitTest s).cmd = s.cmd := rfl
@[simp] theorem bitTest_inLen (s : State) : (bitTest s).inLen = s.inLen := rfl
@[simp] theorem bitTest_outLen (s : State) : (bitTest s).outLen = s.outLen := rfl
@[simp] theorem bitTest_status (s : State) : (bitTest s).status = s.status := rfl
@[simp] theorem bitTest_errKind (s : State) : (bitTest s).errKind = s.errKind := rfl
@[simp] theorem bitTest_errCause (s : State) : (bitTest s).errCause = s.errCause := rfl
@[simp] theorem bitTest_errOffset (s : State) : (bitTest s).errOffset = s.errOffset := rfl
@[simp] theorem bitTest_start (s : State) : (bitTest s).start = s.start := rfl
@[simp] theorem bitTest_inp (s : State) : (bitTest s).inp = s.inp := rfl
@[simp] theorem bitTest_out (s : State) : (bitTest s).out = s.out := rfl
@[simp] theorem bitTest_idx (s : State) : (bitTest s).idx = s.idx := rfl
@[simp] theorem bitTest_dec (s : State) :
    (bitTest s).dec = { s.dec with ctrl := shiftCtrl s.dec.ctrl, nbits := s.dec.nbits - 1, tokStart := s.dec.rp, dstate := if nextCtrlBit s.dec.ctrl then .ref else .lit } := rfl
@[simp] theorem bitTest_enc (s : State) : (bitTest s).enc = s.enc := rfl
@[simp] theorem bitTest_pix (s : State) : (bitTest s).pix = s.pix := rfl

/-! ### `emitHeader` -/

@[simp] theorem emitHeader_cmd (c : Config) (s : State) : (emitHeader c s).cmd = s.cmd := rfl
@[simp] theorem emitHeader_inLen (c : Config) (s : State) : (emitHeader c s).inLen = s.inLen := rfl
@[simp] theorem emitHeader_outLen (c : Config) (s : State) : (emitHeader c s).outLen = s.outLen := rfl
@[simp] theorem emitHeader_status (c : Config) (s : State) : (emitHeader c s).status = s.status := rfl
@[simp] theorem emitHeader_errKind (c : Config) (s : State) : (emitHeader c s).errKind = s.errKind := rfl
@[simp] theorem emitHeader_errCause (c : Config) (s : State) : (emitHeader c s).errCause = s.errCause := rfl
@[simp] theorem emitHeader_errOffset (c : Config) (s : State) : (emitHeader c s).errOffset = s.errOffset := rfl
@[simp] theorem emitHeader_start (c : Config) (s : State) : (emitHeader c s).start = s.start := rfl
@[simp] theorem emitHeader_inp (c : Config) (s : State) : (emitHeader c s).inp = s.inp := rfl
@[simp] theorem emitHeader_out (c : Config) (s : State) :
    (emitHeader c s).out = memWriteN s.out 0 (headerBytes c s.enc.n) := rfl
@[simp] theorem emitHeader_idx (c : Config) (s : State) : (emitHeader c s).idx = s.idx := rfl
@[simp] theorem emitHeader_dec (c : Config) (s : State) : (emitHeader c s).dec = s.dec := rfl
@[simp] theorem emitHeader_enc (c : Config) (s : State) :
    (emitHeader c s).enc = { s.enc with wp := (headerBytes c s.enc.n).length } := rfl
@[simp] theorem emitHeader_pix (c : Config) (s : State) : (emitHeader c s).pix = s.pix := rfl

/-! ### `flushGroup` -/

@[simp] theorem flushGroup_cmd (s : State) : (flushGroup s).cmd = s.cmd := rfl
@[simp] theorem flushGroup_inLen (s : State) : (flushGroup s).inLen = s.inLen := rfl
@[simp] theorem flushGroup_outLen (s : State) : (flushGroup s).outLen = s.outLen := rfl
@[simp] theorem flushGroup_status (s : State) : (flushGroup s).status = s.status := rfl
@[simp] theorem flushGroup_errKind (s : State) : (flushGroup s).errKind = s.errKind := rfl
@[simp] theorem flushGroup_errCause (s : State) : (flushGroup s).errCause = s.errCause := rfl
@[simp] theorem flushGroup_errOffset (s : State) : (flushGroup s).errOffset = s.errOffset := rfl
@[simp] theorem flushGroup_start (s : State) : (flushGroup s).start = s.start := rfl
@[simp] theorem flushGroup_inp (s : State) : (flushGroup s).inp = s.inp := rfl
@[simp] theorem flushGroup_out (s : State) :
    (flushGroup s).out = memWriteN s.out s.enc.wp (s.enc.grpCtrl :: groupBytes s.enc) := rfl
@[simp] theorem flushGroup_idx (s : State) : (flushGroup s).idx = s.idx := rfl
@[simp] theorem flushGroup_dec (s : State) : (flushGroup s).dec = s.dec := rfl
@[simp] theorem flushGroup_enc (s : State) :
    (flushGroup s).enc = { s.enc with wp := s.enc.wp + 1 + s.enc.grpLen, grpCtrl := 0, grpCnt := 0, grpLen := 0 } := rfl
@[simp] theorem flushGroup_pix (s : State) : (flushGroup s).pix = s.pix := rfl

/-! ### `emitToken` -/

@[simp] theorem emitToken_cmd (c : Config) (inp : List Byte) (best : Nat × Nat) (s : State) :
    (emitToken c inp best s).cmd = s.cmd := rfl
@[simp] theorem emitToken_inLen (c : Config) (inp : List Byte) (best : Nat × Nat) (s : State) :
    (emitToken c inp best s).inLen = s.inLen := rfl
@[simp] theorem emitToken_outLen (c : Config) (inp : List Byte) (best : Nat × Nat) (s : State) :
    (emitToken c inp best s).outLen = s.outLen := rfl
@[simp] theorem emitToken_status (c : Config) (inp : List Byte) (best : Nat × Nat) (s : State) :
    (emitToken c inp best s).status = s.status := rfl
@[simp] theorem emitToken_errKind (c : Config) (inp : List Byte) (best : Nat × Nat) (s : State) :
    (emitToken c inp best s).errKind = s.errKind := rfl
@[simp] theorem emitToken_errCause (c : Config) (inp : List Byte) (best : Nat × Nat) (s : State) :
    (emitToken c inp best s).errCause = s.errCause := rfl
@[simp] theorem emitToken_errOffset (c : Config) (inp : List Byte) (best : Nat × Nat) (s : State) :
    (emitToken c inp best s).errOffset = s.errOffset := rfl
@[simp] theorem emitToken_start (c : Config) (inp : List Byte) (best : Nat × Nat) (s : State) :
    (emitToken c inp best s).start = s.start := rfl
@[simp] theorem emitToken_inp (c : Config) (inp : List Byte) (best : Nat × Nat) (s : State) :
    (emitToken c inp best s).inp = s.inp := rfl
@[simp] theorem emitToken_out (c : Config) (inp : List Byte) (best : Nat × Nat) (s : State) :
    (emitToken c inp best s).out = s.out := rfl
@[simp] theorem emitToken_idx (c : Config) (inp : List Byte) (best : Nat × Nat) (s : State) :
    (emitToken c inp best s).idx = insertRange c inp s.idx s.enc.pos (tokenAdvance best) := rfl
@[simp] theorem emitToken_dec (c : Config) (inp : List Byte) (best : Nat × Nat) (s : State) :
    (emitToken c inp best s).dec = s.dec := rfl
@[simp] theorem emitToken_pix (c : Config) (inp : List Byte) (best : Nat × Nat) (s : State) :
    (emitToken c inp best s).pix = s.pix := rfl

end Sys2Proof.Machine
end

