-- ==== Sys2Proof/Laws/Step.lean ====
section
/-! SUPPORT. What a fetch finds and what a step can do, said once (spec R62, R106, R185, R202, R233). The moves of each engine are
listed as a relation, one constructor per row; `step_cases` says that a step that answers a next state makes one of
them. Later proofs cite these and do not unfold `step`. -/

namespace Sys2Proof.Machine

/-! ### Fetch -/

theorem fetchBytes_ok {m : Memory} {len a n : Nat} {bs : List Byte} :
    fetchBytes m len a n = .ok bs ↔ a + n ≤ len ∧ memReadN m a n = some bs := by
  unfold fetchBytes
  split
  · simp; omega
  · cases h : memReadN m a n <;> simp; omega

theorem fetchBytes_error {m : Memory} {len a n : Nat} {e : Fetched} (h : fetchBytes m len a n = .error e) :
    (e = .truncated ∧ len < a + n) ∨ (e = .unwritten ∧ a + n ≤ len ∧ memReadN m a n = none) := by
  unfold fetchBytes at h
  split at h
  · cases h; simp; omega
  · cases hm : memReadN m a n with
    | none => rw [hm] at h; cases h; simp; omega
    | some bs => rw [hm] at h; cases h

/-- An item that is fetched was decoded from bytes of `IN` below `IN_LEN`. -/
theorem fetchWith_instr {dec : List Byte → Decoded} {first : Nat} {m : Memory} {len a : Nat} {i : Instr}
    (h : fetchWith dec first m len a = .instr i) :
    ∃ bs rest, dec bs = .ok i rest ∧ a + bs.length ≤ len ∧ memReadN m a bs.length = some bs := by
  unfold fetchWith at h
  split at h
  · rename_i e he
    rcases fetchBytes_error he with ⟨rfl, _⟩ | ⟨rfl, _⟩ <;> cases h
  · rename_i bs hb
    obtain ⟨hlen, hread⟩ := fetchBytes_ok.1 hb
    have hn := memReadN_length hread
    split at h
    · rename_i j rest hd
      cases h
      exact ⟨bs, rest, hd, by omega, by rw [hn]; exact hread⟩
    · cases h
    · split at h
      · rename_i e he
        rcases fetchBytes_error he with ⟨rfl, _⟩ | ⟨rfl, _⟩ <;> cases h
      · rename_i bs' hb'
        obtain ⟨hlen', hread'⟩ := fetchBytes_ok.1 hb'
        have hn' := memReadN_length hread'
        split at h
        · rename_i j rest hd
          cases h
          exact ⟨bs', rest, hd, by omega, by rw [hn']; exact hread'⟩
        · cases h
        · cases h

/-- What is rejected was rejected by the decoder. -/
theorem fetchWith_rejected {dec : List Byte → Decoded} {first : Nat} {m : Memory} {len a : Nat} {r : Reject}
    (h : fetchWith dec first m len a = .rejected r) : ∃ bs, dec bs = .reject r := by
  unfold fetchWith at h
  split at h
  · rename_i e he
    rcases fetchBytes_error he with ⟨rfl, _⟩ | ⟨rfl, _⟩ <;> cases h
  · split at h
    · cases h
    · cases h; exact ⟨_, ‹_›⟩
    · split at h
      · rename_i e he
        rcases fetchBytes_error he with ⟨rfl, _⟩ | ⟨rfl, _⟩ <;> cases h
      · split at h
        · cases h
        · cases h; exact ⟨_, ‹_›⟩
        · cases h

/-- A fetch of an item answers an item, a truncation, a rejection or an unwritten byte. -/
theorem fetchWith_cases (dec : List Byte → Decoded) (first : Nat) (m : Memory) (len a : Nat) :
    (∃ i, fetchWith dec first m len a = .instr i) ∨ fetchWith dec first m len a = .truncated ∨
      (∃ r, fetchWith dec first m len a = .rejected r) ∨ fetchWith dec first m len a = .unwritten := by
  unfold fetchWith
  split
  · rename_i e he
    rcases fetchBytes_error he with ⟨rfl, _⟩ | ⟨rfl, _⟩ <;> simp
  · split
    · exact .inl ⟨_, rfl⟩
    · exact .inr (.inr (.inl ⟨_, rfl⟩))
    · split
      · rename_i e he
        rcases fetchBytes_error he with ⟨rfl, _⟩ | ⟨rfl, _⟩ <;> simp
      · split
        · exact .inl ⟨_, rfl⟩
        · exact .inr (.inr (.inl ⟨_, rfl⟩))
        · simp

theorem fetchItem_cases (m : Memory) (len a : Nat) (k : Ctx) :
    (∃ i, fetchItem m len k a = .instr i) ∨ fetchItem m len k a = .truncated ∨
      (∃ r, fetchItem m len k a = .rejected r) ∨ fetchItem m len k a = .unwritten :=
  fetchWith_cases _ _ m len a

theorem fetchHeader_cases (c : Config) (m : Memory) (len : Nat) :
    (∃ i, fetchHeader c m len = .instr i) ∨ fetchHeader c m len = .truncated ∨
      (∃ r, fetchHeader c m len = .rejected r) ∨ fetchHeader c m len = .unwritten :=
  fetchWith_cases _ _ m len 0

/-- An item that is fetched stands at its own kind of position and ends at or before `IN_LEN`. -/
theorem fetchItem_instr_size {m : Memory} {len a : Nat} {k : Ctx} {i : Instr} (h : fetchItem m len k a = .instr i) :
    i.ctx = k ∧ a + i.byteLen ≤ len := by
  obtain ⟨bs, rest, hd, hl, -⟩ := fetchWith_instr h
  obtain ⟨hc, hs⟩ := decode_ok_size hd
  exact ⟨hc, by omega⟩

/-- A header that is fetched is one of the two header forms and ends at or before `IN_LEN`, for any tag. -/
theorem fetchHeader_instr_size {c : Config} {m : Memory} {len : Nat} {i : Instr} (h : fetchHeader c m len = .instr i) :
    i.ctx = .header ∧ i.byteLen ≤ len := by
  obtain ⟨bs, rest, hd, hl, -⟩ := fetchWith_instr h
  obtain ⟨hc, hs⟩ := decodeHeader_ok hd
  exact ⟨hc, by omega⟩

/-- The high nibble has four bits. -/
theorem ofNat_highNibble (b : Byte) : BitVec.ofNat 4 (highNibble b) = BitVec.ofNat 4 (b.toNat / 16) := by
  have := b.isLt
  congr 1
  simp only [highNibble, bitField]
  omega

/-- The fetch of a token: it runs past `IN_LEN`, a byte was never written, or it is all there; under a lawful coding it has as
many bytes as its first one says. -/
theorem fetchReference_cases (c : Config) (m : Memory) (len a : Nat) :
    fetchReference c m len a = .truncated ∨ fetchReference c m len a = .unwritten ∨
      ∃ t, fetchReference c m len a = .token t ∧ a + t.length ≤ len ∧ memReadN m a t.length = some t ∧
        (c.Lawful → ∃ b rest, t = b :: rest ∧ c.tok.size (BitVec.ofNat 4 (b.toNat / 16)) = t.length) := by
  unfold fetchReference
  split
  · rename_i e he
    rcases fetchBytes_error he with ⟨rfl, _⟩ | ⟨rfl, _⟩ <;> simp
  · rename_i bs hb
    obtain ⟨-, hr⟩ := fetchBytes_ok.1 hb
    obtain ⟨b, rfl⟩ := List.length_eq_one_iff.1 (memReadN_length hr)
    split
    · rename_i e he
      rcases fetchBytes_error he with ⟨rfl, _⟩ | ⟨rfl, _⟩ <;> simp
    · rename_i t ht
      obtain ⟨hl, hrt⟩ := fetchBytes_ok.1 ht
      have hn := memReadN_length hrt
      refine .inr (.inr ⟨t, rfl, by omega, by rw [hn]; exact hrt, fun hc => ?_⟩)
      simp only [tokenSize, ofNat_highNibble] at hn hrt
      have h2 := hc.size_ge (BitVec.ofNat 4 (b.toNat / 16))
      have h0 := memRead_of_memReadN hr (i := 0) (by omega)
      rw [memRead_of_memReadN hrt (i := 0) (by omega)] at h0
      cases t with
      | nil => simp at h0
      | cons x rest =>
        simp only [List.getElem?_cons_zero, Option.some.injEq] at h0
        subst h0
        exact ⟨x, rest, rfl, hn.symm⟩

/-! ### The back-reference tiers under the default token coding -/

theorem exec_ref2 (n : BitVec 4) (disp : BitVec 12) (s : State) :
    exec (.ref2 n disp) s = .next (takeReference 2 (n.toNat + 1) (disp.toNat + 1) s) := by
  have h1 := n.isLt
  have h2 := disp.isLt
  obtain ⟨a, b, hab⟩ := List.length_eq_two.1 (encode_length (.ref2 n disp))
  have hbe : beNat [a, b] = n.toNat * 4096 + disp.toNat := by
    rw [← hab, encode, beNat_beBytes, Nat.mod_eq_of_lt (by omega)]
  have e1 : (BitVec.ofNat 4 (bitField (n.toNat * 4096 + disp.toNat) 15 12)).toNat = n.toNat := by
    simp only [bitField, BitVec.toNat_ofNat]; omega
  have e2 : (BitVec.ofNat 12 (bitField (n.toNat * 4096 + disp.toNat) 11 0)).toNat = disp.toNat := by
    simp only [bitField, BitVec.toNat_ofNat]; omega
  simp only [exec, execRef2, execToken, hab, config, tokCodec, tokenDecode, hbe, ref2OfWord, pairOf, ref2Length,
    distanceOf, List.length_cons, List.length_nil, e1, e2]

theorem exec_ref3 (lenf : BitVec 8) (disp : BitVec 12) (s : State) :
    exec (.ref3 lenf disp) s = .next (takeReference 3 (lenf.toNat + 17) (disp.toNat + 1) s) := by
  have h1 := lenf.isLt
  have h2 := disp.isLt
  obtain ⟨a, b, c, hab⟩ := List.length_eq_three.1 (encode_length (.ref3 lenf disp))
  have hbe : beNat [a, b, c] = lenf.toNat * 4096 + disp.toNat := by
    rw [← hab, encode, beNat_beBytes, Nat.mod_eq_of_lt (by omega)]
  have e1 : (BitVec.ofNat 8 (bitField (lenf.toNat * 4096 + disp.toNat) 19 12)).toNat = lenf.toNat := by
    simp only [bitField, BitVec.toNat_ofNat]; omega
  have e2 : (BitVec.ofNat 12 (bitField (lenf.toNat * 4096 + disp.toNat) 11 0)).toNat = disp.toNat := by
    simp only [bitField, BitVec.toNat_ofNat]; omega
  simp only [exec, execRef3, execToken, hab, config, tokCodec, tokenDecode, hbe, ref3OfWord, pairOf, ref3Length,
    distanceOf, List.length_cons, List.length_nil, e1, e2]

theorem exec_ref4 (lenf : BitVec 16) (disp : BitVec 12) (s : State) :
    exec (.ref4 lenf disp) s = .next (takeReference 4 (lenf.toNat + 273) (disp.toNat + 1) s) := by
  have h1 := lenf.isLt
  have h2 := disp.isLt
  obtain ⟨a, b, c, d, hab⟩ : ∃ a b c d, encode (.ref4 lenf disp) = [a, b, c, d] := by
    have h := encode_length (.ref4 lenf disp)
    match he : encode (.ref4 lenf disp), h with
    | [a, b, c, d], _ => exact ⟨a, b, c, d, rfl⟩
  have hbe : beNat [a, b, c, d] = 2 ^ 28 + lenf.toNat * 4096 + disp.toNat := by
    rw [← hab, encode, beNat_beBytes, Nat.mod_eq_of_lt (by omega)]
  have e1 : (BitVec.ofNat 16 (bitField (2 ^ 28 + lenf.toNat * 4096 + disp.toNat) 27 12)).toNat = lenf.toNat := by
    simp only [bitField, BitVec.toNat_ofNat]; omega
  have e2 : (BitVec.ofNat 12 (bitField (2 ^ 28 + lenf.toNat * 4096 + disp.toNat) 11 0)).toNat = disp.toNat := by
    simp only [bitField, BitVec.toNat_ofNat]; omega
  simp only [exec, execRef4, execToken, hab, config, tokCodec, tokenDecode, hbe, ref4OfWord, pairOf, ref4Length,
    distanceOf, List.length_cons, List.length_nil, e1, e2]

/-! ### The moves of the LZ decoder, one per row of R185 -/

/-- The rows of R185's table that answer a next state. -/
inductive DecoderMove (c : Config) (s : State) : State → Prop
  | headerTruncated (hd : s.dec.dstate = .hdr) :
      DecoderMove c s (raise .truncatedHeader 0 { s with dec := { s.dec with tokStart := 0 } })
  | badTag (hd : s.dec.dstate = .hdr) :
      DecoderMove c s (raise .badTag 0 { s with dec := { s.dec with tokStart := 0 } })
  | header (len24 : BitVec 24) (hd : s.dec.dstate = .hdr) (hl : 4 ≤ s.inLen.toNat) :
      DecoderMove c s (enterBlocks len24.toNat 4 s)
  | headerX (len32 : BitVec 32) (hd : s.dec.dstate = .hdr) (hl : 8 ≤ s.inLen.toNat) :
      DecoderMove c s (enterBlocks len32.toNat 8 s)
  | finish (hd : s.dec.dstate = .ctrl) (hw : s.dec.wp = s.dec.totalLen) : DecoderMove c s (finishDecompress c s)
  | toBit (hd : s.dec.dstate = .ctrl) (hw : s.dec.wp ≠ s.dec.totalLen) (hn : s.dec.nbits ≠ 0) :
      DecoderMove c s { s with dec := { s.dec with dstate := .bit } }
  | controlTruncated (hd : s.dec.dstate = .ctrl) (hw : s.dec.wp ≠ s.dec.totalLen) (hl : s.inLen.toNat < s.dec.rp + 1) :
      DecoderMove c s (raise .truncatedToken s.dec.rp { s with dec := { s.dec with tokStart := s.dec.rp } })
  | control (flags : BitVec 8) (hd : s.dec.dstate = .ctrl) (hw : s.dec.wp ≠ s.dec.totalLen) (hn : s.dec.nbits = 0)
      (hl : s.dec.rp + 1 ≤ s.inLen.toNat) (hr : memReadN s.inp s.dec.rp 1 = some [flags]) :
      DecoderMove c s
        { s with
          dec :=
            { s.dec with tokStart := s.dec.rp, ctrl := flags, rp := s.dec.rp + 1, nbits := 8, dstate := .bit } }
  | bit (hd : s.dec.dstate = .bit) : DecoderMove c s (bitTest s)
  | literalTruncated (hd : s.dec.dstate = .lit) (hl : s.inLen.toNat < s.dec.rp + 1) :
      DecoderMove c s (raise .truncatedToken s.dec.rp s)
  | literal (v : BitVec 8) (hd : s.dec.dstate = .lit) (hl : s.dec.rp + 1 ≤ s.inLen.toNat)
      (hr : memReadN s.inp s.dec.rp 1 = some [v]) :
      DecoderMove c s
        { s with
          out := memWrite s.out s.dec.wp v
          dec := { s.dec with rp := s.dec.rp + 1, wp := s.dec.wp + 1, dstate := .ctrl } }
  | referenceTruncated (hd : s.dec.dstate = .ref) : DecoderMove c s (raise .truncatedToken s.dec.tokStart s)
  | reference (size len dist : Nat) (hd : s.dec.dstate = .ref) (hl : s.dec.rp + size ≤ s.inLen.toNat)
      (hlegal : c.Lawful → c.Encodable len dist) :
      DecoderMove c s (takeReference size len dist s)
  | copyDone (hd : s.dec.dstate = .copy) (hz : s.dec.refLeft = 0) :
      DecoderMove c s { s with dec := { s.dec with dstate := .ctrl } }
  | copyByte (v : Byte) (hd : s.dec.dstate = .copy) (hz : s.dec.refLeft ≠ 0)
      (hv : memRead s.out (s.dec.wp - s.dec.refDist) = some v) :
      DecoderMove c s
        { s with
          out := memWrite s.out s.dec.wp v
          dec := { s.dec with wp := s.dec.wp + 1, refLeft := s.dec.refLeft - 1 } }

/-- The moves of the LZ encoder. -/
inductive EncoderMove (c : Config) (s : State) : State → Prop
  | header (hw : s.enc.wp = 0) : EncoderMove c s (emitHeader c s)
  | flush (hw : s.enc.wp ≠ 0)
      (hg : s.enc.grpCnt = groupSize ∨ (s.enc.pos = s.enc.n ∧ 0 < s.enc.grpCnt)) : EncoderMove c s (flushGroup s)
  | token (inp : List Byte) (hw : s.enc.wp ≠ 0)
      (hg : ¬(s.enc.grpCnt = groupSize ∨ (s.enc.pos = s.enc.n ∧ 0 < s.enc.grpCnt)))
      (hp : s.enc.pos < s.enc.n) (hr : memReadN s.inp 0 s.enc.n = some inp) :
      EncoderMove c s (emitToken c inp (bestAt c inp s) s)
  | finish (hw : s.enc.wp ≠ 0)
      (hg : ¬(s.enc.grpCnt = groupSize ∨ (s.enc.pos = s.enc.n ∧ 0 < s.enc.grpCnt)))
      (hp : ¬s.enc.pos < s.enc.n) : EncoderMove c s (complete c s.enc.wp s)

/-- The moves of the pixel decoder. -/
inductive PixelMove (c : Config) (s : State) : State → Prop
  | sample (i : Instr) (d : BitVec 16) (p : Rgba) (hl : s.pix.latch = none) (hs : s.pix.s < s.pix.npix)
      (hi : fetchItem s.inp s.inLen.toNat .sample (2 * s.pix.s) = .instr i)
      (hd : d = sampleWord i) : PixelMove c s (latchPixel d p s)
  | raster (p : RasterPx) (hl : s.pix.latch = some p) : PixelMove c s (writeRaster p s)
  | finish (hl : s.pix.latch = none) (hs : ¬s.pix.s < s.pix.npix) : PixelMove c s (finishPixels c s)

/-- The fetch of a control byte. -/
theorem fetchItem_control (m : Memory) (len a : Nat) :
    (len < a + 1 ∧ fetchItem m len .control a = .truncated) ∨
      (a + 1 ≤ len ∧ memReadN m a 1 = none ∧ fetchItem m len .control a = .unwritten) ∨
      (∃ v, a + 1 ≤ len ∧ memReadN m a 1 = some [v] ∧ fetchItem m len .control a = .instr (.ctl v)) := by
  by_cases hl : len < a + 1
  · exact .inl ⟨hl, by simp [fetchItem, fetchWith, fetchBytes, Ctx.firstBytes, hl]⟩
  · cases hr : memReadN m a 1 with
    | none => exact .inr (.inl ⟨by omega, rfl, by simp [fetchItem, fetchWith, fetchBytes, Ctx.firstBytes, hl, hr]⟩)
    | some bs =>
      obtain ⟨v, rfl⟩ := List.length_eq_one_iff.1 (memReadN_length hr)
      exact .inr (.inr ⟨v, by omega, rfl,
        by simp [fetchItem, fetchWith, fetchBytes, Ctx.firstBytes, hl, hr, decode, decodeControl]⟩)

/-- The fetch of a literal. -/
theorem fetchItem_literal (m : Memory) (len a : Nat) :
    (len < a + 1 ∧ fetchItem m len .literal a = .truncated) ∨
      (a + 1 ≤ len ∧ memReadN m a 1 = none ∧ fetchItem m len .literal a = .unwritten) ∨
      (∃ v, a + 1 ≤ len ∧ memReadN m a 1 = some [v] ∧ fetchItem m len .literal a = .instr (.lit v)) := by
  by_cases hl : len < a + 1
  · exact .inl ⟨hl, by simp [fetchItem, fetchWith, fetchBytes, Ctx.firstBytes, hl]⟩
  · cases hr : memReadN m a 1 with
    | none => exact .inr (.inl ⟨by omega, rfl, by simp [fetchItem, fetchWith, fetchBytes, Ctx.firstBytes, hl, hr]⟩)
    | some bs =>
      obtain ⟨v, rfl⟩ := List.length_eq_one_iff.1 (memReadN_length hr)
      exact .inr (.inr ⟨v, by omega, rfl,
        by simp [fetchItem, fetchWith, fetchBytes, Ctx.firstBytes, hl, hr, decode, decodeLiteral]⟩)

/-- Only a stream's tag can be rejected. -/
theorem fetchItem_not_rejected {m : Memory} {len a : Nat} {c : Ctx} {r : Reject} (hc : c ≠ .header) (hc' : c ≠ .command) :
    fetchItem m len c a ≠ .rejected r := by
  intro h
  have key : ∀ bs, decode c bs ≠ .reject r := by
    intro bs hd
    cases c with
    | header => exact hc rfl
    | command => exact hc' rfl
    | control => cases bs <;> simp [decode, decodeControl] at hd
    | literal => cases bs <;> simp [decode, decodeLiteral] at hd
    | sample => simp only [decode, decodeSample] at hd; split at hd <;> cases hd
    | raster => simp only [decode, decodeRaster] at hd; split at hd <;> cases hd
    | reference =>
      cases bs with
      | nil => simp [decode, decodeReference] at hd
      | cons b bs =>
        simp only [decode, decodeReference] at hd
        split at hd
        · split at hd <;> cases hd
        · split at hd <;> split at hd <;> cases hd
  obtain ⟨bs, hd⟩ := fetchWith_rejected h
  exact key bs hd

theorem decoderMove_of_step {c : Config} {s t : State} (hs : s.start = false) (hb : s.status = .busy)
    (he : engineOfCmd c s.cmd = .lzDecoder) (h : stepWith c s = .next t) : DecoderMove c s t := by
  simp only [stepWith, fetch, hs, hb, he, Bool.false_eq_true, if_false, ne_eq, not_true_eq_false] at h
  cases hd : s.dec.dstate with
  | hdr =>
    simp only [fetchStream, hd] at h
    rcases fetchHeader_cases c s.inp s.inLen.toNat with ⟨i, hi⟩ | hi | ⟨r, hi⟩ | hi <;> rw [hi] at h
    · obtain ⟨hk, hl⟩ := fetchHeader_instr_size hi
      cases i <;> simp only [Instr.ctx, reduceCtorEq] at hk
      · simp only [exec, execHdr, Host.Outcome.next.injEq] at h
        subst h
        exact .header _ hd (by simpa [Instr.byteLen] using hl)
      · simp only [exec, execHdrx, Host.Outcome.next.injEq] at h
        subst h
        exact .headerX _ hd (by simpa [Instr.byteLen] using hl)
    · simp only [takeTruncated, he, hd, Host.Outcome.next.injEq] at h
      subst h; exact .headerTruncated hd
    · cases r <;> simp only [takeRejected, Host.Outcome.next.injEq, reduceCtorEq] at h
      subst h; exact .badTag hd
    · cases h
  | ctrl =>
    simp only [fetchStream, hd] at h
    by_cases hw : s.dec.wp = s.dec.totalLen
    · simp only [hw, true_or, if_true, internalStep, he, decoderStep, hd, loopHead, Host.Outcome.next.injEq] at h
      subst h; exact .finish hd hw
    · by_cases hn : s.dec.nbits = 0
      · simp only [hw, hn, ne_eq, not_true_eq_false, or_self, if_false] at h
        rcases fetchItem_control s.inp s.inLen.toNat s.dec.rp with ⟨hl, hi⟩ | ⟨hl, hr, hi⟩ | ⟨v, hl, hr, hi⟩ <;>
          rw [hi] at h
        · simp only [takeTruncated, he, hd, Host.Outcome.next.injEq] at h
          subst h; exact .controlTruncated hd hw hl
        · cases h
        · simp only [exec, execCtl, Host.Outcome.next.injEq] at h
          subst h; exact .control v hd hw hn hl hr
      · simp only [hw, hn, ne_eq, not_false_eq_true, or_true, if_true, internalStep, he, decoderStep, hd, loopHead,
          if_false, Host.Outcome.next.injEq] at h
        subst h; exact .toBit hd hw hn
  | bit =>
    simp only [fetchStream, hd, internalStep, he, decoderStep, Host.Outcome.next.injEq] at h
    subst h; exact .bit hd
  | lit =>
    simp only [fetchStream, hd] at h
    rcases fetchItem_literal s.inp s.inLen.toNat s.dec.rp with ⟨hl, hi⟩ | ⟨hl, hr, hi⟩ | ⟨v, hl, hr, hi⟩ <;>
      rw [hi] at h
    · simp only [takeTruncated, he, hd, Host.Outcome.next.injEq] at h
      subst h; exact .literalTruncated hd hl
    · cases h
    · simp only [exec, execLit, Host.Outcome.next.injEq] at h
      subst h; exact .literal v hd hl hr
  | ref =>
    simp only [fetchStream, hd] at h
    rcases fetchReference_cases c s.inp s.inLen.toNat s.dec.rp with hi | hi | ⟨t', hi, hl, -, hz⟩ <;> rw [hi] at h
    · simp only [takeTruncated, he, hd, Host.Outcome.next.injEq] at h
      subst h; exact .referenceTruncated hd
    · cases h
    · simp only [execToken, Host.Outcome.next.injEq] at h
      subst h
      refine .reference _ _ _ hd hl fun hc => ?_
      obtain ⟨b, rest, rfl, hs⟩ := hz hc
      exact hc.decode_legal b rest hs
  | copy =>
    simp only [fetchStream, hd, internalStep, he, decoderStep] at h
    unfold copyStep at h
    split at h
    · cases h; exact .copyDone hd ‹_›
    · split at h
      · cases h
      · cases h; exact .copyByte _ hd ‹_› ‹_›
  | ended => simp [fetchStream, hd, internalStep, he, decoderStep] at h

theorem encoderMove_of_step {c : Config} {s t : State} (hs : s.start = false) (hb : s.status = .busy)
    (he : engineOfCmd c s.cmd = .lzEncoder) (h : stepWith c s = .next t) : EncoderMove c s t := by
  simp only [stepWith, fetch, hs, hb, he, Bool.false_eq_true, if_false, ne_eq, not_true_eq_false, internalStep,
    encoderStep] at h
  split at h
  · cases h; exact .header ‹_›
  · split at h
    · cases h; exact .flush ‹_› ‹_›
    · split at h
      · unfold scanStep at h
        split at h
        · cases h
        · cases h; exact .token _ ‹_› ‹_› ‹_› ‹_›
      · cases h; exact .finish ‹_› ‹_› ‹_›

theorem pixelMove_of_step {c : Config} {s t : State} (hs : s.start = false) (hb : s.status = .busy)
    (he : engineOfCmd c s.cmd = .pixelDecoder) (h : stepWith c s = .next t) : PixelMove c s t := by
  simp only [stepWith, fetch, hs, hb, he, Bool.false_eq_true, if_false, ne_eq, not_true_eq_false] at h
  cases hl : s.pix.latch with
  | some p =>
    simp only [fetchPixel, hl, decode, rasterBytes, decodeRaster, exec, execRasterPixel, Host.Outcome.next.injEq] at h
    subst h; exact .raster p hl
  | none =>
    by_cases hp : s.pix.s < s.pix.npix
    · simp only [fetchPixel, hl, hp, if_true] at h
      rcases fetchItem_cases s.inp s.inLen.toNat (2 * s.pix.s) .sample with ⟨i, hi⟩ | hi | ⟨r, hi⟩ | hi
      · rw [hi] at h
        obtain ⟨hc, -⟩ := fetchItem_instr_size hi
        cases i <;> simp only [Instr.ctx, reduceCtorEq] at hc
        · simp only [exec, execPixA3rgb4, Host.Outcome.next.injEq] at h
          subst h; exact .sample _ _ _ hl hp hi rfl
        · simp only [exec, execPixRgb5, Host.Outcome.next.injEq] at h
          subst h; exact .sample _ _ _ hl hp hi rfl
      · rw [hi] at h; simp [takeTruncated, he] at h
      · exact absurd hi (fetchItem_not_rejected (by decide) (by decide))
      · rw [hi] at h; cases h
    · simp only [fetchPixel, hl, hp, if_false, internalStep, he, Host.Outcome.next.injEq] at h
      subst h; exact .finish hl hp

/-- Everything a step that answers a next state can be: a `START` that is seen, an idle step, or a move of the running
engine. -/
theorem step_cases {c : Config} {s t : State} (h : stepWith c s = .next t) :
    (s.start = true ∧ exec (commandInstr (c.commandOf s.cmd)) s = .next t) ∨
      (s.start = false ∧ s.status ≠ .busy ∧ t = s) ∨
      (s.start = false ∧ s.status = .busy ∧ engineOfCmd c s.cmd = .lzDecoder ∧ DecoderMove c s t) ∨
      (s.start = false ∧ s.status = .busy ∧ engineOfCmd c s.cmd = .lzEncoder ∧ EncoderMove c s t) ∨
      (s.start = false ∧ s.status = .busy ∧ engineOfCmd c s.cmd = .pixelDecoder ∧ PixelMove c s t) := by
  cases hs : s.start with
  | true => left; refine ⟨rfl, ?_⟩; simpa [stepWith, fetch, hs] using h
  | false =>
    right
    by_cases hb : s.status = .busy
    · right
      cases he : engineOfCmd c s.cmd with
      | lzDecoder => exact .inl ⟨rfl, hb, rfl, decoderMove_of_step hs hb he h⟩
      | lzEncoder => exact .inr (.inl ⟨rfl, hb, rfl, encoderMove_of_step hs hb he h⟩)
      | pixelDecoder => exact .inr (.inr ⟨rfl, hb, rfl, pixelMove_of_step hs hb he h⟩)
    · left
      refine ⟨rfl, hb, ?_⟩
      simp only [stepWith, fetch, hs, Bool.false_eq_true, if_false, ne_eq, hb, not_false_eq_true, if_true,
        Host.Outcome.next.injEq] at h
      exact h.symm

/-! ### `START` -/

/-- What a `START` does when it is seen: it is ignored while `STATUS = BUSY`, otherwise the command begins (R23, R130). -/
theorem issue_cases (f : State → State) (s : State) :
    (s.status = .busy ∧ issue f s = .next { s with start := false }) ∨
      (s.status ≠ .busy ∧ issue f s = .next (f (commandStart s))) := by
  unfold issue
  split
  · exact .inl ⟨‹_›, rfl⟩
  · exact .inr ⟨‹_›, rfl⟩

/-- A step on a raised `START` executes the command in `CMD`, whatever the parameters. -/
theorem stepWith_start (c : Config) (s : State) (h : s.start = true) :
    stepWith c s = exec (commandInstr (c.commandOf s.cmd)) s := by
  simp [stepWith, fetch, h]

/-- What the host's `START` can answer: a refusal for want of capacity, or what the command's instruction answers. -/
theorem hostStart_cases (c : Config) (s : State) :
    (s.status ≠ .busy ∧ fitsCapacity c s = false ∧ hostStart c s = .refused .outCapacity) ∨
      ((s.status = .busy ∨ fitsCapacity c s = true) ∧
        hostStart c s = exec (commandInstr (c.commandOf s.cmd)) { s with start := true }) := by
  unfold hostStart
  split
  · rename_i h; exact .inl ⟨h.1, h.2, rfl⟩
  · rename_i h
    refine .inr ⟨?_, stepWith_start c _ rfl⟩
    by_cases hb : s.status = .busy
    · exact .inl hb
    · exact .inr (by simpa [hb] using h)

/-- The length check passes a multiple of the stride and takes the fault otherwise (R231). -/
theorem checkLength_cases (s : State) :
    (s.inLen.toNat % tileRowStride = 0 ∧ checkLength s = s) ∨
      (s.inLen.toNat % tileRowStride ≠ 0 ∧
        checkLength s = raise .badLength (s.inLen.toNat / tileRowStride * tileRowStride) s) := by
  unfold checkLength
  split
  · exact .inl ⟨‹_›, rfl⟩
  · exact .inr ⟨‹_›, rfl⟩

end Sys2Proof.Machine
end

