-- ==== Sys2Proof/Tests/Slice0.lean ====
section
/-! SUPPORT. The model's own tests. Expected values come from the spec: its encodings (`30_encoding.md`), its worked examples and
its vectors (`95_test_vectors.md`, named T, V, W, F, X, A in the comments). At the end, one witness for each statement that
has hypotheses. -/

namespace Sys2Proof.Tests

open Sys2Proof.Machine

/-! ### Well-formedness: ill-formed terms are refused -/

theorem test_wf_hdr_needs_a_length : (Instr.hdr 0).wellFormed = false := by decide
theorem test_wf_hdr_one : (Instr.hdr 1).wellFormed = true := by decide
theorem test_wf_ref2_nibble_zero : (Instr.ref2 0 5).wellFormed = false := by decide
theorem test_wf_ref2_nibble_one : (Instr.ref2 1 5).wellFormed = false := by decide
theorem test_wf_ref2_nibble_two : (Instr.ref2 2 0).wellFormed = true := by decide

/-! ### Decoding: words written out from the spec's encodings -/

/-- R91, R171: `HDR 31` is `11 1F 00 00`. -/
theorem test_decode_hdr :
    decode .header [0b00010001, 0b00011111, 0b00000000, 0b00000000] = .ok (.hdr 31) [] := by decide
/-- R201: `HDR 70000` is `11 70 11 01`, little-endian. -/
theorem test_decode_hdr_byte_order : decode .header [0x11, 0x70, 0x11, 0x01] = .ok (.hdr 70000) [] := by decide
/-- R201: `n = 16777216` gives `11 00 00 00 00 00 00 01`. -/
theorem test_decode_hdrx :
    decode .header [0b00010001, 0, 0, 0, 0, 0, 0, 0b00000001] = .ok (.hdrx 16777216) [] := by decide
/-- R107: a first byte that is not `TAG`. -/
theorem test_decode_bad_tag : decode .header [0x10, 0x01, 0x00, 0x00] = .reject .badTag := by decide
/-- R95: `00011100`, first token at bit 7. -/
theorem test_decode_ctl : decode .control [0b00011100] = .ok (.ctl 0x1C) [] := by decide
/-- R97: every byte is a literal. -/
theorem test_decode_lit : decode .literal [0b01000001] = .ok (.lit 0x41) [] := by decide
/-- R102, T8: `1010 000000000101`, the pair (11, 6). -/
theorem test_decode_ref2 :
    decode .reference [0b10100000, 0b00000101] = .ok (.ref2 0b1010 0b000000000101) [] := by decide
/-- R103: `0000 11111111 000000000010`, the fields side by side. -/
theorem test_decode_ref3 :
    decode .reference [0b00001111, 0b11110000, 0b00000010] = .ok (.ref3 0b11111111 0b000000000010) [] := by decide
/-- R104, T12: `11 EE D0 01` has `lenf` 0x1EED and `disp` 1. -/
theorem test_decode_ref4 :
    decode .reference [0b00010001, 0b11101110, 0b11010000, 0b00000001] = .ok (.ref4 0x1EED 1) [] := by decide
/-- R110: `0 011 1010 1011 1100`. -/
theorem test_decode_pixA3rgb4 :
    decode .sample [0b00111010, 0b10111100] = .ok (.pixA3rgb4 0b011 0b1010 0b1011 0b1100) [] := by decide
/-- R111: `1 00000 11111 00001`. -/
theorem test_decode_pixRgb5 :
    decode .sample [0b10000011, 0b11100001] = .ok (.pixRgb5 0b00000 0b11111 0b00001) [] := by decide
/-- R113: blue, green, red, alpha. -/
theorem test_decode_rasterPixel :
    decode .raster [0x57, 0x50, 0x49, 0x6D] = .ok (.rasterPixel 0x57 0x50 0x49 0x6D) [] := by decide
/-- R120: the four command codes. -/
theorem test_decode_commands :
    decode .command [0b00] = .ok .decompress [] ∧ decode .command [0b01] = .ok .compress [] ∧
      decode .command [0b10] = .ok .decodeTileset [] ∧ decode .command [0b11] = .ok .decodeTilesetOpaque [] := by
  decide
/-- R21: `CMD` has two bits. -/
theorem test_decode_no_command : decode .command [4] = .reject .notACommand := by decide
/-- R179: a token whose bytes are missing. -/
theorem test_decode_needs_more : decode .reference [0x10, 0x00, 0x00] = .need 4 := by decide
/-- T3 to T6: the corners of the extended tiers. -/
theorem test_token_corners :
    tokenEncode 17 1 = [0, 0, 0] ∧ tokenEncode 272 4096 = [0x0F, 0xFF, 0xFF] ∧
      tokenEncode 273 1 = [0x10, 0, 0, 0] ∧ tokenEncode 65808 4096 = [0x1F, 0xFF, 0xFF, 0xFF] := by decide
/-- T1, T2, T9: the corners of the compact tier. -/
theorem test_token_compact :
    tokenDecode [0x20, 0x00] = (3, 1) ∧ tokenDecode [0xFF, 0xFF] = (16, 4096) ∧ tokenDecode [0x2F, 0xFF] = (3, 4096) := by
  decide

/-! ### States for the tests -/

/-- The host has written an input and raised `START`. -/
def loaded (cmd : BitVec 2) (inp : List Byte) : State :=
  { State.reset with
    cmd := cmd
    inLen := BitVec.ofNat 32 inp.length
    inp := memWriteN [] 0 inp
    start := true }

/-- Decoder registers; the others are 0. -/
def decRegs (rp wp total nbits : Nat) (d : DState) : LzDecoder :=
  { State.reset.dec with rp := rp, wp := wp, totalLen := total, nbits := nbits, tokStart := rp, dstate := d }

/-- `DECOMPRESS` runs on `inp`, with `out` written so far. -/
def decoding (inp out : List Byte) (d : LzDecoder) : State :=
  { loaded 0 inp with start := false, status := .busy, out := memWriteN [] 0 out, dec := d }

/-- `COMPRESS` runs on `inp`. -/
def encoding (inp : List Byte) (e : LzEncoder) : State :=
  { loaded 1 inp with start := false, status := .busy, enc := e }

/-- Encoder registers; the others are 0. -/
def encRegs (n pos wp cnt len : Nat) : LzEncoder :=
  { State.reset.enc with n := n, pos := pos, wp := wp, grpCnt := cnt, grpLen := len }

/-- `DECODE_TILESET` runs on one tile-row whose first bytes are `inp`, at sample `k`. -/
def drawing (inp : List Byte) (k : Nat) (latch : Option RasterPx) : State :=
  { loaded 2 inp with
    start := false
    status := .busy
    inLen := 8192
    pix := { State.reset.pix with honorAlpha := true, npix := 4096, s := k, latch := latch } }

/-- A check of the next state; false where there is none. -/
def after (o : Host.Outcome State Fault Refusal) (check : State → Bool) : Bool :=
  match o with
  | .next t => check t
  | .fault _ => false
  | .refused _ => false

/-! ### One step each -/

/-- P1, step 1. -/
theorem test_hdr_step : after (step (decoding [0x11, 0x1F, 0, 0, 0x1C] [] (decRegs 0 0 0 0 .hdr)))
    (fun t => t.dec.totalLen == 31 && t.dec.rp == 4 && t.dec.dstate == .ctrl) = true := by decide
/-- F7. -/
theorem test_hdr_bad_tag : after (step (decoding [0x10, 1, 0, 0, 0, 0x41] [] (decRegs 0 0 0 0 .hdr)))
    (fun t => t.status == .err && errCauseCode t.errCause == 4 && t.errOffset == 0) = true := by decide
/-- R172's example. -/
theorem test_hdrx_step : after (step (decoding [0x11, 0, 0, 0, 4, 0, 0, 0, 0x40] [] (decRegs 0 0 0 0 .hdr)))
    (fun t => t.dec.totalLen == 4 && t.dec.rp == 8) = true := by decide
/-- F6. -/
theorem test_hdrx_truncated : after (step (decoding [0x11, 0, 0, 0, 5, 0, 0] [] (decRegs 0 0 0 0 .hdr)))
    (fun t => t.status == .err && errCauseCode t.errCause == 1 && t.errOffset == 0) = true := by decide
/-- P1, step 2. -/
theorem test_ctl_step : after (step (decoding [0x11, 0x1F, 0, 0, 0x1C] [] (decRegs 4 0 31 0 .ctrl)))
    (fun t => t.dec.ctrl == 0b00011100 && t.dec.rp == 5 && t.dec.nbits == 8 && t.dec.dstate == .bit) = true := by
  decide
/-- F8. -/
theorem test_ctl_missing : after (step (decoding [0x11, 1, 0, 0] [] (decRegs 4 0 1 0 .ctrl)))
    (fun t => errCauseCode t.errCause == 2 && t.errOffset == 4) = true := by decide
/-- P1, step 4. -/
theorem test_lit_step : after (step (decoding [0x11, 0x1F, 0, 0, 0x1C, 0, 1] [0] (decRegs 6 1 31 6 .lit)))
    (fun t => memRead t.out 1 == some 1 && t.dec.rp == 7 && t.dec.wp == 2) = true := by decide
/-- F9. -/
theorem test_lit_missing : after (step (decoding [0x11, 1, 0, 0, 0] [] (decRegs 5 0 1 7 .lit)))
    (fun t => errCauseCode t.errCause == 2 && t.errOffset == 5 && t.outLen == 0) = true := by decide
/-- W8: `REF 4,2` is clipped to 3. -/
theorem test_ref2_clipped : after (step (decoding [0x11, 5, 0, 0, 0x20, 0x61, 0x62, 0x30, 1] [0x61, 0x62]
      (decRegs 7 2 5 5 .ref)))
    (fun t => t.dec.refLen == 4 && t.dec.refDist == 2 && t.dec.refLeft == 3 && t.dec.rp == 9) = true := by decide
/-- F18: `REF 3,2` at `wp = 1`. -/
theorem test_ref2_before_start : after (step (decoding [0x11, 4, 0, 0, 0x40, 0x41, 0x20, 1] [0x41] (decRegs 6 1 4 6 .ref)))
    (fun t => errCauseCode t.errCause == 3 && t.errOffset == 6 && t.dec.rp == 8) = true := by decide
/-- W7: `REF 17,3` is clipped to 7. -/
theorem test_ref3_step : after (step (decoding [0x11, 0x0A, 0, 0, 0x10, 0x61, 0x62, 0x63, 0, 0, 2] [0x61, 0x62, 0x63]
      (decRegs 8 3 10 4 .ref)))
    (fun t => t.dec.refLen == 17 && t.dec.refDist == 3 && t.dec.refLeft == 7 && t.dec.rp == 11) = true := by decide
/-- F14: `REF4` needs 4 bytes, 3 are there. -/
theorem test_ref4_truncated : after (step (decoding [0x11, 4, 0, 0, 0x40, 0x41, 0x10, 0, 0] [0x41] (decRegs 6 1 4 6 .ref)))
    (fun t => errCauseCode t.errCause == 2 && t.errOffset == 6) = true := by decide
/-- W12: `REF 287,1`. -/
theorem test_ref4_step : after (step (decoding [0x11, 0x20, 1, 0, 0x40, 0x51, 0x10, 0, 0xE0, 0] [0x51]
      (decRegs 6 1 288 6 .ref)))
    (fun t => t.dec.refLen == 287 && t.dec.refDist == 1 && t.dec.refLeft == 287 && t.dec.rp == 10) = true := by decide
/-- X7: the latched pixel of 0x3ABC. -/
theorem test_pixA3rgb4_step : after (step (drawing [0x3A, 0xBC] 0 none))
    (fun t => t.pix.latch == some ⟨0x57, 0x50, 0x49, 0x6D⟩ && t.pix.r == 170 && t.pix.a == 109) = true := by decide
/-- X2: alpha zero gives black. -/
theorem test_pixA3rgb4_transparent : after (step (drawing [0x0F, 0xFF] 0 none))
    (fun t => t.pix.latch == some ⟨0, 0, 0, 0⟩ && t.pix.g == 255) = true := by decide
/-- X13. -/
theorem test_pixRgb5_step : after (step (drawing [0xFC, 0x00] 0 none))
    (fun t => t.pix.latch == some ⟨0, 0, 0xFF, 0xFF⟩ && t.pix.d == 0xFC00) = true := by decide
/-- X17. -/
theorem test_pixRgb5_grey : after (step (drawing [0xBD, 0xEF] 0 none))
    (fun t => t.pix.latch == some ⟨0x7B, 0x7B, 0x7B, 0xFF⟩) = true := by decide
/-- A5: sample 5 goes to address 4100. -/
theorem test_rasterPixel_step : after (step (drawing [] 5 (some ⟨1, 2, 3, 4⟩)))
    (fun t => memReadN t.out 4100 4 == some [1, 2, 3, 4] && t.pix.s == 6 && t.pix.latch == none) = true := by decide
/-- A10, A11. -/
theorem test_raster_addresses : rasterAddr 4095 = 16380 ∧ rasterAddr 4096 = 16384 ∧ rasterAddr 15 = 12300 := by decide
/-- R37. -/
theorem test_decompress_starts : after (step (loaded 0 [0x11]))
    (fun t => t.status == .busy && t.dec.dstate == .hdr && t.dec.rp == 0) = true := by decide
/-- R23: `START` is ignored while a command runs. -/
theorem test_decompress_ignored :
    after (step { decoding [0x11] [] (decRegs 5 2 9 1 .ctrl) with start := true })
      (fun t => t.status == .busy && t.dec.rp == 5 && t.dec.wp == 2) = true := by decide
/-- R37. -/
theorem test_compress_starts : after (step (loaded 1 [0x41, 0x42]))
    (fun t => t.status == .busy && t.enc.n == 2 && t.enc.wp == 0 && t.idx == []) = true := by decide
/-- V10, P3: at `pos = 3` the token is `REF 9,3` = `80 02`, control bit 4. -/
theorem test_compress_token :
    after (step { encoding [0x61, 0x62, 0x63, 0x61, 0x62, 0x63, 0x61, 0x62, 0x63, 0x61, 0x62, 0x63] (encRegs 12 3 4 3 3) with
        idx := [(0x616263, [0]), (0x626361, [1]), (0x636162, [2])] })
      (fun t => t.enc.bestLen == 9 && t.enc.bestDist == 3 && t.enc.pos == 12 && t.enc.grpCtrl == 0x10 &&
        t.enc.grpBuf.toList.take 5 == [0, 0, 0, 0x80, 0x02] && idxGet t.idx 0x616263 == [9, 6, 3, 0]) = true := by
  decide
/-- R231: 12288 faults at 8192. -/
theorem test_tileset_bad_length : after (step { loaded 2 [] with inLen := 12288 })
    (fun t => errKindCode t.errKind == 2 && errCauseCode t.errCause == 5 && t.errOffset == 8192) = true := by decide
/-- R37. -/
theorem test_tileset_starts : after (step { loaded 2 [] with inLen := 8192 })
    (fun t => t.status == .busy && t.pix.honorAlpha && t.pix.npix == 4096) = true := by decide
/-- R37: `honor_alpha` is 0 for command 3. -/
theorem test_opaque_starts : after (step { loaded 3 [] with inLen := 16384 })
    (fun t => t.status == .busy && !t.pix.honorAlpha && t.pix.npix == 8192) = true := by decide
/-- R231: 8191 faults at 0. -/
theorem test_opaque_bad_length : after (step { loaded 3 [] with inLen := 8191 })
    (fun t => t.status == .err && t.errOffset == 0) = true := by decide

/-! ### The whole functions on the spec's vectors -/

/-- V1: the source's overlap vector. -/
theorem test_whole_compress_overlap :
    compressFn config ([0, 1] ++ List.replicate 6 0 ++ [1] ++ List.replicate 22 0) =
      [0x11, 0x1F, 0, 0, 0x1C, 0, 1, 0, 0x40, 0, 0x60, 6, 0xF0, 0] := by decide
/-- W9: unused control bits and bytes are ignored. -/
theorem test_whole_decompress_stops :
    (match decompressFn config [0x11, 6, 0, 0, 0x28, 0x41, 0x42, 0x20, 1, 0x43, 0x20, 2] with
      | .ok r => r.bytes == [0x41, 0x42, 0x41, 0x42, 0x41, 0x43] && r.rp == 10
      | .error _ => false) = true := by decide

/-! ### Witnesses: states and operands that meet the hypotheses of the statements

One theorem for each statement that has hypotheses, `test_witness_` and its name; the shared states come first. -/

/-- Parameters that are not the default and obey the laws: another tag, tokens of two sizes that all stand for (3, 1), shorter
keys, narrower length registers, and a capacity. -/
def cappedConfig (cap : Option Nat) : Config :=
  { config with
    tag := 0x2A
    tok := { size := fun n => if n = 0 then 2 else 3, decode := fun _ => (3, 1), encode := fun _ _ => [0, 0] }
    window := 1
    maxLen := 3
    keyBytes := 2
    outCap := cap
    inLenBits := 16
    outLenBits := 32 }

/-- `cappedConfig` with the spec's unbounded `OUT`. -/
def tinyConfig : Config := cappedConfig none

theorem cappedConfig_lawful (cap : Option Nat) : (cappedConfig cap).Lawful where
  size_ge n := by simp only [cappedConfig]; split <;> omega
  two_sizes := ⟨0, 1, by simp [cappedConfig]⟩
  decode_encode := by
    rintro l d ⟨h1, h2, h3, h4⟩
    simp only [cappedConfig] at h2 h4 ⊢
    rw [Prod.mk.injEq]
    omega
  size_encode := fun _ _ _ => ⟨0, [0], rfl, rfl⟩
  decode_legal := fun _ _ _ => by simp [cappedConfig, Config.Encodable]
  key_pos := by simp [cappedConfig]
  key_le := by simp [cappedConfig]
  command_code := fun k => by cases k <;> rfl
  code_command := by change ∀ v, codeOfCommand (commandOfCode v) = v; decide
  status_code := by change ∀ x y, statusCode x = statusCode y → x = y; intro x y; cases x <;> cases y <;> decide
  kind_code := by change ∀ x y, errKindCode x = errKindCode y → x = y; intro x y; cases x <;> cases y <;> decide
  cause_code := by change ∀ x y, errCauseCode x = errCauseCode y → x = y; intro x y; cases x <;> cases y <;> decide
  inLen_le := by simp [cappedConfig]
  outLen_le := by simp [cappedConfig]
  outLen_ge := by simp [cappedConfig]
  outLen_gt := by simp [cappedConfig]

theorem cappedConfig_buffered (cap : Option Nat) : (cappedConfig cap).Buffered := by
  intro n; simp only [cappedConfig]; split <;> omega

theorem cappedConfig_compact (cap : Option Nat) : (cappedConfig cap).Compact := fun _ _ h => Nat.le_of_succ_le h.1

theorem tinyConfig_lawful : tinyConfig.Lawful := cappedConfig_lawful none

theorem tinyConfig_buffered : tinyConfig.Buffered := cappedConfig_buffered none

/-- The state before the host's `START`: the input is written and nothing is raised. -/
def waiting (cmd : BitVec 2) (inp : List Byte) : State := { loaded cmd inp with start := false }

theorem waiting_ready (c : Config) {cmd : BitVec 2} {k : Command} (inp : List Byte) (hk : c.commandOf cmd = k)
    (hl : inp.length < 2 ^ c.inLenBits) (h : inp.length < 2 ^ 32) (hf : fitsCapacity c (waiting cmd inp) = true) :
    Ready c k inp (waiting cmd inp) := by
  refine ⟨by simp [waiting, loaded, State.reset], hk, ⟨?_, ?_⟩, hl, hf⟩
  · simp only [waiting, loaded, BitVec.toNat_ofNat]
    exact Nat.mod_eq_of_lt h
  · refine memReadN_of_memRead (memWf_memWriteN rfl 0 inp) fun i hi => ?_
    simp only [memRead_memWriteN, Nat.zero_add]
    rw [if_pos ⟨Nat.zero_le _, hi⟩, Nat.sub_zero]

theorem loaded_inv (c : Config) (cmd : BitVec 2) (inp : List Byte) (h : inp.length < 2 ^ c.inLenBits) :
    BlockInv c (loaded cmd inp) where
  inWf := memWf_memWriteN rfl 0 inp
  outWf := rfl
  idxWf := rfl
  widths := ⟨(Nat.mod_le ..).trans_lt h, Nat.two_pow_pos _⟩
  kind := rfl
  cause := by simp [loaded, State.reset]
  noResult := fun _ => rfl
  dead := fun _ => rfl
  result := by simp [loaded, State.reset]
  ended := fun _ => rfl
  engine := by simp [loaded, State.reset]

theorem waiting_inv (c : Config) (cmd : BitVec 2) (inp : List Byte) (h : inp.length < 2 ^ c.inLenBits) :
    BlockInv c (waiting cmd inp) := by
  have := loaded_inv c cmd inp h
  exact ⟨this.1, this.2, this.3, this.4, this.5, this.6, this.7, this.8, this.9, this.10, nofun⟩

theorem decoding_inv (c : Config) (inp out : List Byte) (d : LzDecoder) (hk : c.commandOf 0 = .decompress)
    (hl : inp.length < 2 ^ c.inLenBits) (h : DecInv c (decoding inp out d)) : BlockInv c (decoding inp out d) where
  inWf := memWf_memWriteN rfl 0 inp
  outWf := memWf_memWriteN rfl 0 out
  idxWf := rfl
  widths := ⟨(Nat.mod_le ..).trans_lt hl, Nat.two_pow_pos _⟩
  kind := rfl
  cause := by simp [decoding, loaded, State.reset]
  noResult := fun _ => rfl
  dead := by simp [decoding]
  result := by simp [decoding]
  ended := by
    rintro (h | h)
    · exact absurd rfl h
    · exact absurd hk h
  engine := fun _ => by
    have he : engineOfCmd c (decoding inp out d).cmd = .lzDecoder := congrArg engineOf hk
    rw [EngineInv, he]
    exact h

/-- The decoder at the loop head, with nothing written yet and the cursor at `IN_LEN`. -/
theorem ctrl_inv : BlockInv config (decoding [0x11, 1, 0, 0] [] (decRegs 4 0 1 0 .ctrl)) :=
  decoding_inv _ _ _ _ rfl (by decide) (by constructor <;> first | decide | (unfold OutFilled; decide))

/-- The same under other parameters. -/
theorem ctrl_inv_tiny : BlockInv tinyConfig (decoding [0x2A, 1, 0, 0] [] (decRegs 4 0 1 0 .ctrl)) :=
  decoding_inv _ _ _ _ rfl (by decide) (by constructor <;> first | decide | (unfold OutFilled; decide))

/-- The decoder at a literal that is missing. -/
theorem lit_inv : BlockInv config (decoding [0x11, 1, 0, 0, 0] [] (decRegs 5 0 1 7 .lit)) :=
  decoding_inv _ _ _ _ rfl (by decide) (by constructor <;> first | decide | (unfold OutFilled; decide))

/-- The decoder at a token of which nothing is there. -/
theorem ref_inv : BlockInv config (decoding [0x11, 1, 0, 0, 0x80] [] (decRegs 5 0 1 7 .ref)) :=
  decoding_inv _ _ _ _ rfl (by decide) (by constructor <;> first | decide | (unfold OutFilled; decide))

/-- The decoder at a token of which all but the last byte are there. -/
theorem ref_cut_inv : BlockInv config (decoding [0x11, 4, 0, 0, 0x40, 0x41, 0x10, 0, 0] [0x41] (decRegs 6 1 4 6 .ref)) :=
  decoding_inv _ _ _ _ rfl (by decide) (by constructor <;> first | decide | (unfold OutFilled; decide))

/-- The same bytes under other parameters: a token of 3 bytes, all there. -/
theorem ref_inv_tiny :
    BlockInv tinyConfig (decoding [0x2A, 4, 0, 0, 0x40, 0x41, 0x10, 0, 0] [0x41] (decRegs 6 1 4 6 .ref)) :=
  decoding_inv _ _ _ _ rfl (by decide) (by constructor <;> first | decide | (unfold OutFilled; decide))

/-! #### The parameters reach the step (R6, R99, R100) -/

/-- Another tag, and the default tag refused. -/
theorem test_step_takes_the_tag :
    after (stepWith tinyConfig (decoding [0x2A, 5, 0, 0] [] (decRegs 0 0 0 0 .hdr))) (fun t => t.dec.totalLen == 5) = true ∧
      after (stepWith tinyConfig (decoding [0x11, 5, 0, 0] [] (decRegs 0 0 0 0 .hdr)))
        (fun t => t.errCause == .badTag) = true := by decide

/-- Another token coding: 3 bytes that stand for (3, 1). -/
theorem test_step_takes_the_token_coding :
    after (stepWith tinyConfig (decoding [0x2A, 4, 0, 0, 0x40, 0x41, 0x10, 0, 0] [0x41] (decRegs 6 1 4 6 .ref)))
      (fun t => t.dec.rp == 9 && t.dec.refLen == 3 && t.dec.refDist == 1) = true := by decide

/-- Other command codes: `CMD` = 3 is `DECOMPRESS`. -/
theorem test_step_takes_the_command_codes :
    after (hostStart { config with commandOf := fun v => commandOfCode (~~~v) } (waiting 3 [0x11]))
      (fun t => t.status == .busy && t.dec.dstate == .hdr) = true := by decide

/-- R23, R316: `START` after `DONE` is `BUSY` at once; the old outcome is gone and nothing is left raised. -/
theorem test_start_is_busy_at_once :
    after (hostStart config { waiting 0 [0x11] with status := .done, outLen := 1, out := [(0, 7)] })
      (fun t => t.status == .busy && t.outLen == 0 && hostReadOut 0 t == none && !t.start &&
        hostReadReg config .status t == some 1 && hostReadReg config .outLen t == none) = true := by decide

/-- R309: with a finite `OUT_CAP` a launch whose header says more is refused; old bytes beyond `IN_LEN` do not count, nor does
a header with another tag. -/
theorem test_capacity_reads_the_header :
    hostStart { config with outCap := some 4 } (waiting 0 [0x11, 5, 0, 0]) = .refused .outCapacity ∧
      after (hostStart { config with outCap := some 4 } { waiting 0 [0x11, 5, 0, 0] with inLen := 3 })
        (fun t => t.status == .busy) = true ∧
      after (hostStart { config with outCap := some 4 } (waiting 0 [0x10, 5, 0, 0])) (fun t => t.status == .busy) = true ∧
      after (hostStart { config with outCap := some 4 } (waiting 0 [0x11, 4, 0, 0])) (fun t => t.status == .busy) = true :=
  ⟨rfl, by decide, by decide, by decide⟩

/-! #### The invariant and the frame -/

theorem test_witness_StepKeepsInvariant :
    (∃ c s t, c.Lawful ∧ c.Buffered ∧ BlockInv c s ∧ stepWith c s = .next t ∧ t ≠ s) ∧
      ∃ s t, BlockInv config s ∧ step s = .next t ∧ t ≠ s :=
  ⟨⟨_, _, _, tinyConfig_lawful, tinyConfig_buffered, ref_inv_tiny, rfl, by decide⟩, ⟨_, _, ctrl_inv, rfl, by decide⟩⟩

theorem test_witness_HostMovesKeepInvariant :
    BlockInv config (waiting 0 [0x11]) ∧ (waiting 0 [0x11]).start = false ∧
      (∃ t, hostWriteReg config .cmd 3 (waiting 0 [0x11]) = .next t) ∧
      (∃ t, hostWriteIn 5 7 (waiting 0 [0x11]) = .next t) ∧ ∃ t, hostStart config (waiting 0 [0x11]) = .next t :=
  ⟨waiting_inv _ _ _ (by decide), rfl, ⟨_, rfl⟩, ⟨_, rfl⟩, ⟨_, rfl⟩⟩

theorem test_witness_InvariantRulesOutStrayStops :
    (∃ s, BlockInv config s ∧ s.status = .busy) ∧ ∃ s, BlockInv tinyConfig s ∧ s.status = .busy :=
  ⟨⟨_, ref_cut_inv, rfl⟩, ⟨_, ref_inv_tiny, rfl⟩⟩

theorem test_witness_InputIsNeverChangedByTheBlock :
    (∃ s t, stepWith config s = .next t ∧ t ≠ s) ∧ (∃ s t, hostStart config s = .next t ∧ t ≠ s) ∧
      ∃ s : State, s.status = .busy :=
  ⟨⟨loaded 0 [0x11], _, rfl, by decide⟩, ⟨waiting 0 [0x11], _, rfl, by decide⟩, ⟨drawing [] 0 none, rfl⟩⟩

theorem test_witness_StepReadsNoByteBeyondTheInput :
    ∃ s m, BlockInv config s ∧ memWf m = true ∧ (∀ a, a < s.inLen.toNat → memRead m a = memRead s.inp a) ∧ m ≠ s.inp ∧
      ∃ t, stepWith config s = .next t :=
  ⟨_, memWrite (decoding [0x11, 1, 0, 0] [] (decRegs 4 0 1 0 .ctrl)).inp 9 5, ctrl_inv, by decide, by decide, by decide,
    ⟨_, rfl⟩⟩

/-- A stream item for each kind of position. -/
theorem test_witness_StepRunsTheDecodedInstruction_items :
    (∃ s, FetchPoint s .header 0 ∧ 8 ≤ s.inLen.toNat ∧ memReadN s.inp 0 8 = some (encode (.hdrx 5))) ∧
    (∃ s, FetchPoint s .control 4 ∧ 5 ≤ s.inLen.toNat ∧ memReadN s.inp 4 1 = some (encode (.ctl 0x80))) ∧
    (∃ s, FetchPoint s .literal 5 ∧ 6 ≤ s.inLen.toNat ∧ memReadN s.inp 5 1 = some (encode (.lit 0x41))) ∧
    (∃ s, FetchPoint s .reference 6 ∧ 8 ≤ s.inLen.toNat ∧ memReadN s.inp 6 2 = some (encode (.ref2 2 0))) ∧
    ∃ s, FetchPoint s .sample 0 ∧ 2 ≤ s.inLen.toNat ∧ memReadN s.inp 0 2 = some (encode (.pixRgb5 31 0 0)) :=
  ⟨⟨decoding [0x11, 0, 0, 0, 5, 0, 0, 0] [] (decRegs 0 0 0 0 .hdr),
      .inl ⟨⟨rfl, rfl, rfl, rfl⟩, rfl, rfl⟩, by decide, by decide⟩,
    ⟨decoding [0x11, 1, 0, 0, 0x80] [] (decRegs 4 0 1 0 .ctrl),
      .inr (.inl ⟨⟨rfl, rfl, rfl, rfl⟩, by decide, rfl, rfl, rfl⟩), by decide, by decide⟩,
    ⟨decoding [0x11, 1, 0, 0, 0, 0x41] [] (decRegs 5 0 1 7 .lit),
      .inr (.inr (.inl ⟨⟨rfl, rfl, rfl, rfl⟩, rfl, rfl⟩)), by decide, by decide⟩,
    ⟨decoding [0x11, 4, 0, 0, 0x40, 0x41, 0x20, 0] [0x41] (decRegs 6 1 4 6 .ref),
      .inr (.inr (.inr (.inl ⟨⟨rfl, rfl, rfl, rfl⟩, rfl, rfl⟩))), by decide, by decide⟩,
    ⟨drawing [0xFC, 0x00] 0 none,
      .inr (.inr (.inr (.inr ⟨⟨rfl, rfl, .inl rfl⟩, rfl, by decide, rfl, rfl⟩))), by decide, by decide⟩⟩

theorem test_witness_StepRunsTheDecodedInstruction_others :
    (∃ s : State, s.start = true) ∧ ∃ s, ∃ p : RasterPx, PixelsRun s ∧ s.pix.latch = some p :=
  ⟨⟨loaded 3 [], rfl⟩, ⟨drawing [] 5 (some ⟨1, 2, 3, 4⟩), ⟨1, 2, 3, 4⟩, ⟨rfl, rfl, .inl rfl⟩, rfl⟩⟩

/-! #### Encoding -/

theorem test_witness_DecodeOfEncodeIsTheInstruction : (Instr.ref2 2 4095).wellFormed = true := by decide

theorem test_witness_EncodeOfDecodeIsTheBytes :
    ∃ i rest, decode .reference [0x10, 0, 0, 0, 0xFF] = .ok i rest := ⟨_, _, rfl⟩

/-! #### Stream items -/

theorem test_witness_ReferenceLoadsTheCopy :
    ∃ s : State, s.dec.wp = 4096 ∧ RefFields (.ref2 2 4095) 2 3 4096 ∧ RefFields (.ref3 0 4095) 3 17 4096 ∧
      RefFields (.ref4 0 4095) 4 273 4096 :=
  ⟨decoding [] [] (decRegs 6 4096 5000 6 .ref), rfl, .ref2 2 4095, .ref3 0 4095, .ref4 0 4095⟩

theorem test_witness_ReferenceBeforeStartFaults :
    ∃ s : State, s.dec.wp < 2 ∧ s.dec.tokStart < 2 ^ 32 ∧ RefFields (.ref2 2 1) 2 3 2 ∧ RefFields (.ref3 0 1) 3 17 2 ∧
      RefFields (.ref4 0 1) 4 273 2 :=
  ⟨decoding [] [0x41] (decRegs 6 1 4 6 .ref), by decide, by decide, .ref2 2 1, .ref3 0 1, .ref4 0 1⟩

theorem test_witness_ReferenceRepeatsThePeriod :
    ∃ s : State, RefFields (.ref2 3 1) 2 4 2 ∧ s.start = false ∧ s.status = .busy ∧ s.cmd = 0 ∧ 2 ≤ s.dec.wp ∧
      (∀ a, a < s.dec.wp → (memRead s.out a).isSome) ∧ 0 < min 4 (s.dec.totalLen - s.dec.wp) :=
  ⟨decoding [] [0x61, 0x62] (decRegs 7 2 5 5 .ref), .ref2 3 1, rfl, rfl, rfl, by decide, by decide, by decide⟩

theorem test_witness_ControlBitSelectsTheToken :
    (∃ s, DecoderAt s .bit ∧ s.dec.ctrl.toNat = 127) ∧ ∃ s, DecoderAt s .bit ∧ s.dec.ctrl.toNat = 128 :=
  ⟨⟨decoding [] [] { decRegs 5 0 3 8 .bit with ctrl := 127 }, ⟨rfl, rfl, rfl, rfl⟩, rfl⟩,
    ⟨decoding [] [] { decRegs 5 0 3 8 .bit with ctrl := 128 }, ⟨rfl, rfl, rfl, rfl⟩, rfl⟩⟩

theorem test_witness_DecoderStopsAtTotalLength :
    (∃ s, DecoderAt s .ctrl ∧ s.dec.wp = s.dec.totalLen ∧ s.dec.totalLen < 2 ^ 32 ∧ s.dec.nbits ≠ 0) ∧
      ∃ s, DecoderAt s .ctrl ∧ s.dec.wp ≠ s.dec.totalLen ∧ s.dec.nbits ≠ 0 :=
  ⟨⟨decoding [] [] (decRegs 5 4 4 3 .ctrl), ⟨rfl, rfl, rfl, rfl⟩, rfl, by decide, by decide⟩,
    ⟨decoding [] [] (decRegs 5 3 4 1 .ctrl), ⟨rfl, rfl, rfl, rfl⟩, by decide, by decide⟩⟩

/-- F3, F7, R171 and F6 and R172, with the lengths where the clauses meet: 3, 4, 7 and 8 bytes. -/
theorem test_witness_HeaderIsCheckedInOrder :
    (∃ s, DecoderAt s .hdr ∧ s.inLen.toNat = 3) ∧
    (∃ s, DecoderAt s .hdr ∧ 4 ≤ s.inLen.toNat ∧ memReadN s.inp 0 4 = some [0x10, 1, 0, 0] ∧ (0x10 : Byte) ≠ tagByte) ∧
    (∃ s, DecoderAt s .hdr ∧ s.inLen.toNat = 4 ∧ memReadN s.inp 0 4 = some [tagByte, 0xFF, 0xFF, 0xFF]) ∧
    (∃ s, DecoderAt s .hdr ∧ s.inLen.toNat = 7 ∧ memReadN s.inp 0 4 = some [tagByte, 0, 0, 0]) ∧
    ∃ s, DecoderAt s .hdr ∧ s.inLen.toNat = 8 ∧ memReadN s.inp 0 8 = some [tagByte, 0, 0, 0, 0xFF, 0xFF, 0xFF, 0xFF] :=
  ⟨⟨decoding [0x11, 5, 0] [] (decRegs 0 0 0 0 .hdr), ⟨rfl, rfl, rfl, rfl⟩, by decide⟩,
    ⟨decoding [0x10, 1, 0, 0] [] (decRegs 0 0 0 0 .hdr), ⟨rfl, rfl, rfl, rfl⟩, by decide, by decide, by decide⟩,
    ⟨decoding [0x11, 0xFF, 0xFF, 0xFF] [] (decRegs 0 0 0 0 .hdr), ⟨rfl, rfl, rfl, rfl⟩, by decide, by decide⟩,
    ⟨decoding [0x11, 0, 0, 0, 5, 0, 0] [] (decRegs 0 0 0 0 .hdr), ⟨rfl, rfl, rfl, rfl⟩, by decide, by decide⟩,
    ⟨decoding [0x11, 0, 0, 0, 0xFF, 0xFF, 0xFF, 0xFF] [] (decRegs 0 0 0 0 .hdr), ⟨rfl, rfl, rfl, rfl⟩, by decide,
      by decide⟩⟩

theorem test_witness_MissingItemBytesFault :
    (∃ s, BlockInv config s ∧ DecoderAt s .ctrl ∧ s.dec.wp ≠ s.dec.totalLen ∧ s.dec.nbits = 0 ∧ s.inLen.toNat ≤ s.dec.rp) ∧
    (∃ s, BlockInv config s ∧ DecoderAt s .lit ∧ s.inLen.toNat ≤ s.dec.rp) ∧
    (∃ s, BlockInv config s ∧ DecoderAt s .ref ∧ s.inLen.toNat ≤ s.dec.rp) ∧
    ∃ s, BlockInv config s ∧ DecoderAt s .ref ∧ s.dec.rp < s.inLen.toNat ∧ memReadN s.inp s.dec.rp 1 = some [0x10] ∧
      s.inLen.toNat < s.dec.rp + tokenSizeOfNibble ((0x10 : Byte).toNat / 16) :=
  ⟨⟨_, ctrl_inv, ⟨rfl, rfl, rfl, rfl⟩, by decide, rfl, by decide⟩, ⟨_, lit_inv, ⟨rfl, rfl, rfl, rfl⟩, by decide⟩,
    ⟨_, ref_inv, ⟨rfl, rfl, rfl, rfl⟩, by decide⟩,
    ⟨_, ref_cut_inv, ⟨rfl, rfl, rfl, rfl⟩, by decide, by decide, by decide⟩⟩

/-! #### Samples and raster pixels -/

theorem test_witness_PixA3rgb4UnpacksItsSample :
    (∃ s : State, s.pix.honorAlpha = false) ∧ (∃ s : State, s.pix.honorAlpha = true) ∧ (1 : BitVec 3) ≠ 0 :=
  ⟨⟨State.reset, rfl⟩, ⟨drawing [] 0 none, rfl⟩, by decide⟩

theorem test_witness_PixelDecoderCompletes :
    ∃ s, PixelsRun s ∧ s.pix.latch = none ∧ s.pix.s = s.pix.npix ∧ s.inLen = 8192 :=
  ⟨drawing [] 4096 none, ⟨rfl, rfl, .inl rfl⟩, rfl, rfl, rfl⟩

/-- The last transparent sample, the first that is not, and the last of all. -/
theorem test_witness_ZeroAlphaGivesTransparentBlack :
    (unpackSample 0x0FFF).a = 0 ∧ (unpackSample 0x1000).a = 36 ∧ (unpackSample 0xFFFF).a = 255 := by decide

theorem test_witness_TranslatorPermutesThePixels : (8192 : Nat) % 4096 = 0 ∧ rasterIndex 8191 < 8192 := by decide

/-! #### Commands -/

theorem test_witness_DecompressBegins : ∃ s : State, s.status ≠ .busy ∧ s.dec.rp = 9 :=
  ⟨{ State.reset with dec := decRegs 9 8 7 6 .ended }, by decide, rfl⟩

theorem test_witness_CompressBegins : ∃ s : State, s.status ≠ .busy ∧ s.idx ≠ [] :=
  ⟨{ loaded 1 [0x41] with idx := [(5, [4])] }, by decide, by decide⟩

theorem test_witness_PixelCommandsBegin :
    (∃ s : State, s.status ≠ .busy ∧ s.inLen.toNat % 8192 = 0 ∧ s.inLen = 0) ∧
      ∃ s : State, s.status ≠ .busy ∧ s.inLen.toNat % 8192 = 0 ∧ s.inLen = 8192 :=
  ⟨⟨State.reset, by decide, by decide, rfl⟩, ⟨{ loaded 2 [] with inLen := 8192 }, by decide, by decide, rfl⟩⟩

theorem test_witness_BadLengthFaults :
    (∃ s : State, s.status ≠ .busy ∧ s.inLen.toNat % 8192 ≠ 0 ∧ s.inLen = 8191) ∧
      ∃ s : State, s.status ≠ .busy ∧ s.inLen.toNat % 8192 ≠ 0 ∧ s.inLen = 8193 :=
  ⟨⟨{ loaded 2 [] with inLen := 8191 }, by decide, by decide, rfl⟩,
    ⟨{ loaded 3 [] with inLen := 8193 }, by decide, by decide, rfl⟩⟩

theorem test_witness_StartIsIgnoredWhileBusy :
    (∃ s : State, s.status = .busy ∧ s.start = true ∧ Instr.compress.ctx = .command) ∧
      ∃ s : State, s.status = .busy ∧ s.start = false :=
  ⟨⟨{ drawing [] 3 none with start := true }, rfl, rfl, rfl⟩, ⟨drawing [] 3 none, rfl, rfl⟩⟩

theorem test_witness_RaiseRecordsTheFault :
    (4294967295 : Nat) < 2 ^ 32 ∧ (raise .badLength 4294967295 State.reset).errOffset = 4294967295 := by decide

/-- A fault of `DECOMPRESS` from a running state, and one of a pixel command at its `START`. -/
theorem test_witness_EachCommandRaisesItsOwnFaults :
    (∃ s t, BlockInv config s ∧ s.status = .busy ∧ stepWith config s = .next t ∧ t.status = .err ∧ s.cmd = 0) ∧
      ∃ s t, BlockInv config s ∧ hostStart config s = .next t ∧ t.status = .err ∧ s.cmd = 2 :=
  ⟨⟨_, _, ctrl_inv, rfl, rfl, rfl, rfl⟩, ⟨_, _, waiting_inv config 2 [7] (by decide), rfl, rfl, rfl⟩⟩

theorem test_witness_FaultOffsetIsWithinTheInput :
    ∃ s t, BlockInv config s ∧ s.status = .busy ∧ stepWith config s = .next t ∧ t.status = .err ∧ t.errOffset = 4 :=
  ⟨_, _, ctrl_inv, rfl, rfl, rfl, rfl⟩

theorem test_witness_OutcomeLastsUntilTheNextStart :
    ∃ s : State, s.start = false ∧ s.status ≠ .busy ∧ s.status = .err ∧ s.errCause = .badTag :=
  ⟨raise .badTag 0 State.reset, rfl, by decide, rfl, rfl⟩

/-! #### The match index and the search -/

/-- R204's example: `p = 2`, `pos = 3`, length 5. -/
theorem test_witness_MatchLengthIsTheLongestRun :
    (2 : Nat) < 3 ∧ (3 : Nat) ≤ ([0, 1, 0, 0, 0, 0, 0, 0, 1] : List Byte).length ∧
      matchLen config [0, 1, 0, 0, 0, 0, 0, 0, 1] 2 3 = 5 := by decide

/-- V23 at `pos = 8`: candidates 4 and 0, both of length 3; the nearer one wins. -/
theorem test_witness_SearchTakesLongestThenNearest :
    ([4, 0] : List Nat).Pairwise (fun p q => q < p) ∧ (∀ p ∈ ([4, 0] : List Nat), p < 8) ∧
      searchMatch config [0x61, 0x62, 0x63, 0x58, 0x61, 0x62, 0x63, 0x59, 0x61, 0x62, 0x63] 8 0 [4, 0] = (3, 4) := by
  decide

theorem test_witness_IndexChoosesAsExhaustiveSearch :
    config.keyBytes ≤ 3 ∧ tinyConfig.keyBytes ≤ 3 ∧ (3 : Nat) < ([0x41, 0x41, 0x41, 0x41] : List Byte).length := by decide

/-! #### The encoder's own steps -/

theorem test_witness_EncoderWritesTheHeaderFirst :
    (∃ s, EncoderRuns s ∧ s.enc.wp = 0 ∧ s.enc.n = 0) ∧ (∃ s, EncoderRuns s ∧ s.enc.wp = 0 ∧ s.enc.n = 2 ^ 24 - 1) ∧
      ∃ s, EncoderRuns s ∧ s.enc.wp = 0 ∧ s.enc.n = 2 ^ 24 :=
  ⟨⟨encoding [] (encRegs 0 0 0 0 0), ⟨rfl, rfl, rfl⟩, rfl, rfl⟩,
    ⟨encoding [] (encRegs 16777215 0 0 0 0), ⟨rfl, rfl, rfl⟩, rfl, rfl⟩,
    ⟨encoding [] (encRegs 16777216 0 0 0 0), ⟨rfl, rfl, rfl⟩, rfl, rfl⟩⟩

theorem test_witness_EncoderFlushesTheGroup :
    (∃ s, EncoderRuns s ∧ s.enc.wp ≠ 0 ∧ s.enc.grpLen ≤ 32 ∧ s.enc.grpCnt = 8) ∧
      ∃ s, EncoderRuns s ∧ s.enc.wp ≠ 0 ∧ s.enc.grpLen ≤ 32 ∧ s.enc.pos = s.enc.n ∧ 0 < s.enc.grpCnt :=
  ⟨⟨encoding [] (encRegs 9 8 4 8 32), ⟨rfl, rfl, rfl⟩, by decide, by decide, rfl⟩,
    ⟨encoding [] (encRegs 9 9 13 1 1), ⟨rfl, rfl, rfl⟩, by decide, by decide, rfl, by decide⟩⟩

theorem test_witness_EncoderEmitsOneToken :
    ∃ s inp, EncoderRuns s ∧ s.enc.wp ≠ 0 ∧ s.enc.grpCnt < 8 ∧ s.enc.pos < s.enc.n ∧ s.enc.grpLen + 4 ≤ 32 ∧
      memReadN s.inp 0 s.enc.n = some inp :=
  ⟨encoding [0x41, 0x41] (encRegs 2 1 4 7 28), [0x41, 0x41], ⟨rfl, rfl, rfl⟩, by decide, by decide, by decide, by decide,
    by decide⟩

theorem test_witness_EncoderCompletes :
    ∃ s, EncoderRuns s ∧ s.enc.wp ≠ 0 ∧ s.enc.wp < 2 ^ 33 ∧ s.enc.pos = s.enc.n ∧ s.enc.grpCnt = 0 :=
  ⟨encoding [] (encRegs 0 0 8 0 0), ⟨rfl, rfl, rfl⟩, by decide, by decide, rfl, rfl⟩

/-! #### The commands as a whole

Each with the default parameters, and with others that are lawful. -/

/-- W3, which succeeds, and F17, which faults; the same under other parameters, with their tag and their tokens. -/
theorem test_witness_DecompressReachesTheWholeFunction :
    Ready config .decompress [0x11, 4, 0, 0, 0x40, 0x41, 0x20, 0] (waiting 0 [0x11, 4, 0, 0, 0x40, 0x41, 0x20, 0]) ∧
      decompressFn config [0x11, 4, 0, 0, 0x40, 0x41, 0x20, 0] = .ok { bytes := [0x41, 0x41, 0x41, 0x41], rp := 8 } ∧
      Ready config .decompress [0x11, 3, 0, 0, 0x80, 0x20, 0] (waiting 0 [0x11, 3, 0, 0, 0x80, 0x20, 0]) ∧
      decompressFn config [0x11, 3, 0, 0, 0x80, 0x20, 0] = .error (.refBeforeStart, 5) ∧
      tinyConfig.Lawful ∧
      Ready tinyConfig .decompress [0x2A, 4, 0, 0, 0x40, 0x41, 0, 0] (waiting 0 [0x2A, 4, 0, 0, 0x40, 0x41, 0, 0]) ∧
      decompressFn tinyConfig [0x2A, 4, 0, 0, 0x40, 0x41, 0, 0] = .ok { bytes := [0x41, 0x41, 0x41, 0x41], rp := 8 } :=
  ⟨waiting_ready _ _ rfl (by decide) (by decide) rfl, rfl, waiting_ready _ _ rfl (by decide) (by decide) rfl, rfl,
    tinyConfig_lawful, waiting_ready _ _ rfl (by decide) (by decide) rfl, rfl⟩

theorem test_witness_CompressReachesTheWholeFunction :
    Ready config .compress [0x41, 0x41, 0x41, 0x41] (waiting 1 [0x41, 0x41, 0x41, 0x41]) ∧ tinyConfig.Lawful ∧
      tinyConfig.Buffered ∧ Ready tinyConfig .compress [0x41, 0x41, 0x41, 0x41] (waiting 1 [0x41, 0x41, 0x41, 0x41]) :=
  ⟨waiting_ready _ _ rfl (by decide) (by decide) rfl, tinyConfig_lawful, tinyConfig_buffered,
    waiting_ready _ _ rfl (by decide) (by decide) rfl⟩

/-- A pixel command is ready on a whole tile-row of one byte, under lawful parameters. -/
theorem row_ready (v : Byte) :
    Ready tinyConfig .decodeTileset (List.replicate 8192 v) (waiting 2 (List.replicate 8192 v)) ∧
      Ready tinyConfig .decodeTilesetOpaque (List.replicate 8192 v) (waiting 3 (List.replicate 8192 v)) :=
  ⟨waiting_ready _ _ rfl (by rw [List.length_replicate]; decide) (by rw [List.length_replicate]; decide) rfl,
    waiting_ready _ _ rfl (by rw [List.length_replicate]; decide) (by rw [List.length_replicate]; decide) rfl⟩

/-- A whole tile-row of X6's sample, under both commands, and a length that faults. -/
theorem test_witness_PixelCommandsReachTheWholeFunction :
    tinyConfig.Lawful ∧
      Ready tinyConfig .decodeTileset (List.replicate 8192 0x4F) (waiting 2 (List.replicate 8192 0x4F)) ∧
      Ready tinyConfig .decodeTilesetOpaque (List.replicate 8192 0x4F) (waiting 3 (List.replicate 8192 0x4F)) ∧
      Ready tinyConfig .decodeTileset [7] (waiting 2 [7]) :=
  ⟨tinyConfig_lawful, (row_ready _).1, (row_ready _).2, waiting_ready _ _ rfl (by decide) (by decide) rfl⟩

theorem test_witness_RasterIsTheDetiledImage :
    tinyConfig.Lawful ∧
      Ready tinyConfig .decodeTileset (List.replicate 8192 0x4F) (waiting 2 (List.replicate 8192 0x4F)) ∧
      (List.replicate 8192 (0x4F : Byte)).length % 8192 = 0 :=
  ⟨tinyConfig_lawful, (row_ready _).1, by rw [List.length_replicate]⟩

theorem test_witness_PixelCommandsDifferOnlyInAlpha :
    tinyConfig.Lawful ∧
      Ready tinyConfig .decodeTileset (List.replicate 8192 0x8F) (waiting 2 (List.replicate 8192 0x8F)) ∧
      Ready tinyConfig .decodeTilesetOpaque (List.replicate 8192 0x8F) (waiting 3 (List.replicate 8192 0x8F)) :=
  ⟨tinyConfig_lawful, (row_ready _).1, (row_ready _).2⟩

theorem test_witness_DecompressInvertsCompress :
    tinyConfig.Lawful ∧ ([0x41, 0x41, 0x41, 0x41] : List Byte).length ≤ 2 ^ 32 - 1 :=
  ⟨tinyConfig_lawful, by decide⟩

theorem test_witness_MachineRoundTrip :
    tinyConfig.Lawful ∧ tinyConfig.Buffered ∧
      Ready tinyConfig .compress [0x41, 0x41, 0x41, 0x41] (waiting 1 [0x41, 0x41, 0x41, 0x41]) ∧
      Ready tinyConfig .decompress (compressFn tinyConfig [0x41, 0x41, 0x41, 0x41])
        (waiting 0 (compressFn tinyConfig [0x41, 0x41, 0x41, 0x41])) :=
  ⟨tinyConfig_lawful, tinyConfig_buffered, waiting_ready _ _ rfl (by decide) (by decide) rfl,
    waiting_ready _ _ rfl (by decide) (by decide) rfl⟩

theorem test_witness_CompressedSizeIsBounded : tinyConfig.Compact := cappedConfig_compact none

/-- Two states that agree on the input and on little else. -/
theorem test_witness_OutcomeDependsOnTheInputAlone :
    tinyConfig.Lawful ∧ tinyConfig.Buffered ∧ Ready tinyConfig .compress [0x41] (waiting 1 [0x41]) ∧
      Ready tinyConfig .compress [0x41] { waiting 1 [0x41] with idx := [(5, [4])], out := [(0, 9)], status := .err } :=
  ⟨tinyConfig_lawful, tinyConfig_buffered, waiting_ready _ _ rfl (by decide) (by decide) rfl, by decide, rfl,
    ⟨by decide, by decide⟩, by decide, rfl⟩

/-- A raised `START`, a running command, and a `START` of the host's. -/
theorem test_witness_EveryCommandEnds :
    tinyConfig.Lawful ∧ tinyConfig.Buffered ∧
      (BlockInv tinyConfig (loaded 1 [0x41]) ∧ (loaded 1 [0x41]).start = true ∧ InputIs (loaded 1 [0x41]) [0x41]) ∧
      (∃ s, BlockInv tinyConfig s ∧ s.status = .busy ∧ InputIs s [0x2A, 4, 0, 0, 0x40, 0x41, 0x10, 0, 0]) ∧
      ∃ t, BlockInv tinyConfig (waiting 1 [0x41]) ∧ InputIs (waiting 1 [0x41]) [0x41] ∧
        hostStart tinyConfig (waiting 1 [0x41]) = .next t :=
  ⟨tinyConfig_lawful, tinyConfig_buffered, ⟨loaded_inv _ _ _ (by decide), rfl, by decide, by decide⟩,
    ⟨_, ref_inv_tiny, rfl, by decide, by decide⟩, ⟨_, waiting_inv _ _ _ (by decide), ⟨by decide, by decide⟩, rfl⟩⟩

/-! #### The host's side -/

theorem test_witness_HostWritesObeyTheHandshake :
    (∃ s : State, s.status ≠ .busy) ∧ (∃ s : State, s.status = .busy) ∧ (HostReg.status ≠ .cmd ∧ HostReg.status ≠ .inLen) :=
  ⟨⟨State.reset, by decide⟩, ⟨drawing [] 0 none, rfl⟩, by decide, by decide⟩

/-- Every status, every kind and every cause that the clauses name; and a register other than `STATUS`. -/
theorem test_witness_HostReadsOnlyResults :
    (∃ s : State, s.status ≠ .done) ∧ (∃ s : State, s.status = .done ∧ s.outLen.toNat ≤ 2) ∧
      (∃ s, ResultIs s [7, 8]) ∧ (∃ s : State, s.status = .busy ∧ HostReg.outLen ≠ .status) ∧
      (∀ x : Status, ∃ s : State, s.status = x) ∧
      ∀ x : ErrCause, ∃ s : State, s.status ≠ .busy ∧ s.errCause = x ∧ s.errKind = kindOfCause x :=
  ⟨⟨State.reset, by decide⟩, ⟨complete config 2 State.reset, rfl, by decide⟩,
    ⟨complete config 2 { State.reset with out := [(0, 7), (1, 8)] }, rfl, rfl, rfl, rfl, rfl, rfl⟩,
    ⟨drawing [] 0 none, rfl, by decide⟩, fun x => ⟨{ State.reset with status := x }, rfl⟩,
    fun x => ⟨raise x 0 State.reset, nofun, rfl, rfl⟩⟩

/-- An admitted launch and a refused one, and both sides of `STATUS`. -/
theorem test_witness_CapacityDecidesTheLaunch :
    (∃ s : State, s.status ≠ .busy) ∧ (∃ s : State, s.status = .busy) ∧
      hostStart (cappedConfig (some 12)) (waiting 1 [0x41, 0x41, 0x41, 0x41]) = .refused .outCapacity ∧
      (cappedConfig (some 13)).Lawful ∧ (cappedConfig (some 13)).Buffered ∧ (cappedConfig (some 13)).Compact ∧
      Ready (cappedConfig (some 13)) .compress [0x41, 0x41, 0x41, 0x41] (waiting 1 [0x41, 0x41, 0x41, 0x41]) ∧
      ∃ t, hostStart (cappedConfig (some 13)) (waiting 1 [0x41, 0x41, 0x41, 0x41]) = .next t ∧
        Reaches (cappedConfig (some 13)) t t :=
  ⟨⟨State.reset, by decide⟩, ⟨drawing [] 0 none, rfl⟩, rfl, cappedConfig_lawful _, cappedConfig_buffered _,
    cappedConfig_compact _, waiting_ready _ _ rfl (by decide) (by decide) rfl, ⟨_, rfl, 0, rfl⟩⟩

end Sys2Proof.Tests
end

section
/-! PROOFS. The host's side of the block (spec R21 to R23, R36, R37, R130, R301, R306, R307): what an accepted `START`
writes, what a host write and a host read answer, and that every move of the host keeps `BlockInv`. -/

namespace Sys2Proof.Machine

/-! ### `START` -/

/-- What the command `k` writes after the common writes of `commandStart` (R37, R134 to R137, R231). -/
def beginCommand (k : Command) (s : State) : State :=
  match k with
  | .decompress => beginDecompress s
  | .compress => beginCompress s
  | .decodeTileset => checkLength (beginPixels true s)
  | .decodeTilesetOpaque => checkLength (beginPixels false s)

theorem exec_commandInstr (k : Command) (s : State) : exec (commandInstr k) s = issue (beginCommand k) s := by
  cases k <;> rfl

theorem exec_command_of_busy (k : Command) {s : State} (hb : s.status = .busy) :
    exec (commandInstr k) s = .next { s with start := false } := by
  rw [exec_commandInstr, issue, if_pos hb]

theorem exec_command_of_not_busy (k : Command) {s : State} (hb : s.status ≠ .busy) :
    exec (commandInstr k) s = .next (beginCommand k (commandStart s)) := by
  rw [exec_commandInstr, issue, if_neg hb]

/-- The instructions that stand in `CMD` are those of the four commands (R120). -/
theorem eq_commandInstr_of_ctx {i : Instr} (h : i.ctx = .command) : ∃ k, i = commandInstr k := by
  cases i <;> simp only [Instr.ctx, reduceCtorEq] at h
  case decompress => exact ⟨.decompress, rfl⟩
  case compress => exact ⟨.compress, rfl⟩
  case decodeTileset => exact ⟨.decodeTileset, rfl⟩
  case decodeTilesetOpaque => exact ⟨.decodeTilesetOpaque, rfl⟩

/-- The length check passes a whole number of tile-rows (R231). -/
theorem checkLength_of_whole {s : State} (h : s.inLen.toNat % tileRowStride = 0) : checkLength s = s := if_pos h

/-- During a command the host's `START` changes nothing (R23, R131). -/
theorem hostStart_of_busy (c : Config) {s : State} (hb : s.status = .busy) (hs : s.start = false) :
    hostStart c s = .next s := by
  rcases hostStart_cases c s with ⟨hn, -, -⟩ | ⟨-, h⟩
  · exact absurd hb hn
  · rw [h, exec_command_of_busy (s := { s with start := true }) _ hb, ← hs]

/-- Outside a command the host's `START`, where it is not refused, begins the command in `CMD` (R130). -/
theorem hostStart_next_of_not_busy {c : Config} {s t : State} (hb : s.status ≠ .busy) (h : hostStart c s = .next t) :
    t = beginCommand (c.commandOf s.cmd) (commandStart s) := by
  rcases hostStart_cases c s with ⟨-, -, hr⟩ | ⟨-, hx⟩
  · rw [hr] at h
    cases h
  · rw [hx, exec_command_of_not_busy (s := { s with start := true }) _ hb] at h
    cases h
    rfl

/-! ### Host writes -/

theorem hostWriteIn_of_busy {s : State} (hb : s.status = .busy) (a : BitVec 32) (v : Byte) :
    hostWriteIn a v s = .refused .hostDuty := if_pos hb

theorem hostWriteIn_of_not_busy {s : State} (hb : s.status ≠ .busy) (a : BitVec 32) (v : Byte) :
    hostWriteIn a v s = .next { s with inp := memWrite s.inp a.toNat v } := if_neg hb

/-- A register other than `CMD` and `IN_LEN` is read-only (R21). -/
theorem hostWriteReg_readOnly (c : Config) {r : HostReg} (hc : r ≠ .cmd) (hl : r ≠ .inLen) (v : BitVec 33)
    (s : State) : hostWriteReg c r v s = .next s := by
  cases r
  case cmd => exact absurd rfl hc
  case inLen => exact absurd rfl hl
  all_goals rfl

/-- What a register write that is not refused can do. -/
theorem hostWriteReg_next {c : Config} {r : HostReg} {v : BitVec 33} {s t : State}
    (h : hostWriteReg c r v s = .next t) :
    t = s ∨ s.status ≠ .busy ∧
      (t = { s with cmd := v.setWidth 2 } ∨ t = { s with inLen := BitVec.ofNat 32 (v.toNat % 2 ^ c.inLenBits) }) := by
  cases r
  case cmd =>
    simp only [hostWriteReg] at h
    split at h <;> cases h
    exact .inr ⟨‹_›, .inl rfl⟩
  case inLen =>
    simp only [hostWriteReg] at h
    split at h <;> cases h
    exact .inr ⟨‹_›, .inr rfl⟩
  all_goals
    cases h
    exact .inl rfl

/-! ### Host reads -/

theorem hostReadOut_of_not_done {s : State} (h : s.status ≠ .done) (a : Nat) : hostReadOut a s = none :=
  if_neg fun hd => h hd.1

theorem hostReadOut_beyond {s : State} {a : Nat} (h : s.outLen.toNat ≤ a) : hostReadOut a s = none :=
  if_neg fun hd => Nat.not_lt.2 h hd.2

/-- The host reads the bytes of the result (R73, R307). -/
theorem hostReadOut_of_result {s : State} {bs : List Byte} {a : Nat} (h : ResultIs s bs) (ha : a < bs.length) :
    hostReadOut a s = bs[a]? := by
  obtain ⟨hdone, hlen, hread, -⟩ := h
  have hbyte := memRead_of_memReadN hread ha
  rw [hostReadOut, if_pos ⟨hdone, by omega⟩, ← hbyte, Nat.zero_add]

theorem hostReadReg_status (c : Config) {s : State} {x : Status} (h : s.status = x) :
    hostReadReg c .status s = some (c.statusCode x).toNat := by
  subst h
  rfl

theorem hostReadReg_errKind (c : Config) {s : State} (hb : s.status ≠ .busy) {x : ErrKind} (h : s.errKind = x) :
    hostReadReg c .errKind s = some (c.errKindCode x).toNat := by
  subst h
  exact if_neg hb

theorem hostReadReg_errCause (c : Config) {s : State} (hb : s.status ≠ .busy) {x : ErrCause} (h : s.errCause = x) :
    hostReadReg c .errCause s = some (c.errCauseCode x).toNat := by
  subst h
  exact if_neg hb

/-- During a command no register but `STATUS` has a value (R21, R307). -/
theorem hostReadReg_of_busy (c : Config) {r : HostReg} {s : State} (hb : s.status = .busy) (hr : r ≠ .status) :
    hostReadReg c r s = none := by
  cases r
  case status => exact absurd rfl hr
  all_goals exact if_pos hb

/-! ### What keeps the invariant -/

/-- Outside a command `CMD`, `IN` and `IN_LEN` may hold anything that their forms allow. -/
theorem BlockInv.withHostWrites {c : Config} {s : State} (h : BlockInv c s) (hb : s.status ≠ .busy) {m : Memory}
    (hm : memWf m = true) (k : BitVec 2) {l : BitVec 32} (hl : l.toNat < 2 ^ c.inLenBits) :
    BlockInv c { s with cmd := k, inLen := l, inp := m } where
  inWf := hm
  outWf := h.outWf
  idxWf := h.idxWf
  widths := ⟨hl, h.widths.2⟩
  kind := h.kind
  cause := h.cause
  noResult := h.noResult
  dead := h.dead
  result := h.result
  ended := fun _ => h.ended (.inl hb)
  engine := fun h' => absurd h' hb

/-- A fault leaves the registers in agreement and no engine running (R270, R271). -/
theorem blockInv_raise {c : Config} {cause : ErrCause} (hc : cause ≠ .none) (offset : Nat) {s : State}
    (hin : memWf s.inp = true) (hidx : idxWf s.idx = true) (hl : s.inLen.toNat < 2 ^ c.inLenBits) :
    BlockInv c (raise cause offset s) where
  inWf := hin
  outWf := rfl
  idxWf := hidx
  widths := ⟨hl, Nat.two_pow_pos _⟩
  kind := rfl
  cause := by simp [hc]
  noResult := fun _ => rfl
  dead := fun _ => rfl
  result := nofun
  ended := fun _ => rfl
  engine := nofun

/-- An accepted `START` establishes the block's invariant, once the engine's own holds: `Begun` and a dead `OUT` are
what the common writes of R37 leave. -/
theorem blockInv_of_begun {c : Config} {s t : State} (h : Begun s t) (hin : memWf t.inp = true) (hout : t.out = [])
    (hidx : idxWf t.idx = true) (hl : s.inLen.toNat < 2 ^ c.inLenBits)
    (hend : c.commandOf t.cmd ≠ .decompress → t.dec.dstate = .ended) (heng : EngineInv c t) : BlockInv c t := by
  obtain ⟨hstatus, hlen, hkind, hcause, -, -, -, hinLen, -⟩ := h
  exact
    { inWf := hin
      outWf := by rw [hout]; rfl
      idxWf := hidx
      widths := by rw [hinLen, hlen]; exact ⟨hl, Nat.two_pow_pos _⟩
      kind := by rw [hkind, hcause]; rfl
      cause := by simp [hstatus, hcause]
      noResult := fun _ => hlen
      dead := by simp [hstatus]
      result := by simp [hstatus]
      ended := fun hd => hend (hd.resolve_left (not_not_intro hstatus))
      engine := fun _ => heng }

theorem DecInv.engineInv {c : Config} {s : State} (h : DecInv c s) (he : engineOfCmd c s.cmd = .lzDecoder) :
    EngineInv c s := by
  rw [EngineInv, he]
  exact h

theorem EncInv.engineInv {c : Config} {s : State} (h : EncInv c s) (he : engineOfCmd c s.cmd = .lzEncoder) :
    EngineInv c s := by
  rw [EngineInv, he]
  exact h

theorem PixInv.engineInv {c : Config} {s : State} (h : PixInv c s) (he : engineOfCmd c s.cmd = .pixelDecoder) :
    EngineInv c s := by
  rw [EngineInv, he]
  exact h

theorem begun_beginDecompress (s : State) : Begun s (beginDecompress (commandStart s)) := by simp [Begun]

theorem begun_beginCompress (s : State) : Begun s (beginCompress (commandStart s)) := by simp [Begun]

theorem begun_beginPixels (honorAlpha : Bool) (s : State) : Begun s (beginPixels honorAlpha (commandStart s)) := by
  simp [Begun]

theorem decInv_begin (c : Config) (s : State) : DecInv c (beginDecompress (commandStart s)) where
  live := nofun
  head := fun _ => ⟨rfl, rfl, rfl⟩
  cursor := fun h => absurd rfl h
  owed := fun h => absurd rfl h
  bits := Nat.zero_le _
  filled := rfl
  bit := nofun
  token := by simp
  copy := nofun

theorem encInv_begin (c : Config) (s : State) : EncInv c (beginCompress (commandStart s)) where
  length := rfl
  scan := Nat.zero_le _
  head := fun _ => ⟨rfl, rfl, rfl⟩
  group := ⟨Nat.zero_le _, Nat.zero_le _⟩
  filled := rfl
  best := ⟨Nat.zero_le _, nofun⟩
  unused := fun j _ => by simp
  index := nofun
  recency := fun _ => .nil

/-- The pixel decoder at the start of a whole number of tile-rows, in the mode of the command (R136, R137, R231). -/
theorem pixInv_begin {c : Config} {honorAlpha : Bool} {s : State}
    (hmode : honorAlpha = decide (c.commandOf s.cmd = .decodeTileset)) (hlen : s.inLen.toNat % tileRowStride = 0) :
    PixInv c (beginPixels honorAlpha (commandStart s)) where
  mode := hmode
  stride := hlen
  count := rfl
  cursor := Nat.zero_le _
  latched := nofun
  filled := by simp

/-- Both pixel commands, on any length: the engine starts, or the length check has taken its fault. -/
theorem blockInv_beginPixels {c : Config} {s : State} (h : BlockInv c s) (hb : s.status ≠ .busy) {honorAlpha : Bool}
    (hmode : honorAlpha = decide (c.commandOf s.cmd = .decodeTileset))
    (heng : engineOfCmd c s.cmd = .pixelDecoder) :
    BlockInv c (checkLength (beginPixels honorAlpha (commandStart s))) := by
  rcases checkLength_cases (beginPixels honorAlpha (commandStart s)) with ⟨hlen, hx⟩ | ⟨-, hx⟩ <;> rw [hx]
  · refine blockInv_of_begun (begun_beginPixels honorAlpha s) h.inWf rfl h.idxWf h.widths.1
      (fun _ => h.ended (.inl hb)) ?_
    exact (pixInv_begin hmode hlen).engineInv heng
  · exact blockInv_raise (cause := .badLength) nofun _ h.inWf h.idxWf h.widths.1

/-- An accepted `START` keeps the invariant, whichever command it begins (R37, R130). -/
theorem blockInv_beginCommand {c : Config} {s : State} (h : BlockInv c s) (hb : s.status ≠ .busy) :
    BlockInv c (beginCommand (c.commandOf s.cmd) (commandStart s)) := by
  have hend : s.dec.dstate = .ended := h.ended (.inl hb)
  cases hk : c.commandOf s.cmd with
  | decompress =>
    refine blockInv_of_begun (begun_beginDecompress s) h.inWf rfl h.idxWf h.widths.1 (fun hne => absurd hk hne) ?_
    exact (decInv_begin c s).engineInv (congrArg engineOf hk)
  | compress =>
    refine blockInv_of_begun (begun_beginCompress s) h.inWf rfl rfl h.widths.1 (fun _ => hend) ?_
    exact (encInv_begin c s).engineInv (congrArg engineOf hk)
  | decodeTileset => exact blockInv_beginPixels h hb (by simp [hk]) (congrArg engineOf hk)
  | decodeTilesetOpaque => exact blockInv_beginPixels h hb (by simp [hk]) (congrArg engineOf hk)

theorem beginCommand_start (k : Command) (s : State) : (beginCommand k s).start = s.start := by
  have hcheck (t : State) : (checkLength t).start = t.start := by
    rcases checkLength_cases t with ⟨-, h⟩ | ⟨-, h⟩ <;> rw [h]
    rfl
  cases k with
  | decompress => rfl
  | compress => rfl
  | decodeTileset => exact hcheck _
  | decodeTilesetOpaque => exact hcheck _

/-! ### The moves of the host -/

theorem hostWriteReg_keeps_blockInv {c : Config} {r : HostReg} {v : BitVec 33} {s t : State} (hinv : BlockInv c s)
    (hs : s.start = false) (h : hostWriteReg c r v s = .next t) : BlockInv c t ∧ t.start = false := by
  rcases hostWriteReg_next h with rfl | ⟨hb, rfl | rfl⟩
  · exact ⟨hinv, hs⟩
  · exact ⟨hinv.withHostWrites hb hinv.inWf _ hinv.widths.1, hs⟩
  · have hfits : (BitVec.ofNat 32 (v.toNat % 2 ^ c.inLenBits)).toNat < 2 ^ c.inLenBits :=
      (Nat.mod_le _ _).trans_lt (Nat.mod_lt _ (Nat.two_pow_pos _))
    exact ⟨hinv.withHostWrites hb hinv.inWf _ hfits, hs⟩

theorem hostWriteIn_keeps_blockInv {c : Config} {a : BitVec 32} {v : Byte} {s t : State} (hinv : BlockInv c s)
    (hs : s.start = false) (h : hostWriteIn a v s = .next t) : BlockInv c t ∧ t.start = false := by
  by_cases hb : s.status = .busy
  · rw [hostWriteIn_of_busy hb] at h
    cases h
  · rw [hostWriteIn_of_not_busy hb] at h
    cases h
    exact ⟨hinv.withHostWrites hb (memWf_memWrite hinv.inWf _ _) _ hinv.widths.1, hs⟩

theorem hostStart_keeps_blockInv {c : Config} {s t : State} (hinv : BlockInv c s) (hs : s.start = false)
    (h : hostStart c s = .next t) : BlockInv c t ∧ t.start = false := by
  by_cases hb : s.status = .busy
  · rw [hostStart_of_busy c hb hs] at h
    cases h
    exact ⟨hinv, hs⟩
  · rw [hostStart_next_of_not_busy hb h]
    exact ⟨blockInv_beginCommand hinv hb, by rw [beginCommand_start, commandStart_start]⟩

theorem blockInv_reset (c : Config) : BlockInv c State.reset where
  inWf := rfl
  outWf := rfl
  idxWf := rfl
  widths := ⟨Nat.two_pow_pos _, Nat.two_pow_pos _⟩
  kind := rfl
  cause := by decide
  noResult := fun _ => rfl
  dead := nofun
  result := nofun
  ended := fun _ => rfl
  engine := nofun

/-! ### The statements -/

/-- Settles O4, one lemma for each move of the host. -/
theorem hostMovesKeepInvariant : Obligations.HostMovesKeepInvariant :=
  fun c _ hinv hs =>
    ⟨fun _ _ _ h => hostWriteReg_keeps_blockInv hinv hs h, fun _ _ _ h => hostWriteIn_keeps_blockInv hinv hs h,
      fun _ h => hostStart_keeps_blockInv hinv hs h, blockInv_reset c, rfl⟩

/-- Settles O1: the registers of the reset state are constants, and its memories list no address. -/
theorem resetLeavesInterfaceZero : Obligations.ResetLeavesInterfaceZero :=
  ⟨rfl, rfl, rfl, rfl, rfl, rfl, rfl, rfl, rfl, memRead_nil, memRead_nil⟩

/-- Settles O2. -/
theorem resetSatisfiesInvariant : Obligations.ResetSatisfiesInvariant := blockInv_reset

/-- Settles O31. -/
theorem decompressBegins : Obligations.DecompressBegins := fun s hb =>
  ⟨_, exec_command_of_not_busy .decompress hb, begun_beginDecompress s, rfl, rfl, rfl, rfl⟩

/-- Settles O32: the index of the begun state lists no key. -/
theorem compressBegins : Obligations.CompressBegins := fun s hb =>
  ⟨_, exec_command_of_not_busy .compress hb, begun_beginCompress s, rfl, idxGet_nil, rfl, rfl⟩

/-- Settles O33: on a whole number of tile-rows the length check is the identity. -/
theorem pixelCommandsBegin : Obligations.PixelCommandsBegin := by
  intro s hb hlen
  have hwhole (honorAlpha : Bool) : checkLength (beginPixels honorAlpha (commandStart s)) =
      beginPixels honorAlpha (commandStart s) := checkLength_of_whole hlen
  exact
    ⟨⟨_, (exec_command_of_not_busy .decodeTileset hb).trans (congrArg _ (hwhole true)),
        begun_beginPixels true s, rfl, rfl, rfl, rfl⟩,
      ⟨_, (exec_command_of_not_busy .decodeTilesetOpaque hb).trans (congrArg _ (hwhole false)),
        begun_beginPixels false s, rfl, rfl, rfl, rfl⟩⟩

/-- Settles O35. -/
theorem startIsIgnoredWhileBusy : Obligations.StartIsIgnoredWhileBusy := by
  refine ⟨fun s i hb hi => ?_, fun c _ hb hs => hostStart_of_busy c hb hs⟩
  obtain ⟨k, rfl⟩ := eq_commandInstr_of_ctx hi
  exact exec_command_of_busy k hb

/-- Settles O58, by the three cases of a write: outside a command, during one, and to a read-only register. -/
theorem hostWritesObeyTheHandshake : Obligations.HostWritesObeyTheHandshake := by
  refine ⟨fun c s hb => ⟨fun v => ?_, fun v => if_neg hb, fun a v => ?_⟩, fun c s hb => ⟨fun _ => if_pos hb,
    fun _ => if_pos hb, hostWriteIn_of_busy hb⟩, fun c s r v hc hl => hostWriteReg_readOnly c hc hl v s⟩
  · rw [BitVec.ofNat_toNat]
    exact if_neg hb
  · exact ⟨_, hostWriteIn_of_not_busy hb a v, memRead_memWrite_same ..,
      fun b hne => memRead_memWrite_other _ _ hne, rfl⟩

/-- Settles O59: a read of `OUT` from the result's bytes, and the codes from the reads of `STATUS`, `ERR_KIND` and
`ERR_CAUSE` at each of their values. -/
theorem hostReadsOnlyResults : Obligations.HostReadsOnlyResults := by
  refine ⟨fun s a h => hostReadOut_of_not_done h a, fun s a h => hostReadOut_beyond h,
    fun s bs a h ha => hostReadOut_of_result h ha, fun c s hb => ?_, fun s hb => ?_, fun s hb => ?_⟩
  · exact ⟨if_neg hb, if_neg hb, if_neg hb, if_neg hb, hostReadReg_status c rfl, hostReadReg_errKind c hb rfl,
      hostReadReg_errCause c hb rfl⟩
  · exact ⟨hostReadReg_status config hb, fun c r hr => hostReadReg_of_busy c hb hr⟩
  · have hstatus (x : Status) (h : s.status = x) := hostReadReg_status config h
    have hkind (x : ErrKind) (h : s.errKind = x) := hostReadReg_errKind config hb h
    have hcause (x : ErrCause) (h : s.errCause = x) := hostReadReg_errCause config hb h
    exact ⟨hstatus .idle, hstatus .done, hstatus .err, hkind .none, hkind .malformedStream, hkind .malformedBuffer,
      hcause .none, hcause .truncatedHeader, hcause .truncatedToken, hcause .refBeforeStart, hcause .badTag,
      hcause .badLength⟩

end Sys2Proof.Machine
end

section
/-! PROOFS. The memories of the block (spec `20_memory.md`): no move of the block writes the host's side (R61), no step depends
on a byte of `IN` beyond `IN_LEN` (R62), and under `BlockInv` a step stops only at a byte of `IN` that nothing has
written (R78, R185). -/

namespace Sys2Proof.Machine

/-! ### What the block never writes -/

/-- `IN`, `IN_LEN` and `CMD`, which only the host writes (R21, R61), are as before. -/
def SameHostSide (s t : State) : Prop := t.inp = s.inp ∧ t.inLen = s.inLen ∧ t.cmd = s.cmd

theorem takeReference_sameHostSide (size len dist : Nat) (s : State) :
    SameHostSide s (takeReference size len dist s) := by
  unfold takeReference
  split <;> exact ⟨rfl, rfl, rfl⟩

theorem checkLength_sameHostSide (s : State) : SameHostSide s (checkLength s) := by
  rcases checkLength_cases s with ⟨-, h⟩ | ⟨-, h⟩ <;> rw [h] <;> exact ⟨rfl, rfl, rfl⟩

theorem beginCommand_sameHostSide (k : Command) (s : State) : SameHostSide s (beginCommand k s) := by
  cases k with
  | decompress => exact ⟨rfl, rfl, rfl⟩
  | compress => exact ⟨rfl, rfl, rfl⟩
  | decodeTileset => exact checkLength_sameHostSide (beginPixels true s)
  | decodeTilesetOpaque => exact checkLength_sameHostSide (beginPixels false s)

theorem exec_command_sameHostSide {k : Command} {s t : State} (h : exec (commandInstr k) s = .next t) :
    SameHostSide s t := by
  rw [exec_commandInstr] at h
  rcases issue_cases (beginCommand k) s with ⟨-, hi⟩ | ⟨-, hi⟩ <;> rw [hi] at h <;> cases h
  · exact ⟨rfl, rfl, rfl⟩
  · exact beginCommand_sameHostSide k (commandStart s)

theorem DecoderMove.sameHostSide {c : Config} {s t : State} (h : DecoderMove c s t) : SameHostSide s t := by
  cases h
  case reference => exact takeReference_sameHostSide ..
  all_goals exact ⟨rfl, rfl, rfl⟩

theorem EncoderMove.sameHostSide {c : Config} {s t : State} (h : EncoderMove c s t) : SameHostSide s t := by
  cases h <;> exact ⟨rfl, rfl, rfl⟩

theorem PixelMove.sameHostSide {c : Config} {s t : State} (h : PixelMove c s t) : SameHostSide s t := by
  cases h <;> exact ⟨rfl, rfl, rfl⟩

theorem stepWith_sameHostSide {c : Config} {s t : State} (h : stepWith c s = .next t) : SameHostSide s t := by
  rcases step_cases h with ⟨-, hx⟩ | ⟨-, -, rfl⟩ | ⟨-, -, -, hm⟩ | ⟨-, -, -, hm⟩ | ⟨-, -, -, hm⟩
  · exact exec_command_sameHostSide hx
  · exact ⟨rfl, rfl, rfl⟩
  · exact hm.sameHostSide
  · exact hm.sameHostSide
  · exact hm.sameHostSide

theorem hostStart_sameHostSide {c : Config} {s t : State} (h : hostStart c s = .next t) : SameHostSide s t := by
  rcases hostStart_cases c s with ⟨-, -, hr⟩ | ⟨-, hx⟩
  · rw [hr] at h
    cases h
  · rw [hx] at h
    exact exec_command_sameHostSide (s := { s with start := true }) h

/-! ### What is fetched, and what the step does with it -/

/-- Where a fetch looks: at a raised `START`, nowhere while no command runs, or where the running engine stands. -/
theorem fetch_cases (c : Config) (s : State) :
    (s.start = true ∧ fetch c s = .instr (commandInstr (c.commandOf s.cmd))) ∨
      (s.start = false ∧ s.status ≠ .busy ∧ fetch c s = .idle) ∨
      (s.start = false ∧ s.status = .busy ∧
        ((engineOfCmd c s.cmd = .lzDecoder ∧ fetch c s = fetchStream c s) ∨
          (engineOfCmd c s.cmd = .lzEncoder ∧ fetch c s = .internal) ∨
          (engineOfCmd c s.cmd = .pixelDecoder ∧ fetch c s = fetchPixel s))) := by
  cases hs : s.start with
  | true => exact .inl ⟨rfl, by simp [fetch, hs]⟩
  | false =>
    by_cases hb : s.status = .busy
    · refine .inr (.inr ⟨rfl, hb, ?_⟩)
      cases he : engineOfCmd c s.cmd <;> simp [fetch, hs, hb, he]
    · exact .inr (.inl ⟨rfl, hb, by simp [fetch, hs, hb]⟩)

/-- Every instruction has a next state: what a fault of the spec leaves is a state too (R270). -/
theorem exec_next (i : Instr) (s : State) : ∃ t, exec i s = .next t := by
  have hcommand (k : Command) : ∃ t, exec (commandInstr k) s = .next t := by
    rw [exec_commandInstr]
    rcases issue_cases (beginCommand k) s with ⟨-, h⟩ | ⟨-, h⟩ <;> exact ⟨_, h⟩
  cases i
  case decompress => exact hcommand .decompress
  case compress => exact hcommand .compress
  case decodeTileset => exact hcommand .decodeTileset
  case decodeTilesetOpaque => exact hcommand .decodeTilesetOpaque
  all_goals exact ⟨_, rfl⟩

/-- An item of the LZ decoder that is cut short is a fault of the spec, in whatever state the decoder is. -/
theorem takeTruncated_next {c : Config} {s : State} (he : engineOfCmd c s.cmd = .lzDecoder) :
    ∃ t, takeTruncated c s = .next t := by
  rw [takeTruncated, he]
  cases s.dec.dstate <;> exact ⟨_, rfl⟩

/-! ### A step stops only at an unwritten `IN` byte -/

/-- The outcome is a next state, or the stop at a byte of `IN` that nothing has written (log entry 4). -/
def StopsOnlyAtInput (o : Host.Outcome State Fault Refusal) : Prop := (∃ t, o = .next t) ∨ o = .fault .unwrittenIn

theorem stopsOnlyAtInput_next (t : State) : StopsOnlyAtInput (.next t) := .inl ⟨t, rfl⟩

/-- Of a header nothing but the tag is rejected (R107, R170). -/
theorem decodeHeader_reject {tag : Byte} {bs : List Byte} {r : Reject} (h : decodeHeader tag bs = .reject r) :
    r = .badTag := by
  unfold decodeHeader at h
  split at h
  · split at h
    · cases h
      rfl
    · split at h
      · cases h
      · split at h <;> cases h
  · cases h

/-- Two bytes below `IN_LEN` are a whole sample (R109, R232). -/
theorem fetchItem_sample_ne_truncated {m : Memory} {len a : Nat} (hl : a + 2 ≤ len) :
    fetchItem m len .sample a ≠ .truncated := by
  have hle : ¬len < a + 2 := by omega
  cases hr : memReadN m a 2 with
  | none => simp [fetchItem, fetchWith, fetchBytes, Ctx.firstBytes, hle, hr]
  | some bs =>
    obtain ⟨x, y, rfl⟩ := List.length_eq_two.1 (memReadN_length hr)
    simp [fetchItem, fetchWith, fetchBytes, Ctx.firstBytes, hle, hr, decode, decodeSample]

/-- A latched pixel is four raster bytes, which are an instruction (R113). -/
theorem fetchPixel_of_latch {s : State} {p : RasterPx} (h : s.pix.latch = some p) :
    fetchPixel s = .instr (.rasterPixel p.blue p.green p.red p.alpha) := by
  rw [fetchPixel, h]
  rfl

theorem fetchPixel_of_sample {s : State} (hl : s.pix.latch = none) (hs : s.pix.s < s.pix.npix) :
    fetchPixel s = fetchItem s.inp s.inLen.toNat .sample (2 * s.pix.s) := by
  simp only [fetchPixel, hl, if_pos hs]

theorem fetchPixel_of_end {s : State} (hl : s.pix.latch = none) (hs : ¬s.pix.s < s.pix.npix) :
    fetchPixel s = .internal := by
  simp only [fetchPixel, hl, if_neg hs]

/-- What the pixel decoder's fetch can be. -/
theorem fetchPixel_cases (s : State) :
    (∃ i, fetchPixel s = .instr i) ∨ fetchPixel s = .internal ∨
      (s.pix.s < s.pix.npix ∧ fetchPixel s = fetchItem s.inp s.inLen.toNat .sample (2 * s.pix.s)) := by
  cases hl : s.pix.latch with
  | some p => exact .inl ⟨_, fetchPixel_of_latch hl⟩
  | none =>
    by_cases hs : s.pix.s < s.pix.npix
    · exact .inr (.inr ⟨hs, fetchPixel_of_sample hl hs⟩)
    · exact .inr (.inl (fetchPixel_of_end hl hs))

/-- A sample is never cut short: `npix` counts whole samples below `IN_LEN` (R232). -/
theorem PixInv.fetchPixel_ne_truncated {c : Config} {s : State} (h : PixInv c s) : fetchPixel s ≠ .truncated := by
  have hcount := h.count
  rcases fetchPixel_cases s with ⟨i, hf⟩ | hf | ⟨hs, hf⟩ <;> rw [hf]
  · nofun
  · nofun
  · exact fetchItem_sample_ne_truncated (by omega)

theorem fetchPixel_ne_rejected (s : State) (r : Reject) : fetchPixel s ≠ .rejected r := by
  rcases fetchPixel_cases s with ⟨i, hf⟩ | hf | ⟨-, hf⟩ <;> rw [hf]
  · nofun
  · nofun
  · exact fetchItem_not_rejected nofun nofun

/-- In the LZ decoder's fetch only the tag is rejected (R170). -/
theorem fetchStream_rejected {c : Config} {s : State} {r : Reject} (h : fetchStream c s = .rejected r) :
    r = .badTag := by
  cases hd : s.dec.dstate <;> simp only [fetchStream, hd, reduceCtorEq] at h
  case hdr =>
    obtain ⟨bs, hr⟩ := fetchWith_rejected h
    exact decodeHeader_reject hr
  case ctrl =>
    split at h
    · cases h
    · exact absurd h (fetchItem_not_rejected nofun nofun)
  case lit => exact absurd h (fetchItem_not_rejected nofun nofun)
  case ref =>
    rcases fetchReference_cases c s.inp s.inLen.toNat s.dec.rp with hf | hf | ⟨t, hf, -⟩ <;> rw [hf] at h <;> cases h

/-- The LZ decoder makes a step of its own only in the states that have one, or at the end (R185). -/
theorem fetchStream_internal {c : Config} {s : State} (h : fetchStream c s = .internal) :
    s.dec.dstate = .ctrl ∨ s.dec.dstate = .bit ∨ s.dec.dstate = .copy ∨ s.dec.dstate = .ended := by
  cases hd : s.dec.dstate <;> simp only [fetchStream, hd] at h
  case hdr =>
    rcases fetchHeader_cases c s.inp s.inLen.toNat with ⟨i, hf⟩ | hf | ⟨r, hf⟩ | hf <;> rw [hf] at h <;> cases h
  case lit =>
    rcases fetchItem_cases s.inp s.inLen.toNat s.dec.rp .literal with ⟨i, hf⟩ | hf | ⟨r, hf⟩ | hf <;>
      rw [hf] at h <;> cases h
  case ref =>
    rcases fetchReference_cases c s.inp s.inLen.toNat s.dec.rp with hf | hf | ⟨t, hf, -⟩ <;> rw [hf] at h <;> cases h
  all_goals decide

/-- The copy reads below the bytes written so far (R78): `1 ≤ ref_dist ≤ wp`. -/
theorem DecInv.copyStep_next {c : Config} {s : State} (h : DecInv c s) (hd : s.dec.dstate = .copy) :
    ∃ t, copyStep s = .next t := by
  obtain ⟨hpos, -, hle, -⟩ := h.copy hd
  obtain ⟨v, hv⟩ := Option.isSome_iff_exists.1
    ((filled_isSome h.filled (s.dec.wp - s.dec.refDist)).2 (by omega))
  rw [copyStep, hv]
  split <;> exact ⟨_, rfl⟩

theorem DecInv.decoderStep_next {c : Config} {s : State} (h : DecInv c s) (hf : fetchStream c s = .internal) :
    ∃ t, decoderStep c s = .next t := by
  rcases fetchStream_internal hf with hd | hd | hd | hd
  · exact ⟨loopHead c s, by rw [decoderStep, hd]⟩
  · exact ⟨bitTest s, by rw [decoderStep, hd]⟩
  · rw [decoderStep, hd]
    exact h.copyStep_next hd
  · exact absurd hd h.live

/-- Of the LZ encoder's steps only the search reads `IN` (R202). -/
theorem encoderStep_stopsOnlyAtInput (c : Config) (s : State) : StopsOnlyAtInput (encoderStep c s) := by
  have hscan : StopsOnlyAtInput (scanStep c s) := by
    unfold scanStep
    split
    · exact .inr rfl
    · exact stopsOnlyAtInput_next _
  unfold encoderStep
  split
  · exact stopsOnlyAtInput_next _
  · split
    · exact stopsOnlyAtInput_next _
    · split
      · exact hscan
      · exact stopsOnlyAtInput_next _

/-- Only the LZ decoder's items can be cut short. -/
theorem BlockInv.engine_of_fetch_truncated {c : Config} {s : State} (h : BlockInv c s) (hf : fetch c s = .truncated) :
    engineOfCmd c s.cmd = .lzDecoder := by
  rcases fetch_cases c s with ⟨-, hx⟩ | ⟨-, -, hx⟩ | ⟨-, hb, ⟨he, -⟩ | ⟨-, hx⟩ | ⟨he, hx⟩⟩
  · cases hx.symm.trans hf
  · cases hx.symm.trans hf
  · exact he
  · cases hx.symm.trans hf
  · have hpix : PixInv c s := by simpa only [EngineInv, he] using h.engine hb
    exact absurd (hx.symm.trans hf) hpix.fetchPixel_ne_truncated

theorem fetch_rejected {c : Config} {s : State} {r : Reject} (hf : fetch c s = .rejected r) : r = .badTag := by
  rcases fetch_cases c s with ⟨-, hx⟩ | ⟨-, -, hx⟩ | ⟨-, -, ⟨-, hx⟩ | ⟨-, hx⟩ | ⟨-, hx⟩⟩ <;> rw [hx] at hf
  · cases hf
  · cases hf
  · exact fetchStream_rejected hf
  · cases hf
  · exact absurd hf (fetchPixel_ne_rejected s r)

theorem busy_of_fetch_internal {c : Config} {s : State} (hf : fetch c s = .internal) : s.status = .busy := by
  rcases fetch_cases c s with ⟨-, hx⟩ | ⟨-, -, hx⟩ | ⟨-, hb, -⟩
  · cases hx.symm.trans hf
  · cases hx.symm.trans hf
  · exact hb

theorem BlockInv.internalStep_stopsOnlyAtInput {c : Config} {s : State} (h : BlockInv c s)
    (hf : fetch c s = .internal) : StopsOnlyAtInput (internalStep c s) := by
  rcases fetch_cases c s with ⟨-, hx⟩ | ⟨-, -, hx⟩ | ⟨-, hb, ⟨he, hx⟩ | ⟨he, -⟩ | ⟨he, -⟩⟩
  · cases hx.symm.trans hf
  · cases hx.symm.trans hf
  · have hdec : DecInv c s := by simpa only [EngineInv, he] using h.engine hb
    rw [internalStep, he]
    exact .inl (hdec.decoderStep_next (hx.symm.trans hf))
  · rw [internalStep, he]
    exact encoderStep_stopsOnlyAtInput c s
  · rw [internalStep, he]
    exact stopsOnlyAtInput_next _

theorem BlockInv.stepWith_stopsOnlyAtInput {c : Config} {s : State} (h : BlockInv c s) :
    StopsOnlyAtInput (stepWith c s) := by
  rw [stepWith]
  cases hf : fetch c s with
  | instr i => exact .inl (exec_next i s)
  | token t => exact stopsOnlyAtInput_next _
  | truncated => exact .inl (takeTruncated_next (h.engine_of_fetch_truncated hf))
  | rejected r =>
    obtain rfl := fetch_rejected hf
    exact stopsOnlyAtInput_next _
  | unwritten => exact .inr rfl
  | internal => exact h.internalStep_stopsOnlyAtInput hf
  | idle => exact stopsOnlyAtInput_next s

/-! ### Two runs that differ in `IN` beyond `IN_LEN` -/

/-- The same state with another memory `IN`. -/
def State.withInput (m : Memory) (s : State) : State := { s with inp := m }

@[simp] theorem withInput_cmd (m : Memory) (s : State) : (s.withInput m).cmd = s.cmd := rfl
@[simp] theorem withInput_inLen (m : Memory) (s : State) : (s.withInput m).inLen = s.inLen := rfl
@[simp] theorem withInput_status (m : Memory) (s : State) : (s.withInput m).status = s.status := rfl
@[simp] theorem withInput_start (m : Memory) (s : State) : (s.withInput m).start = s.start := rfl
@[simp] theorem withInput_inp (m : Memory) (s : State) : (s.withInput m).inp = m := rfl
@[simp] theorem withInput_out (m : Memory) (s : State) : (s.withInput m).out = s.out := rfl
@[simp] theorem withInput_dec (m : Memory) (s : State) : (s.withInput m).dec = s.dec := rfl
@[simp] theorem withInput_enc (m : Memory) (s : State) : (s.withInput m).enc = s.enc := rfl
@[simp] theorem withInput_pix (m : Memory) (s : State) : (s.withInput m).pix = s.pix := rfl

/-- The outcome with its next state changed. -/
def mapNext (f : State → State) (o : Host.Outcome State Fault Refusal) : Host.Outcome State Fault Refusal :=
  match o with
  | .next t => .next (f t)
  | .fault e => .fault e
  | .refused r => .refused r

/-- Canonical memories with the same bytes below `len`. -/
def SameBelow (len : Nat) (m m' : Memory) : Prop :=
  memWf m = true ∧ memWf m' = true ∧ ∀ a, a < len → memRead m a = memRead m' a

theorem SameBelow.symm {len : Nat} {m m' : Memory} (h : SameBelow len m m') : SameBelow len m' m := by
  obtain ⟨hm, hm', hread⟩ := h
  exact ⟨hm', hm, fun a ha => (hread a ha).symm⟩

theorem SameBelow.memReadN_some {len a n : Nat} {m m' : Memory} {bs : List Byte} (h : SameBelow len m m')
    (hl : a + n ≤ len) (hr : memReadN m a n = some bs) : memReadN m' a n = some bs := by
  obtain ⟨-, hm', hread⟩ := h
  obtain rfl := memReadN_length hr
  refine memReadN_of_memRead hm' fun i hi => ?_
  rw [← hread (a + i) (by omega), memRead_of_memReadN hr hi]

/-- A read of several bytes, all below `len`, sees no difference. -/
theorem SameBelow.memReadN_eq {len a n : Nat} {m m' : Memory} (h : SameBelow len m m') (hl : a + n ≤ len) :
    memReadN m a n = memReadN m' a n :=
  Option.ext fun _ => ⟨h.memReadN_some hl, h.symm.memReadN_some hl⟩

theorem SameBelow.fetchBytes_eq {len : Nat} {m m' : Memory} (h : SameBelow len m m') (a n : Nat) :
    fetchBytes m len a n = fetchBytes m' len a n := by
  unfold fetchBytes
  split
  · rfl
  · rw [h.memReadN_eq (by omega)]

theorem SameBelow.fetchWith_eq {len : Nat} {m m' : Memory} (h : SameBelow len m m') (dec : List Byte → Decoded)
    (first a : Nat) : fetchWith dec first m len a = fetchWith dec first m' len a := by
  simp only [fetchWith, h.fetchBytes_eq]

theorem SameBelow.fetchReference_eq {len : Nat} {m m' : Memory} (h : SameBelow len m m') (c : Config) (a : Nat) :
    fetchReference c m len a = fetchReference c m' len a := by
  simp only [fetchReference, h.fetchBytes_eq]

/-- Every fetch stays below `IN_LEN` (R62). -/
theorem SameBelow.fetch_withInput {s : State} {m : Memory} (h : SameBelow s.inLen.toNat m s.inp) (c : Config) :
    fetch c (s.withInput m) = fetch c s := by
  simp [fetch, fetchStream, fetchPixel, fetchHeader, fetchItem, h.fetchWith_eq, h.fetchReference_eq]

/-! #### What is fetched is executed without a look at `IN` -/

theorem takeReference_withInput (size len dist : Nat) (m : Memory) (s : State) :
    takeReference size len dist (s.withInput m) = (takeReference size len dist s).withInput m := by
  unfold takeReference State.withInput
  split <;> rfl

theorem checkLength_withInput (m : Memory) (s : State) :
    checkLength (s.withInput m) = (checkLength s).withInput m := by
  unfold checkLength State.withInput
  split <;> rfl

theorem beginCommand_withInput (k : Command) (m : Memory) (s : State) :
    beginCommand k (s.withInput m) = (beginCommand k s).withInput m := by
  cases k with
  | decompress => rfl
  | compress => rfl
  | decodeTileset => exact checkLength_withInput m (beginPixels true s)
  | decodeTilesetOpaque => exact checkLength_withInput m (beginPixels false s)

theorem exec_command_withInput (k : Command) (m : Memory) (s : State) :
    exec (commandInstr k) (s.withInput m) = mapNext (State.withInput m) (exec (commandInstr k) s) := by
  by_cases hb : s.status = .busy
  · rw [exec_command_of_busy k hb, exec_command_of_busy k (s := s.withInput m) hb]
    rfl
  · rw [exec_command_of_not_busy k hb, exec_command_of_not_busy k (s := s.withInput m) hb]
    exact congrArg _ (beginCommand_withInput k m (commandStart s))

theorem execToken_withInput (c : Config) (t : List Byte) (m : Memory) (s : State) :
    execToken c t (s.withInput m) = mapNext (State.withInput m) (execToken c t s) :=
  congrArg _ (takeReference_withInput ..)

theorem exec_withInput (i : Instr) (m : Memory) (s : State) :
    exec i (s.withInput m) = mapNext (State.withInput m) (exec i s) := by
  cases i
  case ref2 => exact execToken_withInput ..
  case ref3 => exact execToken_withInput ..
  case ref4 => exact execToken_withInput ..
  case decompress => exact exec_command_withInput .decompress m s
  case compress => exact exec_command_withInput .compress m s
  case decodeTileset => exact exec_command_withInput .decodeTileset m s
  case decodeTilesetOpaque => exact exec_command_withInput .decodeTilesetOpaque m s
  all_goals rfl

theorem takeTruncated_withInput (c : Config) (m : Memory) (s : State) :
    takeTruncated c (s.withInput m) = mapNext (State.withInput m) (takeTruncated c s) := by
  rw [takeTruncated, takeTruncated, withInput_cmd, withInput_dec]
  cases engineOfCmd c s.cmd
  case lzDecoder => cases s.dec.dstate <;> rfl
  all_goals rfl

theorem takeRejected_withInput (r : Reject) (m : Memory) (s : State) :
    takeRejected r (s.withInput m) = mapNext (State.withInput m) (takeRejected r s) := by
  cases r <;> rfl

/-! #### The engines' own steps -/

theorem copyStep_withInput (m : Memory) (s : State) :
    copyStep (s.withInput m) = mapNext (State.withInput m) (copyStep s) := by
  rw [copyStep, copyStep, withInput_dec, withInput_out]
  split
  · rfl
  · cases memRead s.out (s.dec.wp - s.dec.refDist) <;> rfl

theorem loopHead_withInput (c : Config) (m : Memory) (s : State) :
    loopHead c (s.withInput m) = (loopHead c s).withInput m := by
  unfold loopHead State.withInput
  split <;> rfl

theorem decoderStep_withInput (c : Config) (m : Memory) (s : State) :
    decoderStep c (s.withInput m) = mapNext (State.withInput m) (decoderStep c s) := by
  rw [decoderStep, decoderStep, withInput_dec]
  cases s.dec.dstate
  case ctrl => exact congrArg _ (loopHead_withInput c m s)
  case copy => exact copyStep_withInput m s
  all_goals rfl

/-- The search reads `IN[0 .. n − 1]` and nothing else of `IN` (log entry 14). -/
theorem scanStep_withInput {c : Config} {m : Memory} {s : State}
    (hr : memReadN m 0 s.enc.n = memReadN s.inp 0 s.enc.n) :
    scanStep c (s.withInput m) = mapNext (State.withInput m) (scanStep c s) := by
  rw [scanStep, scanStep, withInput_inp, withInput_enc, hr]
  cases memReadN s.inp 0 s.enc.n <;> rfl

theorem encoderStep_withInput {c : Config} {m : Memory} {s : State}
    (hr : memReadN m 0 s.enc.n = memReadN s.inp 0 s.enc.n) :
    encoderStep c (s.withInput m) = mapNext (State.withInput m) (encoderStep c s) := by
  unfold encoderStep
  rw [withInput_enc]
  split
  · rfl
  · split
    · rfl
    · split
      · exact scanStep_withInput hr
      · rfl

theorem BlockInv.internalStep_withInput {c : Config} {s : State} {m : Memory} (h : BlockInv c s)
    (hb : s.status = .busy) (hm : SameBelow s.inLen.toNat m s.inp) :
    internalStep c (s.withInput m) = mapNext (State.withInput m) (internalStep c s) := by
  unfold internalStep
  rw [withInput_cmd]
  cases he : engineOfCmd c s.cmd with
  | lzDecoder => exact decoderStep_withInput c m s
  | lzEncoder =>
    have henc : EncInv c s := by simpa only [EngineInv, he] using h.engine hb
    have hlen := henc.length
    exact encoderStep_withInput (hm.memReadN_eq (by omega))
  | pixelDecoder => rfl

/-- A step on another memory that agrees below `IN_LEN` is the same step, with that memory kept. -/
theorem BlockInv.stepWith_withInput {c : Config} {s : State} {m : Memory} (h : BlockInv c s)
    (hm : SameBelow s.inLen.toNat m s.inp) :
    stepWith c (s.withInput m) = mapNext (State.withInput m) (stepWith c s) := by
  rw [stepWith, stepWith, hm.fetch_withInput c]
  cases hf : fetch c s with
  | instr i => exact exec_withInput i m s
  | token t => exact execToken_withInput c t m s
  | truncated => exact takeTruncated_withInput c m s
  | rejected r => exact takeRejected_withInput r m s
  | unwritten => rfl
  | internal => exact h.internalStep_withInput (busy_of_fetch_internal hf) hm
  | idle => rfl

/-! ### The statements -/

/-- Settles O5: the step has a next state, or stops at the one fault that is left. -/
theorem invariantRulesOutStrayStops : Obligations.InvariantRulesOutStrayStops := by
  intro c s hinv
  rcases hinv.stepWith_stopsOnlyAtInput with ⟨t, h⟩ | h <;> rw [h] <;> simp

/-- Settles O6, by the frame of every move of the block. -/
theorem inputIsNeverChangedByTheBlock : Obligations.InputIsNeverChangedByTheBlock := by
  refine ⟨fun c s t h => ?_, fun s a v hb => hostWriteIn_of_busy hb a v⟩
  obtain ⟨hinp, hlen, hcmd⟩ : SameHostSide s t := h.elim stepWith_sameHostSide hostStart_sameHostSide
  exact ⟨fun a => by rw [hinp], hlen, hcmd⟩

/-- Settles O7: the step on the other memory is the same step with that memory kept. -/
theorem stepReadsNoByteBeyondTheInput : Obligations.StepReadsNoByteBeyondTheInput := by
  intro c s m hinv hm hread
  have hstep := hinv.stepWith_withInput ⟨hm, hinv.inWf, hread⟩
  exact ⟨fun t h => by rw [h] at hstep; exact hstep, fun f h => by rw [h] at hstep; exact hstep⟩

end Sys2Proof.Machine
end

section
/-! PROOFS. The encodings (spec `30_encoding.md`): the decoder and the encoder are each other's inverse at every kind of
position (R91 to R113, R120), the default parameters obey the laws of R99, and a step runs the instruction that is
decoded at the fetch point (R106). -/

namespace Sys2Proof

/-! ### Byte orders -/

theorem leBytes_leNat (bs : List Byte) : leBytes bs.length (leNat bs) = bs := by
  induction bs with
  | nil => rfl
  | cons b bs ih =>
    have hb := b.isLt
    have hhead : BitVec.ofNat 8 (b.toNat + 256 * leNat bs) = b := by
      apply BitVec.eq_of_toNat_eq
      rw [BitVec.toNat_ofNat]
      omega
    have htail : (b.toNat + 256 * leNat bs) / 256 = leNat bs := by omega
    rw [List.length_cons, leNat, leBytes, hhead, htail, ih]

theorem leNat_leBytes_toNat {w n : Nat} (hw : 2 ^ w = 256 ^ n) (x : BitVec w) :
    leNat (leBytes n x.toNat) = x.toNat := by
  rw [leNat_leBytes, ← hw, Nat.mod_eq_of_lt x.isLt]

theorem toNat_ofNat_leNat {w n : Nat} (hw : 2 ^ w = 256 ^ n) {bs : List Byte} (hl : bs.length = n) :
    (BitVec.ofNat w (leNat bs)).toNat = leNat bs := by
  rw [BitVec.toNat_ofNat, hw, ← hl, Nat.mod_eq_of_lt (leNat_lt bs)]

theorem leNat_eq_zero_iff (bs : List Byte) : leNat bs = 0 ↔ ∀ b ∈ bs, b = 0 := by
  induction bs with
  | nil => simp [leNat]
  | cons b bs ih =>
    have hb : b.toNat = 0 ↔ b = 0 := BitVec.toNat_inj (y := 0)
    rw [leNat, List.forall_mem_cons, ← ih, ← hb]
    omega

theorem beBytes_beNat {bs : List Byte} {n : Nat} (hl : bs.length = n) : beBytes n (beNat bs) = bs := by
  subst hl
  rw [beNat_eq_leNat_reverse, beBytes, ← List.length_reverse, leBytes_leNat, List.reverse_reverse]

theorem beNat_lt_two_pow {w n : Nat} (hw : 2 ^ w = 256 ^ n) {bs : List Byte} (hl : bs.length = n) :
    beNat bs < 2 ^ w := by
  rw [hw, ← hl]
  exact beNat_lt bs

theorem beNat_cons (b : Byte) (bs : List Byte) : beNat (b :: bs) = 256 ^ bs.length * b.toNat + beNat bs := by
  simp only [beNat, beNatAcc, beNatAcc_eq]
  ring

/-- Of a big-endian number the high nibble of the first byte is the top digit in base 16. -/
theorem highNibble_eq (b : Byte) {bs : List Byte} {n : Nat} (hl : bs.length = n) :
    highNibble b = beNat (b :: bs) / 256 ^ n / 16 := by
  subst hl
  have hb := b.isLt
  rw [beNat_cons, Nat.mul_add_div (by positivity), Nat.div_eq_of_lt (beNat_lt bs)]
  simp only [highNibble, bitField]
  omega

/-- A big-endian number that fits, by its first byte. -/
theorem beBytes_cons {n v : Nat} (hv : v < 256 ^ (n + 1)) :
    ∃ b bs, beBytes (n + 1) v = b :: bs ∧ bs.length = n ∧ beNat (b :: bs) = v ∧ highNibble b = v / 256 ^ n / 16 := by
  obtain ⟨b, bs, h⟩ := List.exists_cons_of_length_eq_add_one (beBytes_length (n + 1) v)
  have hlen : bs.length = n := by simpa [h] using beBytes_length (n + 1) v
  have hval : beNat (b :: bs) = v := by rw [← h, beNat_beBytes, Nat.mod_eq_of_lt hv]
  exact ⟨b, bs, h, hlen, hval, by rw [highNibble_eq b hlen, hval]⟩

/-! ### Bit fields and words -/

/-- A field of `w` bits, at bit `lo`, held in `w` bits (R7). -/
theorem toNat_ofNat_bitField {w hi lo : Nat} (hw : hi + 1 = w + lo) (v : Nat) :
    (BitVec.ofNat w (bitField v hi lo)).toNat = v / 2 ^ lo % 2 ^ w := by
  rw [BitVec.toNat_ofNat, bitField, show hi + 1 - lo = w by omega, Nat.mod_mod]

theorem ofNat_bitField_eq {w hi lo v : Nat} {x : BitVec w} (hw : hi + 1 = w + lo) (hx : v / 2 ^ lo % 2 ^ w = x.toNat) :
    BitVec.ofNat w (bitField v hi lo) = x :=
  BitVec.eq_of_toNat_eq ((toNat_ofNat_bitField hw v).trans hx)

theorem ref2OfWord_word (n : BitVec 4) (disp : BitVec 12) :
    ref2OfWord (n.toNat * 4096 + disp.toNat) = .ref2 n disp := by
  have hn := n.isLt
  have hd := disp.isLt
  exact congrArg₂ Instr.ref2 (ofNat_bitField_eq rfl (by omega)) (ofNat_bitField_eq rfl (by omega))

theorem ref3OfWord_word (lenf : BitVec 8) (disp : BitVec 12) :
    ref3OfWord (lenf.toNat * 4096 + disp.toNat) = .ref3 lenf disp := by
  have hl := lenf.isLt
  have hd := disp.isLt
  exact congrArg₂ Instr.ref3 (ofNat_bitField_eq rfl (by omega)) (ofNat_bitField_eq rfl (by omega))

theorem ref4OfWord_word (lenf : BitVec 16) (disp : BitVec 12) :
    ref4OfWord (2 ^ 28 + lenf.toNat * 4096 + disp.toNat) = .ref4 lenf disp := by
  have hl := lenf.isLt
  have hd := disp.isLt
  exact congrArg₂ Instr.ref4 (ofNat_bitField_eq rfl (by omega)) (ofNat_bitField_eq rfl (by omega))

theorem sampleOfWord_a3rgb4 (a3 : BitVec 3) (r4 g4 b4 : BitVec 4) :
    sampleOfWord (a3.toNat * 4096 + r4.toNat * 256 + g4.toNat * 16 + b4.toNat) = .pixA3rgb4 a3 r4 g4 b4 := by
  have ha := a3.isLt
  have hr := r4.isLt
  have hg := g4.isLt
  have hb := b4.isLt
  rw [sampleOfWord, if_pos (by simp only [bitField]; omega)]
  congr 1 <;> exact ofNat_bitField_eq rfl (by omega)

theorem sampleOfWord_rgb5 (r5 g5 b5 : BitVec 5) :
    sampleOfWord (32768 + r5.toNat * 1024 + g5.toNat * 32 + b5.toNat) = .pixRgb5 r5 g5 b5 := by
  have hr := r5.isLt
  have hg := g5.isLt
  have hb := b5.isLt
  rw [sampleOfWord, if_neg (by simp only [bitField]; omega)]
  congr 1 <;> exact ofNat_bitField_eq rfl (by omega)

theorem encode_ref2OfWord {w : Nat} (hw : w < 2 ^ 16) : encode (ref2OfWord w) = beBytes 2 w := by
  simp only [ref2OfWord, encode, toNat_ofNat_bitField]
  congr 1
  omega

theorem encode_ref3OfWord {w : Nat} (hw : w < 2 ^ 20) : encode (ref3OfWord w) = beBytes 3 w := by
  simp only [ref3OfWord, encode, toNat_ofNat_bitField]
  congr 1
  omega

theorem encode_ref4OfWord {w : Nat} (hw : w / 2 ^ 28 = 1) : encode (ref4OfWord w) = beBytes 4 w := by
  simp only [ref4OfWord, encode, toNat_ofNat_bitField]
  congr 1
  omega

theorem encode_sampleOfWord {d : Nat} (hd : d < 2 ^ 16) : encode (sampleOfWord d) = beBytes 2 d := by
  unfold sampleOfWord
  split
  next h =>
    simp only [bitField] at h
    simp only [encode, toNat_ofNat_bitField]
    congr 1
    omega
  next h =>
    simp only [bitField] at h
    simp only [encode, toNat_ofNat_bitField]
    congr 1
    omega

theorem sampleOfWord_wellFormed (d : Nat) : (sampleOfWord d).wellFormed = true := by
  unfold sampleOfWord
  split <;> rfl

/-! ### Headers, for any tag -/

theorem decodeHeader_short (tag : Byte) {len24 : BitVec 24} (h : len24 ≠ 0) (rest : List Byte) :
    decodeHeader tag (tag :: leBytes 3 len24.toNat ++ rest) = .ok (.hdr len24) rest := by
  have hval := leNat_leBytes_toNat (n := 3) rfl len24
  have hne : len24.toNat ≠ 0 := fun h0 => h (BitVec.toNat_inj.1 h0)
  obtain ⟨b1, b2, b3, hb⟩ := List.length_eq_three.1 (leBytes_length 3 len24.toNat)
  rw [hb] at hval ⊢
  simp [decodeHeader, hval, hne]

theorem decodeHeader_extended (tag : Byte) (len32 : BitVec 32) (rest : List Byte) :
    decodeHeader tag (tag :: 0 :: 0 :: 0 :: leBytes 4 len32.toNat ++ rest) = .ok (.hdrx len32) rest := by
  have hval := leNat_leBytes_toNat (n := 4) rfl len32
  have hzero : leNat [0#8, 0#8, 0#8] = 0 := rfl
  obtain ⟨c0, c1, c2, c3, hc⟩ := List.length_eq_four.1 (leBytes_length 4 len32.toNat)
  rw [hc] at hval ⊢
  simp [decodeHeader, hval, hzero]

/-- The two header forms and their bytes (R91 to R93). -/
theorem decodeHeader_form {tag : Byte} {bs rest : List Byte} {i : Instr} (h : decodeHeader tag bs = .ok i rest) :
    (∃ len24 : BitVec 24, len24 ≠ 0 ∧ i = .hdr len24 ∧ bs = tag :: leBytes 3 len24.toNat ++ rest) ∨
      ∃ len32 : BitVec 32, i = .hdrx len32 ∧ bs = tag :: 0 :: 0 :: 0 :: leBytes 4 len32.toNat ++ rest := by
  unfold decodeHeader at h
  split at h
  next t b1 b2 b3 bs =>
    split at h
    next => cases h
    next htag =>
      obtain rfl : t = tag := not_not.1 htag
      split at h
      next hne =>
        cases h
        refine .inl ⟨_, fun h0 => hne ?_, rfl, ?_⟩
        · rw [← toNat_ofNat_leNat (w := 24) (n := 3) rfl rfl, h0]
          rfl
        · rw [toNat_ofNat_leNat (n := 3) rfl rfl]
          exact congrArg (t :: · ++ rest) (leBytes_leNat [b1, b2, b3]).symm
      next hzero =>
        obtain ⟨rfl, rfl, rfl⟩ : b1 = 0 ∧ b2 = 0 ∧ b3 = 0 := by
          simpa using (leNat_eq_zero_iff [b1, b2, b3]).1 (not_not.1 hzero)
        split at h
        next c0 c1 c2 c3 bs =>
          cases h
          refine .inr ⟨_, rfl, ?_⟩
          rw [toNat_ofNat_leNat (n := 4) rfl rfl]
          exact congrArg (t :: 0 :: 0 :: 0 :: · ++ rest) (leBytes_leNat [c0, c1, c2, c3]).symm
        next => cases h
  next => cases h

/-! ### Back-reference tokens -/

/-- The token `t` is the back-reference `i`: the high nibble of the first byte selects the tier, and with it the number
of bytes and the fields (R101 to R104). -/
inductive ReferenceToken : List Byte → Instr → Prop
  | two {b : Byte} {bs : List Byte} (hl : bs.length = 1) (hn : 2 ≤ highNibble b) :
      ReferenceToken (b :: bs) (ref2OfWord (beNat (b :: bs)))
  | three {b : Byte} {bs : List Byte} (hl : bs.length = 2) (hn : highNibble b = 0) :
      ReferenceToken (b :: bs) (ref3OfWord (beNat (b :: bs)))
  | four {b : Byte} {bs : List Byte} (hl : bs.length = 3) (hn : highNibble b = 1) :
      ReferenceToken (b :: bs) (ref4OfWord (beNat (b :: bs)))

theorem decodeReference_iff {bs rest : List Byte} {i : Instr} :
    decodeReference bs = .ok i rest ↔ ∃ t, ReferenceToken t i ∧ bs = t ++ rest := by
  constructor
  · intro h
    unfold decodeReference at h
    split at h
    next => cases h
    next b bs =>
      split at h
      next hn =>
        split at h <;> cases h
        exact ⟨_, .three rfl hn, rfl⟩
      next hn0 =>
        split at h
        next hn =>
          split at h <;> cases h
          exact ⟨_, .four rfl hn, rfl⟩
        next hn1 =>
          split at h <;> cases h
          exact ⟨_, .two rfl (by omega), rfl⟩
  · rintro ⟨t, ht, rfl⟩
    cases ht with
    | @two b bs hl hn =>
      obtain ⟨b1, rfl⟩ := List.length_eq_one_iff.1 hl
      have h0 : highNibble b ≠ 0 := by omega
      have h1 : highNibble b ≠ 1 := by omega
      simp [decodeReference, h0, h1]
    | three hl hn =>
      obtain ⟨b1, b2, rfl⟩ := List.length_eq_two.1 hl
      simp [decodeReference, hn]
    | four hl hn =>
      obtain ⟨b1, b2, b3, rfl⟩ := List.length_eq_three.1 hl
      simp [decodeReference, hn]

theorem referenceToken_ref2 {n : BitVec 4} (hn : 2 ≤ n.toNat) (disp : BitVec 12) :
    ReferenceToken (encode (.ref2 n disp)) (.ref2 n disp) := by
  have hd := disp.isLt
  obtain ⟨b, bs, he, hl, hv, hh⟩ := beBytes_cons (n := 1) (v := n.toNat * 4096 + disp.toNat) (by omega)
  rw [encode, he, ← ref2OfWord_word n disp, ← hv]
  exact .two hl (by omega)

theorem referenceToken_ref3 (lenf : BitVec 8) (disp : BitVec 12) :
    ReferenceToken (encode (.ref3 lenf disp)) (.ref3 lenf disp) := by
  have hd := disp.isLt
  obtain ⟨b, bs, he, hl, hv, hh⟩ := beBytes_cons (n := 2) (v := lenf.toNat * 4096 + disp.toNat) (by omega)
  rw [encode, he, ← ref3OfWord_word lenf disp, ← hv]
  exact .three hl (by omega)

theorem referenceToken_ref4 (lenf : BitVec 16) (disp : BitVec 12) :
    ReferenceToken (encode (.ref4 lenf disp)) (.ref4 lenf disp) := by
  have hd := disp.isLt
  obtain ⟨b, bs, he, hl, hv, hh⟩ := beBytes_cons (n := 3) (v := 2 ^ 28 + lenf.toNat * 4096 + disp.toNat) (by omega)
  rw [encode, he, ← ref4OfWord_word lenf disp, ← hv]
  exact .four hl (by omega)

theorem referenceToken_encode {i : Instr} (hwf : i.wellFormed = true) (hk : i.ctx = .reference) :
    ReferenceToken (encode i) i := by
  cases i <;> simp only [Instr.ctx, reduceCtorEq] at hk
  case ref2 n disp => exact referenceToken_ref2 (of_decide_eq_true hwf) disp
  case ref3 lenf disp => exact referenceToken_ref3 lenf disp
  case ref4 lenf disp => exact referenceToken_ref4 lenf disp

/-- A token is the encoding of what it stands for: its fields hold all its bits (R105, R112). -/
theorem ReferenceToken.encode_eq {t : List Byte} {i : Instr} (h : ReferenceToken t i) : encode i = t := by
  cases h with
  | @two b bs hl hn =>
    have hlen : (b :: bs).length = 2 := congrArg (· + 1) hl
    rw [encode_ref2OfWord (beNat_lt_two_pow rfl hlen), beBytes_beNat hlen]
  | @three b bs hl hn =>
    have hh := highNibble_eq b hl
    rw [encode_ref3OfWord (by omega), beBytes_beNat (congrArg (· + 1) hl)]
  | @four b bs hl hn =>
    have hh := highNibble_eq b hl
    rw [encode_ref4OfWord (by omega), beBytes_beNat (congrArg (· + 1) hl)]

theorem ReferenceToken.wellFormed {t : List Byte} {i : Instr} (h : ReferenceToken t i) : i.wellFormed = true := by
  cases h with
  | @two b bs hl hn =>
    have hh := highNibble_eq b hl
    have hlt : beNat (b :: bs) < 2 ^ 16 := beNat_lt_two_pow (n := 2) rfl (congrArg (· + 1) hl)
    refine decide_eq_true ?_
    simp only [toNat_ofNat_bitField]
    omega
  | three => rfl
  | four => rfl

theorem ReferenceToken.ctx {t : List Byte} {i : Instr} (h : ReferenceToken t i) : i.ctx = .reference := by
  cases h <;> rfl

/-- The first nibble of a token selects its size (R99, R101). -/
theorem ReferenceToken.size {t : List Byte} {i : Instr} (h : ReferenceToken t i) :
    ∃ b rest, t = b :: rest ∧ tokenSizeOfNibble (highNibble b) = t.length := by
  cases h with
  | @two b bs hl hn =>
    refine ⟨b, bs, rfl, ?_⟩
    rw [tokenSizeOfNibble, if_neg (by omega), if_neg (by omega), List.length_cons, hl]
  | @three b bs hl hn =>
    refine ⟨b, bs, rfl, ?_⟩
    rw [tokenSizeOfNibble, if_pos hn, List.length_cons, hl]
  | @four b bs hl hn =>
    refine ⟨b, bs, rfl, ?_⟩
    rw [tokenSizeOfNibble, if_neg (by omega), if_pos hn, List.length_cons, hl]

/-- Every byte string of the size that its first nibble selects is a token (R99, R101). -/
theorem exists_referenceToken {b : Byte} {bs : List Byte} (h : tokenSizeOfNibble (highNibble b) = (b :: bs).length) :
    ∃ i, ReferenceToken (b :: bs) i := by
  rw [List.length_cons] at h
  unfold tokenSizeOfNibble at h
  split at h
  next h0 => exact ⟨_, .three (by omega) h0⟩
  next h0 =>
    split at h
    next h1 => exact ⟨_, .four (by omega) h1⟩
    next h1 => exact ⟨_, .two (by omega) (by omega)⟩

/-- The coding decodes a token to the pair of the instruction it is. -/
theorem ReferenceToken.tokenDecode_eq {t : List Byte} {i : Instr} (h : ReferenceToken t i) :
    Machine.tokenDecode t = Machine.pairOf i := by
  cases h with
  | two hl hn =>
    obtain ⟨b1, rfl⟩ := List.length_eq_one_iff.1 hl
    rfl
  | three hl hn =>
    obtain ⟨b1, b2, rfl⟩ := List.length_eq_two.1 hl
    rfl
  | four hl hn =>
    obtain ⟨b1, b2, b3, rfl⟩ := List.length_eq_three.1 hl
    rfl

/-! ### The decoder and the encoder -/

theorem encode_commandInstr (k : Machine.Command) : encode (commandInstr k) = commandByte k := by cases k <;> rfl

theorem commandInstr_wellFormed (k : Machine.Command) : (commandInstr k).wellFormed = true := by cases k <;> rfl

theorem decodeCommand_commandByte (k : Machine.Command) (rest : List Byte) :
    decodeCommand (commandByte k ++ rest) = .ok (commandInstr k) rest := by
  cases k <;> rfl

/-- Every value of `CMD` is the code of the command it selects: there is no reserved code (R21, R120). -/
theorem codeOfCommand_commandOfCode : ∀ v : BitVec 2, Machine.codeOfCommand (Machine.commandOfCode v) = v := by decide

theorem commandByte_commandOfCode {b : Byte} (h : b.toNat < 4) :
    commandByte (Machine.commandOfCode (BitVec.ofNat 2 b.toNat)) = [b] := by
  rw [commandByte, codeOfCommand_commandOfCode]
  congr 1
  bv_omega

theorem decodeSample_append {t : List Byte} (hl : t.length = 2) (rest : List Byte) :
    decodeSample (t ++ rest) = .ok (sampleOfWord (beNat t)) rest := by
  obtain ⟨b0, b1, rfl⟩ := List.length_eq_two.1 hl
  rfl

/-- The decoder undoes the encoder, at the position of the instruction and whatever follows it. -/
theorem decode_encode {i : Instr} (h : i.wellFormed = true) (rest : List Byte) :
    decode i.ctx (encode i ++ rest) = .ok i rest := by
  have hreference (hk : i.ctx = .reference) : decode .reference (encode i ++ rest) = .ok i rest :=
    decodeReference_iff.2 ⟨encode i, referenceToken_encode h hk, rfl⟩
  cases i with
  | hdr len24 => exact decodeHeader_short Machine.tagByte (by simpa [Instr.wellFormed, hdrLengthOk] using h) rest
  | hdrx len32 => exact decodeHeader_extended Machine.tagByte len32 rest
  | ctl flags => rfl
  | lit value => rfl
  | ref2 n disp => exact hreference rfl
  | ref3 lenf disp => exact hreference rfl
  | ref4 lenf disp => exact hreference rfl
  | pixA3rgb4 a3 r4 g4 b4 =>
    have ha := a3.isLt
    have hr := r4.isLt
    have hg := g4.isLt
    have hb := b4.isLt
    rw [Instr.ctx, decode, decodeSample_append (encode_length _), encode, beNat_beBytes, Nat.mod_eq_of_lt (by omega),
      sampleOfWord_a3rgb4]
  | pixRgb5 r5 g5 b5 =>
    have hr := r5.isLt
    have hg := g5.isLt
    have hb := b5.isLt
    rw [Instr.ctx, decode, decodeSample_append (encode_length _), encode, beNat_beBytes, Nat.mod_eq_of_lt (by omega),
      sampleOfWord_rgb5]
  | rasterPixel blue green red alpha => rfl
  | decompress => exact decodeCommand_commandByte .decompress rest
  | compress => exact decodeCommand_commandByte .compress rest
  | decodeTileset => exact decodeCommand_commandByte .decodeTileset rest
  | decodeTilesetOpaque => exact decodeCommand_commandByte .decodeTilesetOpaque rest

/-- What is decoded can be encoded, and its encoding is the bytes it was decoded from. -/
theorem encode_decode {c : Ctx} {bs rest : List Byte} {i : Instr} (h : decode c bs = .ok i rest) :
    i.wellFormed = true ∧ bs = encode i ++ rest := by
  cases c with
  | header =>
    rcases decodeHeader_form h with ⟨len24, hne, rfl, rfl⟩ | ⟨len32, rfl, rfl⟩
    · exact ⟨by simpa [Instr.wellFormed, hdrLengthOk] using hne, rfl⟩
    · exact ⟨rfl, rfl⟩
  | control =>
    cases bs with
    | nil => cases h
    | cons b bs => cases h; exact ⟨rfl, rfl⟩
  | literal =>
    cases bs with
    | nil => cases h
    | cons b bs => cases h; exact ⟨rfl, rfl⟩
  | reference =>
    obtain ⟨t, ht, rfl⟩ := decodeReference_iff.1 h
    exact ⟨ht.wellFormed, by rw [ht.encode_eq]⟩
  | sample =>
    simp only [decode, decodeSample] at h
    split at h <;> cases h
    next b0 b1 =>
      refine ⟨sampleOfWord_wellFormed _, ?_⟩
      rw [encode_sampleOfWord (beNat_lt_two_pow (n := 2) rfl rfl), beBytes_beNat (n := 2) rfl]
      rfl
  | raster =>
    simp only [decode, decodeRaster] at h
    split at h <;> cases h
    exact ⟨rfl, rfl⟩
  | command =>
    cases bs with
    | nil => cases h
    | cons b bs =>
      simp only [decode, decodeCommand] at h
      split at h <;> cases h
      next hb =>
        refine ⟨commandInstr_wellFormed _, ?_⟩
        rw [decodeCmd, encode_commandInstr, commandByte_commandOfCode hb]
        rfl

/-- Settles O10, by the round trip of each row of the opcode table. -/
theorem decodeOfEncodeIsTheInstruction : Obligations.DecodeOfEncodeIsTheInstruction :=
  fun _ rest hwf => decode_encode hwf rest

/-- Settles O11, by what each kind of position decodes. -/
theorem encodeOfDecodeIsTheBytes : Obligations.EncodeOfDecodeIsTheBytes := by
  intro c bs i rest h
  obtain ⟨hwf, hbytes⟩ := encode_decode h
  exact ⟨hwf, (decode_ok_size h).1, hbytes⟩

end Sys2Proof

namespace Sys2Proof.Machine

/-! ### The laws of the default token coding (R99, R105) -/

theorem highNibble_lt (b : Byte) : highNibble b < 16 := Nat.mod_lt _ (by decide)

/-- The size that the coding gives a token, by the nibble as `decodeReference` reads it. -/
theorem tokCodec_size_highNibble (b : Byte) :
    config.tok.size (BitVec.ofNat 4 (b.toNat / 16)) = tokenSizeOfNibble (highNibble b) := by
  rw [← ofNat_highNibble]
  exact congrArg tokenSizeOfNibble ((BitVec.toNat_ofNat ..).trans (Nat.mod_eq_of_lt (highNibble_lt b)))

theorem tokenSizeOfNibble_bounds (n : Nat) : 2 ≤ tokenSizeOfNibble n ∧ tokenSizeOfNibble n ≤ 4 := by
  unfold tokenSizeOfNibble
  split
  · decide
  · split <;> decide

/-- Every back-reference instruction stands for a legal pair (R98, R102 to R104). -/
theorem encodable_pairOf {i : Instr} (hwf : i.wellFormed = true) (hk : i.ctx = .reference) :
    config.Encodable (pairOf i).1 (pairOf i).2 := by
  have hdist (disp : BitVec 12) : 1 ≤ distanceOf disp ∧ distanceOf disp ≤ windowSize :=
    ⟨Nat.le_add_left .., disp.isLt⟩
  cases i <;> simp only [Instr.ctx, reduceCtorEq] at hk
  case ref2 n disp =>
    have hn : 2 ≤ n.toNat := of_decide_eq_true hwf
    have hlt := n.isLt
    refine ⟨?_, ?_, hdist disp⟩ <;> simp only [pairOf, ref2Length, config, maxLen] <;> omega
  case ref3 lenf disp =>
    have hlt := lenf.isLt
    refine ⟨?_, ?_, hdist disp⟩ <;> simp only [pairOf, ref3Length, config, maxLen] <;> omega
  case ref4 lenf disp =>
    have hlt := lenf.isLt
    refine ⟨?_, ?_, hdist disp⟩ <;> simp only [pairOf, ref4Length, config, maxLen] <;> omega

/-- The three length ranges of R105. -/
theorem refInstr_cases (len dist : Nat) :
    (len ≤ 16 ∧ refInstr len dist = .ref2 (BitVec.ofNat 4 (len - 1)) (BitVec.ofNat 12 (dist - 1))) ∨
      (16 < len ∧ len ≤ 272 ∧ refInstr len dist = .ref3 (BitVec.ofNat 8 (len - 17)) (BitVec.ofNat 12 (dist - 1))) ∨
      (272 < len ∧ refInstr len dist = .ref4 (BitVec.ofNat 16 (len - 273)) (BitVec.ofNat 12 (dist - 1))) := by
  unfold refInstr
  split
  · exact .inl ⟨‹_›, rfl⟩
  · split
    · exact .inr (.inl ⟨by omega, ‹_›, rfl⟩)
    · exact .inr (.inr ⟨by omega, rfl⟩)

theorem refInstr_ctx (len dist : Nat) : (refInstr len dist).ctx = .reference := by
  rcases refInstr_cases len dist with ⟨-, h⟩ | ⟨-, -, h⟩ | ⟨-, h⟩ <;> rw [h] <;> rfl

theorem refInstr_wellFormed {len dist : Nat} (h : 3 ≤ len) : (refInstr len dist).wellFormed = true := by
  rcases refInstr_cases len dist with ⟨hle, he⟩ | ⟨-, -, he⟩ | ⟨-, he⟩ <;> rw [he]
  · refine decide_eq_true ?_
    rw [BitVec.toNat_ofNat]
    omega
  · rfl
  · rfl

/-- The tier of a pair holds its length and its distance (R102 to R105). -/
theorem pairOf_refInstr {len dist : Nat} (h : config.Encodable len dist) :
    pairOf (refInstr len dist) = (len, dist) := by
  obtain ⟨hmin, hmax, hpos, hwin⟩ := h
  simp only [config, maxLen, windowSize] at hmax hwin
  have hdist : distanceOf (BitVec.ofNat 12 (dist - 1)) = dist := by
    rw [distanceOf, BitVec.toNat_ofNat]
    omega
  rcases refInstr_cases len dist with ⟨hle, he⟩ | ⟨hgt, hle, he⟩ | ⟨hgt, he⟩ <;> rw [he, pairOf, hdist]
  · rw [ref2Length, BitVec.toNat_ofNat, show (len - 1) % 2 ^ 4 + 1 = len by omega]
  · rw [ref3Length, BitVec.toNat_ofNat, show (len - 17) % 2 ^ 8 + 17 = len by omega]
  · rw [ref4Length, BitVec.toNat_ofNat, show (len - 273) % 2 ^ 16 + 273 = len by omega]

/-- What the coding writes for a legal pair is a token. -/
theorem referenceToken_tokenEncode {len dist : Nat} (h : 3 ≤ len) :
    ReferenceToken (tokenEncode len dist) (refInstr len dist) :=
  referenceToken_encode (refInstr_wellFormed h) (refInstr_ctx len dist)

theorem config_decode_encode {len dist : Nat} (h : config.Encodable len dist) :
    config.tok.decode (config.tok.encode len dist) = (len, dist) :=
  (referenceToken_tokenEncode h.1).tokenDecode_eq.trans (pairOf_refInstr h)

theorem config_size_encode {len dist : Nat} (h : config.Encodable len dist) :
    ∃ b rest, config.tok.encode len dist = b :: rest ∧
      config.tok.size (BitVec.ofNat 4 (b.toNat / 16)) = (config.tok.encode len dist).length := by
  obtain ⟨b, rest, he, hs⟩ := (referenceToken_tokenEncode (dist := dist) h.1).size
  exact ⟨b, rest, he, (tokCodec_size_highNibble b).trans hs⟩

theorem config_decode_legal {b : Byte} {rest : List Byte}
    (h : config.tok.size (BitVec.ofNat 4 (b.toNat / 16)) = (b :: rest).length) :
    config.Encodable (config.tok.decode (b :: rest)).1 (config.tok.decode (b :: rest)).2 := by
  obtain ⟨i, hi⟩ := exists_referenceToken ((tokCodec_size_highNibble b).symm.trans h)
  have hpair : config.tok.decode (b :: rest) = pairOf i := hi.tokenDecode_eq
  rw [hpair]
  exact encodable_pairOf hi.wellFormed hi.ctx

theorem config_lawful : config.Lawful where
  size_ge n := (tokenSizeOfNibble_bounds n.toNat).1
  two_sizes := ⟨0, 1, by decide⟩
  decode_encode _ _ := config_decode_encode
  size_encode _ _ := config_size_encode
  decode_legal _ _ := config_decode_legal
  key_pos := by decide
  key_le := by decide
  command_code k := by cases k <;> rfl
  code_command := codeOfCommand_commandOfCode
  status_code x y := by cases x <;> cases y <;> decide
  kind_code x y := by cases x <;> cases y <;> decide
  cause_code x y := by cases x <;> cases y <;> decide
  inLen_le := by decide
  outLen_le := by decide
  outLen_ge := by decide
  outLen_gt := by decide

theorem config_buffered : config.Buffered := fun n => (tokenSizeOfNibble_bounds n.toNat).2

/-- Each tier has fewer bytes than the shortest length it holds (R141). -/
theorem config_compact : config.Compact := by
  intro len dist h
  have hmin : 3 ≤ len := h.1
  have hlen : (config.tok.encode len dist).length = (refInstr len dist).byteLen := encode_length _
  rw [hlen]
  rcases refInstr_cases len dist with ⟨-, he⟩ | ⟨hgt, -, he⟩ | ⟨hgt, he⟩ <;> rw [he, Instr.byteLen] <;> omega

/-! ### The fetch of an encoded instruction -/

theorem fetchWith_of_ok {dec : List Byte → Decoded} {first : Nat} {m : Memory} {len a : Nat} {bs rest : List Byte}
    {i : Instr} (hb : fetchBytes m len a first = .ok bs) (hd : dec bs = .ok i rest) :
    fetchWith dec first m len a = .instr i := by
  simp only [fetchWith, hb, hd]

/-- An item whose first bytes say that it has `n`. -/
theorem fetchWith_of_need {dec : List Byte → Decoded} {first n : Nat} {m : Memory} {len a : Nat}
    {bs bs' rest : List Byte} {i : Instr} (hb : fetchBytes m len a first = .ok bs) (hd : dec bs = .need n)
    (hb' : fetchBytes m len a n = .ok bs') (hd' : dec bs' = .ok i rest) : fetchWith dec first m len a = .instr i := by
  simp only [fetchWith, hb, hd, hb', hd']

/-- The first `k` bytes of an item that stands at `a`. -/
theorem fetchBytes_take {m : Memory} {len a k : Nat} {bs : List Byte} (hl : a + bs.length ≤ len)
    (hr : memReadN m a bs.length = some bs) (hk : k ≤ bs.length) : fetchBytes m len a k = .ok (bs.take k) :=
  fetchBytes_ok.2 ⟨by omega, by simpa using memReadN_sub hr (i := 0) (k := k) (by omega)⟩

section
variable {m : Memory} {len a : Nat} {i : Instr} (hwf : i.wellFormed = true) (hl : a + (encode i).length ≤ len)
  (hr : memReadN m a (encode i).length = some (encode i))
include hwf hl hr

/-- An instruction as long as what its position fetches first. -/
theorem fetchItem_of_firstBytes (hfirst : (encode i).length = i.ctx.firstBytes) :
    fetchItem m len i.ctx a = .instr i :=
  fetchWith_of_ok (fetchBytes_ok.2 ⟨by omega, hfirst ▸ hr⟩) (by simpa using decode_encode hwf [])

/-- Outside the back-references, which are fetched by `fetchReference`, an encoded instruction is fetched as itself. -/
theorem fetchItem_encode (hk : i.ctx ≠ .reference) : fetchItem m len i.ctx a = .instr i := by
  cases i with
  | hdrx len32 =>
    have hfirst : fetchBytes m len a 4 = .ok [tagByte, 0, 0, 0] := fetchBytes_take hl hr (by simp [Instr.byteLen])
    exact fetchWith_of_need hfirst rfl (fetchBytes_ok.2 ⟨hl, hr⟩) (by simpa using decode_encode hwf [])
  | ref2 n disp => exact absurd rfl hk
  | ref3 lenf disp => exact absurd rfl hk
  | ref4 lenf disp => exact absurd rfl hk
  | _ => exact fetchItem_of_firstBytes hwf hl hr rfl

/-- The token of a back-reference is fetched whole. -/
theorem fetchReference_encode (hk : i.ctx = .reference) : fetchReference config m len a = .token (encode i) := by
  obtain ⟨b, rest, he, hs⟩ := (referenceToken_encode hwf hk).size
  have hfirst : fetchBytes m len a 1 = .ok [b] := by
    rw [fetchBytes_take hl hr (by rw [he]; simp), he]
    rfl
  have hsize : tokenSize config [b] = (encode i).length := by
    rw [tokenSize, ofNat_highNibble, tokCodec_size_highNibble, hs]
  simp only [fetchReference, hfirst, hsize, fetchBytes_ok.2 ⟨hl, hr⟩]

end

/-! ### The step at a fetch point -/

theorem stepWith_of_fetch_instr {c : Config} {s : State} {i : Instr} (h : fetch c s = .instr i) :
    stepWith c s = exec i s := by
  rw [stepWith, h]

theorem stepWith_of_fetch_token {c : Config} {s : State} {t : List Byte} (h : fetch c s = .token t) :
    stepWith c s = execToken c t s := by
  rw [stepWith, h]

/-- The tiers of the opcode table are tokens of the default coding (R178). -/
theorem exec_reference {i : Instr} (hk : i.ctx = .reference) (s : State) :
    exec i s = execToken config (encode i) s := by
  cases i <;> simp only [Instr.ctx, reduceCtorEq] at hk <;> rfl

theorem DecoderAt.fetch_eq {s : State} {d : DState} (h : DecoderAt s d) : fetch config s = fetchStream config s := by
  obtain ⟨hs, hb, hcmd, -⟩ := h
  have he : engineOfCmd config s.cmd = .lzDecoder := by rw [hcmd]; rfl
  simp [fetch, hs, hb, he]

theorem PixelsRun.fetch_eq {s : State} (h : PixelsRun s) : fetch config s = fetchPixel s := by
  obtain ⟨hs, hb, hcmd⟩ := h
  have he : engineOfCmd config s.cmd = .pixelDecoder := by rcases hcmd with h | h <;> rw [h] <;> rfl
  simp [fetch, hs, hb, he]

/-- At a fetch point the item of its kind is fetched there (R106, R185, R232). -/
theorem FetchPoint.fetch_eq {s : State} {k : Ctx} {a : Nat} (h : FetchPoint s k a) :
    fetch config s = if k = .reference then fetchReference config s.inp s.inLen.toNat a
      else fetchItem s.inp s.inLen.toNat k a := by
  rcases h with ⟨hat, rfl, rfl⟩ | ⟨hat, hw, hn, rfl, rfl⟩ | ⟨hat, rfl, rfl⟩ | ⟨hat, rfl, rfl⟩ |
    ⟨hrun, hlatch, hs, rfl, rfl⟩
  case inr.inr.inr.inr => exact hrun.fetch_eq.trans (fetchPixel_of_sample hlatch hs)
  all_goals
    rw [hat.fetch_eq, fetchStream]
    obtain ⟨-, -, -, hd⟩ := hat
    rw [hd]
  case inr.inl => simp [hw, hn]
  all_goals rfl

/-- Where the bytes at the fetch point are an instruction's encoding, the step is that instruction's. -/
theorem FetchPoint.step_eq_exec {s : State} {i : Instr} {a : Nat} (hp : FetchPoint s i.ctx a)
    (hwf : i.wellFormed = true) (hl : a + (encode i).length ≤ s.inLen.toNat)
    (hr : memReadN s.inp a (encode i).length = some (encode i)) : step s = exec i s := by
  have hfetch := hp.fetch_eq
  by_cases hk : i.ctx = .reference
  · rw [if_pos hk, fetchReference_encode hwf hl hr hk] at hfetch
    exact (stepWith_of_fetch_token hfetch).trans (exec_reference hk s).symm
  · rw [if_neg hk, fetchItem_encode hwf hl hr hk] at hfetch
    exact stepWith_of_fetch_instr hfetch

/-! ### The statements -/

/-- Settles O12: the laws of R99 follow from the round trips of back-reference tokens. -/
theorem defaultConfigurationIsLawful : Obligations.DefaultConfigurationIsLawful :=
  ⟨config_lawful, config_buffered, config_compact⟩

/-- Settles O8: the fetch at a fetch point, at a raised `START` and at the latch. -/
theorem stepRunsTheDecodedInstruction : Obligations.StepRunsTheDecodedInstruction :=
  ⟨fun _ _ _ hwf hp hl hr => hp.step_eq_exec hwf hl hr, fun s hs => stepWith_start config s hs,
    fun _ _ hrun hlatch => stepWith_of_fetch_instr (hrun.fetch_eq.trans (fetchPixel_of_latch hlatch)), fun _ => rfl⟩

/-- Settles O9: closed words, each decoded by computation. -/
theorem specWordsDecodeToTheirInstructions : Obligations.SpecWordsDecodeToTheirInstructions :=
  ⟨rfl, rfl, rfl, rfl, rfl, rfl, rfl, rfl, rfl, rfl, rfl, rfl, rfl, rfl⟩

/-- Settles O26, by what a read finds after the write of the four bytes. -/
theorem rasterPixelIsStoredAtItsAddress : Obligations.RasterPixelIsStoredAtItsAddress := by
  intro blue green red alpha s
  have hout (b : Nat) := memRead_memWriteN s.out (rasterAddr s.pix.s) b [blue, green, red, alpha]
  have hframe : OnlyPixels s (writeRaster ⟨blue, green, red, alpha⟩ s) :=
    ⟨⟨rfl, rfl, rfl, rfl, rfl, rfl, rfl, rfl⟩, ⟨fun _ => rfl, rfl⟩, rfl, rfl⟩
  refine ⟨_, rfl, ?_, ?_, ?_, ?_, fun b hb => (hout b).trans (if_neg ?_), rfl, hframe⟩
  · exact (hout _).trans (by simp)
  · exact (hout _).trans (by simp)
  · exact (hout _).trans (by simp)
  · exact (hout _).trans (by simp)
  · simp only [List.length_cons, List.length_nil]
    omega

end Sys2Proof.Machine
end

section
/-! PROOFS. What the statements about whole commands share (spec R22, R62, R130, R132, R305): runs of the block, the state
that `START` answers, the reads of a written input, memories filled from address 0, and the end of a command with a
result or a fault. -/

namespace Sys2Proof.Machine

/-! ### Runs -/

theorem reaches_refl (c : Config) (s : State) : Reaches c s s := ⟨0, rfl⟩

theorem steps_succ_of_next {c : Config} {s t : State} (h : stepWith c s = .next t) (k : Nat) :
    steps c (k + 1) s = steps c k t := by
  rw [steps, h]

theorem reaches_of_step {c : Config} {s t : State} (h : stepWith c s = .next t) : Reaches c s t :=
  ⟨1, steps_succ_of_next h 0⟩

theorem Reaches.head {c : Config} {s t u : State} (h : stepWith c s = .next t) (hu : Reaches c t u) :
    Reaches c s u := by
  obtain ⟨k, hk⟩ := hu
  exact ⟨k + 1, (steps_succ_of_next h k).trans hk⟩

theorem exists_step_of_steps {c : Config} {s u : State} {k : Nat} (h : steps c (k + 1) s = .next u) :
    ∃ t, stepWith c s = .next t ∧ steps c k t = .next u := by
  cases hx : stepWith c s with
  | next t => exact ⟨t, rfl, (steps_succ_of_next hx k).symm.trans h⟩
  | fault f => simp [steps, hx] at h
  | refused r => simp [steps, hx] at h

/-- A property that every step keeps, and that the start of a run has, is had by its end. -/
theorem Reaches.induct {c : Config} {P : State → Prop} (hstep : ∀ s t, P s → stepWith c s = .next t → P t)
    {s u : State} (h : Reaches c s u) (hs : P s) : P u := by
  obtain ⟨k, hk⟩ := h
  induction k generalizing s with
  | zero =>
    cases hk
    exact hs
  | succ k ih =>
    obtain ⟨t, ht, hk⟩ := exists_step_of_steps hk
    exact ih (hstep s t hs ht) hk

theorem Reaches.trans {c : Config} {s t u : State} (h : Reaches c s t) (h' : Reaches c t u) : Reaches c s u := by
  obtain ⟨k, hk⟩ := h
  induction k generalizing s with
  | zero =>
    cases hk
    exact h'
  | succ k ih =>
    obtain ⟨r, hr, hk⟩ := exists_step_of_steps hk
    exact .head hr (ih hk)

/-! ### The `START` line -/

theorem takeReference_start (size len dist : Nat) (s : State) : (takeReference size len dist s).start = s.start := by
  unfold takeReference
  split <;> rfl

theorem DecoderMove.start_eq {c : Config} {s t : State} (h : DecoderMove c s t) : t.start = s.start := by
  cases h
  case reference => exact takeReference_start ..
  all_goals rfl

theorem EncoderMove.start_eq {c : Config} {s t : State} (h : EncoderMove c s t) : t.start = s.start := by
  cases h <;> rfl

theorem PixelMove.start_eq {c : Config} {s t : State} (h : PixelMove c s t) : t.start = s.start := by
  cases h <;> rfl

/-- An instruction of a command takes the `START` line down, whether it is accepted or ignored (R23, R131). -/
theorem exec_command_start {k : Command} {s t : State} (h : exec (commandInstr k) s = .next t) : t.start = false := by
  rw [exec_commandInstr] at h
  rcases issue_cases (beginCommand k) s with ⟨-, hi⟩ | ⟨-, hi⟩ <;> rw [hi] at h <;> cases h
  · rfl
  · rw [beginCommand_start, commandStart_start]

/-- No step leaves a `START` raised (R23; log entry 2). -/
theorem stepWith_start_down {c : Config} {s t : State} (h : stepWith c s = .next t) : t.start = false := by
  rcases step_cases h with ⟨-, hx⟩ | ⟨hs, -, rfl⟩ | ⟨hs, -, -, hm⟩ | ⟨hs, -, -, hm⟩ | ⟨hs, -, -, hm⟩
  · exact exec_command_start hx
  · exact hs
  · rw [hm.start_eq, hs]
  · rw [hm.start_eq, hs]
  · rw [hm.start_eq, hs]

theorem Reaches.start_down {c : Config} {s t : State} (h : Reaches c s t) (hs : s.start = false) : t.start = false :=
  h.induct (P := fun s => s.start = false) (fun _ _ _ hx => stepWith_start_down hx) hs

/-- What the host's `START` answers is what the step on a raised line answers. -/
theorem stepWith_of_hostStart {c : Config} {s t : State} (h : hostStart c s = .next t) :
    stepWith c { s with start := true } = .next t := by
  rcases hostStart_cases c s with ⟨-, -, hr⟩ | ⟨-, hx⟩
  · rw [hr] at h
    cases h
  · exact (stepWith_start c _ rfl).trans (hx.symm.trans h)

theorem hostStart_start_down {c : Config} {s t : State} (h : hostStart c s = .next t) : t.start = false :=
  stepWith_start_down (stepWith_of_hostStart h)

/-- A command that is ready begins, in the instruction's own execution and on the host's `START` alike (R130). -/
theorem Ready.begins {c : Config} {k : Command} {inp : List Byte} {s : State} (h : Ready c k inp s) :
    exec (commandInstr k) s = .next (beginCommand k (commandStart s)) ∧
      hostStart c s = .next (beginCommand k (commandStart s)) := by
  obtain ⟨hb, hk, -, -, hfits⟩ := h
  refine ⟨exec_command_of_not_busy k hb, ?_⟩
  rcases hostStart_cases c s with ⟨-, hno, -⟩ | ⟨-, hx⟩
  · rw [hfits] at hno
    cases hno
  · rw [hx, hk, exec_command_of_not_busy (s := { s with start := true }) k hb]
    rfl

/-! ### The running engine -/

/-- A command of the engine `e` runs, and no `START` is raised. -/
def Runs (c : Config) (e : Engine) (s : State) : Prop :=
  s.start = false ∧ s.status = .busy ∧ engineOfCmd c s.cmd = e

/-- No error is recorded (R262). -/
def NoError (s : State) : Prop := s.errKind = .none ∧ s.errCause = .none ∧ s.errOffset = 0

section
variable {c : Config} {s : State}

theorem Runs.engine_eq {e : Engine} (h : Runs c e s) : engineOfCmd c s.cmd = e := by
  obtain ⟨-, -, he⟩ := h
  exact he

theorem Runs.fetch_decoder (h : Runs c .lzDecoder s) : fetch c s = fetchStream c s := by
  obtain ⟨hs, hb, he⟩ := h
  simp [fetch, hs, hb, he]

theorem Runs.fetch_pixels (h : Runs c .pixelDecoder s) : fetch c s = fetchPixel s := by
  obtain ⟨hs, hb, he⟩ := h
  simp [fetch, hs, hb, he]

theorem Runs.stepWith_encoder (h : Runs c .lzEncoder s) : stepWith c s = encoderStep c s := by
  obtain ⟨hs, hb, he⟩ := h
  simp [stepWith, fetch, internalStep, hs, hb, he]

theorem stepWith_of_fetch_internal (h : fetch c s = .internal) : stepWith c s = internalStep c s := by
  rw [stepWith, h]

theorem stepWith_of_fetch_truncated (h : fetch c s = .truncated) : stepWith c s = takeTruncated c s := by
  rw [stepWith, h]

theorem stepWith_of_fetch_rejected {r : Reject} (h : fetch c s = .rejected r) : stepWith c s = takeRejected r s := by
  rw [stepWith, h]

end

/-! ### Reads of a written input -/

/-- The fetch of `n` bytes of a written input: they are its bytes, unless they run past its end (R62). -/
theorem InputIs.fetchBytes_eq {s : State} {inp : List Byte} (h : InputIs s inp) (a n : Nat) :
    fetchBytes s.inp s.inLen.toNat a n =
      if inp.length < a + n then .error .truncated else .ok ((inp.drop a).take n) := by
  obtain ⟨hlen, hread⟩ := h
  rw [fetchBytes, hlen]
  split
  · rfl
  · have hpart := memReadN_sub hread (i := a) (k := n) (by omega)
    rw [Nat.zero_add] at hpart
    rw [hpart]

theorem InputIs.length_eq {s : State} {inp : List Byte} (h : InputIs s inp) : s.inLen.toNat = inp.length := by
  obtain ⟨hlen, -⟩ := h
  exact hlen

theorem InputIs.of_sameHostSide {s t : State} {inp : List Byte} (h : InputIs s inp) (hsame : SameHostSide s t) :
    InputIs t inp := by
  obtain ⟨hinp, hlen, -⟩ := hsame
  rw [InputIs, hinp, hlen]
  exact h

/-! ### Memories filled from address 0 -/

/-- The memory that holds exactly the bytes `bs`, from address 0. -/
def filledWith (bs : List Byte) : Memory := memWriteN [] 0 bs

theorem memRead_filledWith (bs : List Byte) (a : Nat) : memRead (filledWith bs) a = bs[a]? := by
  rw [filledWith, memRead_memWriteN, Nat.zero_add]
  split
  · rw [Nat.sub_zero]
  · rw [List.getElem?_eq_none (by omega), memRead_nil]

theorem memReadN_filledWith (bs : List Byte) : memReadN (filledWith bs) 0 bs.length = some bs :=
  memReadN_of_memRead (memWf_memWriteN rfl 0 bs) fun i _ => by
    rw [Nat.zero_add]
    exact memRead_filledWith bs i

/-- Bytes written at the end are appended. -/
theorem memWriteN_filledWith (bs cs : List Byte) :
    memWriteN (filledWith bs) bs.length cs = filledWith (bs ++ cs) := by
  rw [filledWith, filledWith, memWriteN_append, Nat.zero_add]

theorem memWrite_filledWith (bs : List Byte) (v : Byte) :
    memWrite (filledWith bs) bs.length v = filledWith (bs ++ [v]) :=
  memWriteN_filledWith bs [v]

/-! ### The end of a command -/

/-- Completion with the result `bs`, whose length fits the register (R133). -/
theorem resultIs_complete {c : Config} (hc : c.Lawful) {bs : List Byte} {s : State} (hout : s.out = filledWith bs)
    (hclear : NoError s) (hlen : bs.length < 2 ^ c.outLenBits) : ResultIs (complete c bs.length s) bs := by
  have hwidth : (2 : Nat) ^ c.outLenBits ≤ 2 ^ 33 := Nat.pow_le_pow_right (by decide) hc.outLen_le
  refine ⟨rfl, ?_, ?_, hclear⟩
  · rw [complete_outLen, BitVec.toNat_ofNat, Nat.mod_eq_of_lt hlen, Nat.mod_eq_of_lt (by omega)]
  · rw [complete_out, hout, memReadN_filledWith]

/-- A fault whose offset fits the register (R270). -/
theorem faultIs_raise {cause : ErrCause} {offset : Nat} (h : offset < 2 ^ 32) (s : State) :
    FaultIs (raise cause offset s) cause offset :=
  ⟨rfl, rfl, rfl, by rw [raise_errOffset, BitVec.toNat_ofNat, Nat.mod_eq_of_lt h], rfl⟩

/-- A length that `IN_LEN` holds has at most 32 bits (R10). -/
theorem Ready.length_lt {c : Config} (hc : c.Lawful) {k : Command} {inp : List Byte} {s : State}
    (h : Ready c k inp s) : inp.length < 2 ^ 32 := by
  obtain ⟨-, -, -, hlen, -⟩ := h
  exact hlen.trans_le (Nat.pow_le_pow_right (by decide) hc.inLen_le)

end Sys2Proof.Machine
end

section
/-! PROOFS. `DECOMPRESS` as a whole (spec R132, R134, R185, R186): each row of R185, and each loop of R186 over the rows, leads
the stepped decoder to the state that the whole function's variables describe, or to the whole function's fault. -/

namespace Sys2Proof.Machine

/-! ### What it means that the machine follows a whole function -/

/-- From `s` the machine reaches the fault of `res`, or a state that `Q` relates to the value of `res`. -/
def Follows {α : Type} (c : Config) (s : State) (res : Except StreamFault α) (Q : α → State → Prop) : Prop :=
  match res with
  | .error f => ∃ u, Reaches c s u ∧ FaultIs u f.1 f.2
  | .ok r => ∃ u, Reaches c s u ∧ Q r u

section
variable {α β : Type} {c : Config} {s t : State} {res : Except StreamFault α} {Q : α → State → Prop}
  {Q' : β → State → Prop}

theorem follows_ok {r : α} (h : Q r s) : Follows c s (.ok r) Q := ⟨s, reaches_refl c s, h⟩

theorem Follows.of_reaches (h : Reaches c s t) (hf : Follows c t res Q) : Follows c s res Q := by
  cases res <;> exact hf.imp fun u ⟨hu, hq⟩ => ⟨h.trans hu, hq⟩

theorem Follows.bind {f : α → Except StreamFault β} (h : Follows c s res Q)
    (hf : ∀ r u, res = .ok r → Q r u → Follows c u (f r) Q') : Follows c s (res.bind f) Q' := by
  cases res with
  | error e => exact h
  | ok r =>
    obtain ⟨u, hu, hq⟩ := h
    exact (hf r u rfl hq).of_reaches hu

/-- A step that takes the fault (R270). -/
theorem follows_raise {cause : ErrCause} {offset : Nat} (h : stepWith c s = .next (raise cause offset t))
    (hlt : offset < 2 ^ 32) : Follows c s (.error (cause, offset)) Q :=
  ⟨_, reaches_of_step h, faultIs_raise hlt t⟩

end

/-! ### R186 as a sequence -/

/-- The token that a control bit selects (R186). -/
def wholeItem (c : Config) (inp : List Byte) (total : Nat) (isRef : Bool) (st : DecResult) :
    Except StreamFault DecResult :=
  if isRef then wholeReference c inp total st else wholeLiteral inp st

theorem wholeBits_succ (c : Config) (inp : List Byte) (total : Nat) (x : Byte) (j : Nat) (st : DecResult) :
    wholeBits c inp total x (j + 1) st =
      if st.bytes.length = total then .ok st
      else (wholeItem c inp total (x.getLsbD j) st).bind (wholeBits c inp total x j) := by
  rw [wholeBits, wholeItem]
  split
  · rfl
  · cases (if x.getLsbD j = true then wholeReference c inp total st else wholeLiteral inp st) <;> rfl

theorem wholeBlocks_end {c : Config} {inp : List Byte} {total : Nat} (fuel : Nat) {st : DecResult}
    (h : total ≤ st.bytes.length) : wholeBlocks c inp total fuel st = .ok st := by
  cases fuel <;> exact if_neg (Nat.not_lt.2 h)

theorem wholeBlocks_truncated {c : Config} {inp : List Byte} {total : Nat} (fuel : Nat) {st : DecResult}
    (h : st.bytes.length < total) (hin : inp.length ≤ st.rp) :
    wholeBlocks c inp total fuel st = .error (.truncatedToken, st.rp) := by
  cases fuel with
  | zero => exact if_pos h
  | succ fuel => rw [wholeBlocks, if_pos h, List.drop_of_length_le hin]

theorem wholeBlocks_succ {c : Config} {inp : List Byte} {total : Nat} (fuel : Nat) {st : DecResult} {x : Byte}
    {bs : List Byte} (h : st.bytes.length < total) (hin : inp.drop st.rp = x :: bs) :
    wholeBlocks c inp total (fuel + 1) st =
      (wholeBits c inp total x 8 { st with rp := st.rp + 1 }).bind (wholeBlocks c inp total fuel) := by
  rw [wholeBlocks, if_pos h, hin]
  cases hx : wholeBits c inp total x 8 { st with rp := st.rp + 1 } <;> simp [hx, Except.bind]

theorem decompressFn_eq (c : Config) (inp : List Byte) :
    decompressFn c inp = (wholeHeader c inp).bind fun h =>
      wholeBlocks c inp h.1 (inp.length - h.2) { bytes := [], rp := h.2 } := by
  rw [decompressFn]
  cases wholeHeader c inp <;> rfl

/-! ### The decoder's registers and the variables of R186 -/

/-- `DECOMPRESS` runs on `inp` and stands where the variables `st` of R186 say: `rp` and `out` are the machine's, and no more
than `total` bytes are out. -/
structure DecAt (c : Config) (inp : List Byte) (total : Nat) (st : DecResult) (s : State) : Prop where
  runs : Runs c .lzDecoder s
  input : InputIs s inp
  clear : NoError s
  total_eq : s.dec.totalLen = total
  rp_eq : s.dec.rp = st.rp
  wp_eq : s.dec.wp = st.bytes.length
  out_eq : s.out = filledWith st.bytes
  rp_le : st.rp ≤ inp.length
  len_le : st.bytes.length ≤ total

/-- The last `j` bits of the control byte `x` are still to be used: they are the first ones in `ctrl` (R175). -/
def BitsLeft (x : Byte) (j : Nat) (s : State) : Prop := s.dec.nbits = j ∧ s.dec.ctrl = x <<< (8 - j)

/-- The decoder is at the loop head, with the last `j` bits of `x` to be used. -/
def AtLoop (c : Config) (inp : List Byte) (total : Nat) (x : Byte) (j : Nat) (st : DecResult) (s : State) : Prop :=
  DecAt c inp total st s ∧ s.dec.dstate = .ctrl ∧ BitsLeft x j s

/-- A control bit is about to be tested, bytes being owed. -/
def AtBit (c : Config) (inp : List Byte) (total : Nat) (x : Byte) (j : Nat) (st : DecResult) (s : State) : Prop :=
  DecAt c inp total st s ∧ s.dec.dstate = .bit ∧ BitsLeft x j s ∧ st.bytes.length < total

/-- A control bit has selected the next token, of which nothing is read yet (R176). -/
def AtToken (c : Config) (inp : List Byte) (total : Nat) (x : Byte) (j : Nat) (st : DecResult) (isRef : Bool)
    (s : State) : Prop :=
  DecAt c inp total st s ∧ s.dec.dstate = (if isRef then .ref else .lit) ∧ BitsLeft x j s ∧ s.dec.tokStart = st.rp ∧
    st.bytes.length < total

/-- Bit `j` of a byte is the first one when the bits before it are shifted out (R95, R175). -/
theorem nextCtrlBit_shiftLeft (x : Byte) {j : Nat} (h : j < 8) : nextCtrlBit (x <<< (8 - (j + 1))) = x.getLsbD j := by
  rw [nextCtrlBit, BitVec.getLsbD_shiftLeft, show 7 - (8 - (j + 1)) = j by omega]
  simp

theorem shiftCtrl_shiftLeft (x : Byte) {j : Nat} (h : j < 8) : shiftCtrl (x <<< (8 - (j + 1))) = x <<< (8 - j) := by
  rw [shiftCtrl, ← BitVec.shiftLeft_add, show 8 - (j + 1) + 1 = 8 - j by omega]

section
variable {c : Config} {inp : List Byte} {total : Nat} {x : Byte} {j : Nat} {st : DecResult} {s : State}

/-- The decoder's registers may change in what `DecAt` does not speak of. -/
theorem DecAt.with_dec (h : DecAt c inp total st s) {d : LzDecoder} (ht : d.totalLen = s.dec.totalLen)
    (hr : d.rp = s.dec.rp) (hw : d.wp = s.dec.wp) : DecAt c inp total st { s with dec := d } where
  runs := h.runs
  input := h.input
  clear := h.clear
  total_eq := ht.trans h.total_eq
  rp_eq := hr.trans h.rp_eq
  wp_eq := hw.trans h.wp_eq
  out_eq := h.out_eq
  rp_le := h.rp_le
  len_le := h.len_le

/-! ### The loop head -/

theorem DecAt.decoderStep_of_internal (h : DecAt c inp total st s) (hf : fetchStream c s = .internal) :
    stepWith c s = decoderStep c s := by
  rw [stepWith_of_fetch_internal (h.runs.fetch_decoder.trans hf), internalStep, h.runs.engine_eq]

theorem DecAt.wp_eq_total_iff (h : DecAt c inp total st s) : s.dec.wp = s.dec.totalLen ↔ st.bytes.length = total := by
  rw [h.wp_eq, h.total_eq]

/-- Bytes are owed and bits are left (R173, R185). -/
theorem AtLoop.to_bit (h : AtLoop c inp total x (j + 1) st s) (hlen : st.bytes.length ≠ total) :
    ∃ t, Reaches c s t ∧ AtBit c inp total x (j + 1) st t := by
  obtain ⟨hat, hd, hbits, hctrl⟩ := h
  have hstep : stepWith c s = .next { s with dec := { s.dec with dstate := .bit } } := by
    have hf : fetchStream c s = .internal := by
      rw [fetchStream, hd]
      exact if_pos (.inr (by omega))
    rw [hat.decoderStep_of_internal hf, decoderStep, hd, loopHead, if_neg (mt hat.wp_eq_total_iff.1 hlen)]
  exact ⟨_, reaches_of_step hstep, hat.with_dec rfl rfl rfl, rfl, ⟨hbits, hctrl⟩, lt_of_le_of_ne hat.len_le hlen⟩

/-- The next bit selects the next token (R175, R176). -/
theorem AtBit.to_token (h : AtBit c inp total x (j + 1) st s) (hj : j < 8) :
    ∃ t, Reaches c s t ∧ AtToken c inp total x j st (x.getLsbD j) t := by
  obtain ⟨hat, hd, ⟨hbits, hctrl⟩, hlt⟩ := h
  have hstep : stepWith c s = .next (bitTest s) := by
    have hf : fetchStream c s = .internal := by rw [fetchStream, hd]
    rw [hat.decoderStep_of_internal hf, decoderStep, hd]
  refine ⟨_, reaches_of_step hstep, hat.with_dec rfl rfl rfl, ?_, ⟨?_, ?_⟩, hat.rp_eq, hlt⟩
  · rw [bitTest_dec, ← nextCtrlBit_shiftLeft x hj, ← hctrl]
  · rw [bitTest_dec, hbits]
    rfl
  · rw [bitTest_dec, ← shiftCtrl_shiftLeft x hj, ← hctrl]

/-- At `total` bytes the decoder completes, whatever bits are left (R173, R184). -/
theorem DecAt.finishes (hc : c.Lawful) (htotal : total < 2 ^ 32) (hat : DecAt c inp total st s)
    (hd : s.dec.dstate = .ctrl) (hlen : st.bytes.length = total) :
    Follows c s (.ok st) fun r u => ResultIs u r.bytes ∧ u.dec.rp = r.rp := by
  have hw := hat.wp_eq_total_iff.2 hlen
  have hstep : stepWith c s = .next (finishDecompress c s) := by
    have hf : fetchStream c s = .internal := by
      rw [fetchStream, hd]
      exact if_pos (.inl hw)
    rw [hat.decoderStep_of_internal hf, decoderStep, hd, loopHead, if_pos hw]
  refine ⟨_, reaches_of_step hstep, ?_, hat.rp_eq⟩
  have hwidth : (2 : Nat) ^ 32 ≤ 2 ^ c.outLenBits := Nat.pow_le_pow_right (by decide) hc.outLen_ge
  rw [finishDecompress, hat.total_eq, ← hlen]
  exact resultIs_complete hc hat.out_eq hat.clear (by omega)

/-! ### Items: the control byte and the literal -/

/-- A control byte or a literal is the next byte of the input, if there is one. -/
theorem InputIs.fetchBytes_one (h : InputIs s inp) (a : Nat) :
    fetchBytes s.inp s.inLen.toNat a 1 = match inp.drop a with
      | [] => .error .truncated
      | b :: _ => .ok [b] := by
  rw [h.fetchBytes_eq]
  by_cases hlen : inp.length ≤ a
  · rw [if_pos (by omega), List.drop_of_length_le hlen]
  · have hdrop : inp.drop a = inp[a] :: inp.drop (a + 1) := List.drop_eq_getElem_cons (by omega)
    rw [if_neg (by omega), hdrop]
    rfl

theorem lt_length_of_drop_eq_cons {a : Nat} {b : Byte} {bs : List Byte} (h : inp.drop a = b :: bs) :
    a + bs.length + 1 = inp.length := by
  have hlen := congrArg List.length h
  rw [List.length_drop, List.length_cons] at hlen
  omega

/-- What the fetch of a one-byte item finds. -/
theorem InputIs.fetchItem_control (h : InputIs s inp) (a : Nat) :
    fetchItem s.inp s.inLen.toNat .control a = match inp.drop a with
      | [] => .truncated
      | b :: _ => .instr (.ctl b) := by
  rw [fetchItem, fetchWith, Ctx.firstBytes, h.fetchBytes_one]
  cases inp.drop a <;> rfl

theorem InputIs.fetchItem_literal (h : InputIs s inp) (a : Nat) :
    fetchItem s.inp s.inLen.toNat .literal a = match inp.drop a with
      | [] => .truncated
      | b :: _ => .instr (.lit b) := by
  rw [fetchItem, fetchWith, Ctx.firstBytes, h.fetchBytes_one]
  cases inp.drop a <;> rfl

/-- At the end of a block: a control byte is due, unless every byte is out (R173). -/
def AtBlock (c : Config) (inp : List Byte) (total : Nat) (st : DecResult) (s : State) : Prop :=
  DecAt c inp total st s ∧ s.dec.dstate = .ctrl ∧ (st.bytes.length < total → s.dec.nbits = 0)

theorem AtBlock.fetch_eq (h : AtBlock c inp total st s) (hlt : st.bytes.length < total) :
    fetch c s = fetchItem s.inp s.inLen.toNat .control st.rp := by
  obtain ⟨hat, hd, hbits⟩ := h
  have hw : ¬(s.dec.wp = s.dec.totalLen ∨ s.dec.nbits ≠ 0) := by
    rw [hat.wp_eq_total_iff]
    have := hbits hlt
    omega
  rw [hat.runs.fetch_decoder, fetchStream, hd, ← hat.rp_eq]
  exact if_neg hw

/-- The control byte of the next block is there (R174). -/
theorem AtBlock.to_bit {b : Byte} {bs : List Byte} (h : AtBlock c inp total st s) (hlt : st.bytes.length < total)
    (hnext : inp.drop st.rp = b :: bs) :
    ∃ t, Reaches c s t ∧ AtBit c inp total b 8 { st with rp := st.rp + 1 } t := by
  have hfetch := h.fetch_eq hlt
  obtain ⟨hat, hd, hbits⟩ := h
  rw [hat.input.fetchItem_control, hnext] at hfetch
  have hend := lt_length_of_drop_eq_cons hnext
  refine ⟨_, reaches_of_step (stepWith_of_fetch_instr hfetch), ?_, rfl, ⟨rfl, ?_⟩, hlt⟩
  · exact
      { hat with
        rp_eq := congrArg (· + 1) hat.rp_eq
        rp_le := by show st.rp + 1 ≤ inp.length; omega }
  · exact (BitVec.shiftLeft_zero b).symm

/-- The control byte of the next block is missing (R174). -/
theorem AtBlock.follows_truncated {α : Type} {Q : α → State → Prop} (h : AtBlock c inp total st s)
    (hlt : st.bytes.length < total) (hin : inp.length < 2 ^ 32) (hnext : inp.drop st.rp = []) :
    Follows c s (.error (.truncatedToken, st.rp)) Q := by
  have hfetch := h.fetch_eq hlt
  obtain ⟨hat, hd, -⟩ := h
  rw [hat.input.fetchItem_control, hnext] at hfetch
  have hstep : stepWith c s =
      .next (raise .truncatedToken st.rp { s with dec := { s.dec with tokStart := s.dec.rp } }) := by
    rw [stepWith_of_fetch_truncated hfetch, takeTruncated, hat.runs.engine_eq, hd, ← hat.rp_eq]
  exact follows_raise hstep (hat.rp_le.trans_lt hin)

/-- A literal (R177, R186). -/
theorem AtToken.follows_literal (hin : inp.length < 2 ^ 32) (h : AtToken c inp total x j st false s) :
    Follows c s (wholeLiteral inp st) (AtLoop c inp total x j) := by
  obtain ⟨hat, hd, hbits, -, hlt⟩ := h
  have hfetch : fetch c s = fetchItem s.inp s.inLen.toNat .literal st.rp := by
    rw [hat.runs.fetch_decoder, fetchStream, hd, ← hat.rp_eq]
    rfl
  rw [hat.input.fetchItem_literal] at hfetch
  rw [wholeLiteral]
  cases hnext : inp.drop st.rp with
  | nil =>
    rw [hnext] at hfetch
    have hstep : stepWith c s = .next (raise .truncatedToken st.rp s) := by
      rw [stepWith_of_fetch_truncated hfetch, takeTruncated, hat.runs.engine_eq, hd, ← hat.rp_eq]
      rfl
    exact follows_raise hstep (hat.rp_le.trans_lt hin)
  | cons b bs =>
    rw [hnext] at hfetch
    have hend := lt_length_of_drop_eq_cons hnext
    refine ⟨_, reaches_of_step (stepWith_of_fetch_instr hfetch), ?_, rfl, hbits⟩
    exact
      { hat with
        rp_eq := congrArg (· + 1) hat.rp_eq
        wp_eq := by rw [List.length_append, ← hat.wp_eq]; rfl
        out_eq := by
          rw [← memWrite_filledWith, ← hat.out_eq, ← hat.wp_eq]
        rp_le := by show st.rp + 1 ≤ inp.length; omega
        len_le := by rw [List.length_append]; exact hlt }

/-! ### The back-reference -/

/-- A copy of `m` bytes at distance `d` is under way (R182). -/
def AtCopy (c : Config) (inp : List Byte) (total : Nat) (x : Byte) (j m d : Nat) (st : DecResult) (s : State) : Prop :=
  DecAt c inp total st s ∧ s.dec.dstate = .copy ∧ BitsLeft x j s ∧ s.dec.refLeft = m ∧ s.dec.refDist = d

theorem AtCopy.stepWith_eq {m d : Nat} (h : AtCopy c inp total x j m d st s) : stepWith c s = copyStep s := by
  obtain ⟨hat, hd, -⟩ := h
  rw [hat.decoderStep_of_internal (by rw [fetchStream, hd]), decoderStep, hd]

/-- One byte of the copy (R182). -/
theorem AtCopy.step {m d : Nat} (h : AtCopy c inp total x j (m + 1) d st s) (hd : 1 ≤ d) (hdist : d ≤ st.bytes.length)
    (hlen : st.bytes.length + (m + 1) ≤ total) :
    ∃ t, Reaches c s t ∧
      AtCopy c inp total x j m d { st with bytes := st.bytes ++ [st.bytes.getD (st.bytes.length - d) 0] } t := by
  have hstep := h.stepWith_eq
  obtain ⟨hat, hstate, hbits, hleft, hrd⟩ := h
  have hread : memRead s.out (s.dec.wp - s.dec.refDist) = some (st.bytes.getD (st.bytes.length - d) 0) := by
    rw [hat.out_eq, hat.wp_eq, hrd, memRead_filledWith, List.getD_eq_getElem?_getD,
      List.getElem?_eq_getElem (by omega), Option.getD_some]
  rw [copyStep, if_neg (by omega), hread] at hstep
  refine ⟨_, reaches_of_step hstep, ?_, hstate, hbits, ?_, hrd⟩
  · exact
      { hat with
        wp_eq := by rw [List.length_append, ← hat.wp_eq]; rfl
        out_eq := by rw [← memWrite_filledWith, ← hat.out_eq, ← hat.wp_eq]
        len_le := by rw [List.length_append, List.length_singleton]; omega }
  · show s.dec.refLeft - 1 = m
    omega

/-- The whole copy (R182). -/
theorem AtCopy.to_loop {m d : Nat} (h : AtCopy c inp total x j m d st s) (hd : 1 ≤ d) (hdist : d ≤ st.bytes.length)
    (hlen : st.bytes.length + m ≤ total) :
    ∃ t, Reaches c s t ∧ AtLoop c inp total x j { st with bytes := copyBack m d st.bytes } t := by
  induction m generalizing st s with
  | zero =>
    have hstep := h.stepWith_eq
    obtain ⟨hat, -, hbits, hleft, -⟩ := h
    rw [copyStep, if_pos hleft] at hstep
    exact ⟨_, reaches_of_step hstep, hat.with_dec rfl rfl rfl, rfl, hbits⟩
  | succ m ih =>
    obtain ⟨t, ht, hcopy⟩ := h.step hd hdist hlen
    obtain ⟨u, hu, hloop⟩ := ih hcopy (by rw [List.length_append]; omega)
      (by rw [List.length_append, List.length_singleton]; omega)
    exact ⟨u, ht.trans hu, hloop⟩

/-- What the fetch of a token finds (R179). -/
theorem InputIs.fetchReference_eq (h : InputIs s inp) (c : Config) (a : Nat) :
    fetchReference c s.inp s.inLen.toNat a = match inp.drop a with
      | [] => .truncated
      | b :: bs =>
        if inp.length < a + c.tok.size (BitVec.ofNat 4 (highNibble b)) then .truncated
        else .token ((b :: bs).take (c.tok.size (BitVec.ofNat 4 (highNibble b)))) := by
  rw [fetchReference, h.fetchBytes_one]
  cases hnext : inp.drop a with
  | nil => rfl
  | cons b bs =>
    by_cases hsize : inp.length < a + c.tok.size (BitVec.ofNat 4 (highNibble b)) <;>
      simp [tokenSize, h.fetchBytes_eq, hnext, hsize]

/-- The token of a back-reference, all its bytes (R180 to R183). -/
theorem AtToken.follows_token (hin : inp.length < 2 ^ 32) (h : AtToken c inp total x j st true s) {t : List Byte}
    (hfetch : fetch c s = .token t) (hend : st.rp + t.length ≤ inp.length) (hdist : 1 ≤ (c.tok.decode t).2) :
    Follows c s
      (if st.bytes.length < (c.tok.decode t).2 then .error (.refBeforeStart, st.rp)
        else .ok
          { bytes := copyBack (min (c.tok.decode t).1 (total - st.bytes.length)) (c.tok.decode t).2 st.bytes
            rp := st.rp + t.length })
      (AtLoop c inp total x j) := by
  obtain ⟨hat, -, hbits, hstart, hlt⟩ := h
  have hstep := stepWith_of_fetch_token hfetch
  rw [execToken, takeReference, hat.wp_eq, hat.total_eq] at hstep
  split
  next hbefore =>
    rw [if_pos hbefore, hstart] at hstep
    exact follows_raise hstep (hat.rp_le.trans_lt hin)
  next hlegal =>
    rw [if_neg hlegal] at hstep
    obtain ⟨u, hu, hcopy⟩ : ∃ u, Reaches c s u ∧
        AtCopy c inp total x j (min (c.tok.decode t).1 (total - st.bytes.length)) (c.tok.decode t).2
          { st with rp := st.rp + t.length } u :=
      ⟨_, reaches_of_step hstep,
        { hat with rp_eq := congrArg (· + t.length) hat.rp_eq, wp_eq := hat.wp_eq, rp_le := hend }, rfl, hbits, by
          rw [← hat.wp_eq, ← hat.total_eq], rfl⟩
    obtain ⟨v, hv, hloop⟩ := hcopy.to_loop hdist (Nat.not_lt.1 hlegal) (by dsimp only; omega)
    exact ⟨v, hu.trans hv, hloop⟩

/-- As many bytes as the first one says are a token of that size, which stands for a legal pair (R99, R179). -/
theorem take_token_legal (hc : c.Lawful) {b : Byte} {bs : List Byte}
    (h : c.tok.size (BitVec.ofNat 4 (highNibble b)) ≤ (b :: bs).length) :
    ((b :: bs).take (c.tok.size (BitVec.ofNat 4 (highNibble b)))).length = c.tok.size (BitVec.ofNat 4 (highNibble b)) ∧
      c.Encodable (c.tok.decode ((b :: bs).take (c.tok.size (BitVec.ofNat 4 (highNibble b))))).1
        (c.tok.decode ((b :: bs).take (c.tok.size (BitVec.ofNat 4 (highNibble b))))).2 := by
  have hpos := hc.size_ge (BitVec.ofNat 4 (highNibble b))
  have hlen := List.length_take_of_le h
  refine ⟨hlen, ?_⟩
  obtain ⟨k, hk⟩ : ∃ k, c.tok.size (BitVec.ofNat 4 (highNibble b)) = k + 1 :=
    ⟨c.tok.size (BitVec.ofNat 4 (highNibble b)) - 1, by omega⟩
  rw [hk, List.take_succ_cons] at hlen ⊢
  refine hc.decode_legal b (bs.take k) ?_
  rw [← ofNat_highNibble, hk, hlen]

/-- A back-reference (R179 to R183, R186). -/
theorem AtToken.follows_reference (hc : c.Lawful) (hin : inp.length < 2 ^ 32)
    (h : AtToken c inp total x j st true s) :
    Follows c s (wholeReference c inp total st) (AtLoop c inp total x j) := by
  have ⟨hat, hd, _, hstart, _⟩ := h
  have hfetch : fetch c s = fetchReference c s.inp s.inLen.toNat st.rp := by
    rw [hat.runs.fetch_decoder, fetchStream, hd, ← hat.rp_eq]
    rfl
  have htruncated (hf : fetch c s = .truncated) :
      Follows c s (.error (.truncatedToken, st.rp)) (AtLoop c inp total x j) := by
    have hstep : stepWith c s = .next (raise .truncatedToken st.rp s) := by
      rw [stepWith_of_fetch_truncated hf, takeTruncated, hat.runs.engine_eq, hd, hstart]
      rfl
    exact follows_raise hstep (hat.rp_le.trans_lt hin)
  rw [hat.input.fetchReference_eq] at hfetch
  rw [wholeReference]
  cases hnext : inp.drop st.rp with
  | nil =>
    rw [hnext] at hfetch
    exact htruncated hfetch
  | cons b bs =>
    rw [hnext] at hfetch
    dsimp only at hfetch ⊢
    split at hfetch
    next hshort =>
      rw [if_pos hshort]
      exact htruncated hfetch
    next hlong =>
      rw [if_neg hlong]
      have hend := lt_length_of_drop_eq_cons hnext
      obtain ⟨hlen, -, -, hdist, -⟩ := take_token_legal hc (b := b) (bs := bs) (by rw [List.length_cons]; omega)
      have hf := h.follows_token hin hfetch (by omega) hdist
      rwa [hlen] at hf

/-! ### Blocks -/

theorem AtToken.follows_item (hc : c.Lawful) (hin : inp.length < 2 ^ 32) {isRef : Bool}
    (h : AtToken c inp total x j st isRef s) :
    Follows c s (wholeItem c inp total isRef st) (AtLoop c inp total x j) := by
  cases isRef with
  | false => exact h.follows_literal hin
  | true => exact h.follows_reference hc hin

theorem AtBit.follows_item (hc : c.Lawful) (hin : inp.length < 2 ^ 32) (h : AtBit c inp total x (j + 1) st s)
    (hj : j < 8) : Follows c s (wholeItem c inp total (x.getLsbD j) st) (AtLoop c inp total x j) := by
  obtain ⟨t, ht, htok⟩ := h.to_token hj
  exact (htok.follows_item hc hin).of_reaches ht

/-- The tokens of a block, from the loop head on (R173, R186). -/
theorem AtLoop.follows_bits (hc : c.Lawful) (hin : inp.length < 2 ^ 32) (h : AtLoop c inp total x j st s) (hj : j ≤ 8) :
    Follows c s (wholeBits c inp total x j st) (AtBlock c inp total) := by
  induction j generalizing st s with
  | zero =>
    obtain ⟨hat, hd, hbits, -⟩ := h
    exact follows_ok ⟨hat, hd, fun _ => hbits⟩
  | succ j ih =>
    rw [wholeBits_succ]
    split
    next hlen =>
      obtain ⟨hat, hd, -⟩ := h
      exact follows_ok ⟨hat, hd, fun hlt => absurd hlen hlt.ne⟩
    next hlen =>
      obtain ⟨t, ht, hbit⟩ := h.to_bit hlen
      refine Follows.of_reaches ht ?_
      exact (hbit.follows_item hc hin (by omega)).bind fun r u _ hu => ih hu (by omega)

/-- A whole block, from its control byte's first bit on (R174, R186). -/
theorem AtBit.follows_bits (hc : c.Lawful) (hin : inp.length < 2 ^ 32) (h : AtBit c inp total x 8 st s) :
    Follows c s (wholeBits c inp total x 8 st) (AtBlock c inp total) := by
  have ⟨_, _, _, hlt⟩ := h
  rw [wholeBits_succ, if_neg hlt.ne]
  exact (h.follows_item hc hin (by omega)).bind fun r u _ hu => hu.follows_bits hc hin (by omega)

theorem wholeItem_rp_le {isRef : Bool} {r : DecResult} (h : wholeItem c inp total isRef st = .ok r) :
    st.rp ≤ r.rp := by
  unfold wholeItem at h
  split at h
  · unfold wholeReference at h
    split at h
    · cases h
    · dsimp only at h
      split at h
      · cases h
      · split at h <;> cases h
        exact Nat.le_add_right ..
  · unfold wholeLiteral at h
    split at h <;> cases h
    exact Nat.le_add_right ..

theorem wholeBits_rp_le {r : DecResult} (h : wholeBits c inp total x j st = .ok r) : st.rp ≤ r.rp := by
  induction j generalizing st with
  | zero =>
    cases h
    exact Nat.le_refl _
  | succ j ih =>
    rw [wholeBits_succ] at h
    split at h
    · cases h
      exact Nat.le_refl _
    · cases hitem : wholeItem c inp total (x.getLsbD j) st with
      | error e =>
        rw [hitem] at h
        cases h
      | ok r' =>
        rw [hitem] at h
        exact (wholeItem_rp_le hitem).trans (ih h)

/-- The blocks of R186, where the bytes left are fuel enough. -/
theorem AtBlock.follows_blocks (hc : c.Lawful) (hin : inp.length < 2 ^ 32) (htotal : total < 2 ^ 32) (fuel : Nat)
    (h : AtBlock c inp total st s) (hfuel : inp.length ≤ st.rp + fuel) :
    Follows c s (wholeBlocks c inp total fuel st) fun r u => ResultIs u r.bytes ∧ u.dec.rp = r.rp := by
  induction fuel using Nat.strongRecOn generalizing st s with
  | ind fuel ih =>
    have ⟨hat, hd, _⟩ := h
    by_cases hlen : st.bytes.length = total
    · rw [wholeBlocks_end fuel hlen.ge]
      exact hat.finishes hc htotal hd hlen
    have hlt : st.bytes.length < total := lt_of_le_of_ne hat.len_le hlen
    cases hnext : inp.drop st.rp with
    | nil =>
      rw [wholeBlocks_truncated fuel hlt (List.drop_eq_nil_iff.1 hnext)]
      exact h.follows_truncated hlt hin hnext
    | cons b bs =>
      have hend := lt_length_of_drop_eq_cons hnext
      obtain ⟨fuel, rfl⟩ : ∃ k, fuel = k + 1 := ⟨fuel - 1, by omega⟩
      obtain ⟨t, ht, hbit⟩ := h.to_bit hlt hnext
      rw [wholeBlocks_succ fuel hlt hnext]
      refine Follows.of_reaches ht ((hbit.follows_bits hc hin).bind fun r u hr hu => ?_)
      have hrp : st.rp + 1 ≤ r.rp := wholeBits_rp_le hr
      exact ih fuel (Nat.lt_succ_self fuel) hu (by omega)

/-! ### The header -/

/-- `DECOMPRESS` has begun on `inp` (R37). -/
def AtHeader (c : Config) (inp : List Byte) (s : State) : Prop :=
  Runs c .lzDecoder s ∧ InputIs s inp ∧ NoError s ∧ s.dec.dstate = .hdr ∧ s.dec.wp = 0 ∧ s.dec.nbits = 0 ∧ s.out = []

theorem Ready.atHeader (h : Ready c .decompress inp s) :
    AtHeader c inp (beginCommand .decompress (commandStart s)) := by
  obtain ⟨-, hk, hin, -, -⟩ := h
  exact ⟨⟨rfl, rfl, congrArg engineOf hk⟩, hin, ⟨rfl, rfl, rfl⟩, rfl, rfl, rfl, rfl⟩

/-- A header of `size` bytes is read (R171, R172, R185). -/
theorem AtHeader.to_blocks (h : AtHeader c inp s) {i : Instr} {len size : Nat} (hfetch : fetch c s = .instr i)
    (hexec : exec i s = .next (enterBlocks len size s)) (hsize : size ≤ inp.length) :
    ∃ t, Reaches c s t ∧ AtBlock c inp len { bytes := [], rp := size } t := by
  obtain ⟨hruns, hin, hclear, -, hwp, hbits, hout⟩ := h
  refine ⟨_, reaches_of_step ((stepWith_of_fetch_instr hfetch).trans hexec), ?_, rfl, fun _ => hbits⟩
  exact ⟨hruns, hin, hclear, rfl, rfl, hwp, hout, hsize, Nat.zero_le _⟩

/-- A header that is cut short (R171, R172). -/
theorem AtHeader.follows_truncated {α : Type} {Q : α → State → Prop} (h : AtHeader c inp s)
    (hfetch : fetch c s = .truncated) : Follows c s (.error (.truncatedHeader, 0)) Q := by
  obtain ⟨hruns, -, -, hd, -⟩ := h
  have hstep : stepWith c s = .next (raise .truncatedHeader 0 { s with dec := { s.dec with tokStart := 0 } }) := by
    rw [stepWith_of_fetch_truncated hfetch, takeTruncated, hruns.engine_eq, hd]
  exact follows_raise hstep (by decide)

theorem length_lt_four {bs : List Byte} (h : ∀ a b c d rest, bs = a :: b :: c :: d :: rest → False) :
    bs.length < 4 := by
  match bs, h with
  | [], _ | [_], _ | [_, _], _ | [_, _, _], _ => simp
  | _ :: _ :: _ :: _ :: _, h => exact (h _ _ _ _ _ rfl).elim

/-- The header (R170 to R172, R186). -/
theorem AtHeader.follows_header (h : AtHeader c inp s) :
    Follows c s (wholeHeader c inp) fun r t => r.1 < 2 ^ 32 ∧ AtBlock c inp r.1 { bytes := [], rp := r.2 } t := by
  have ⟨hruns, hin, _, hd, _⟩ := h
  have hfetch : fetch c s = fetchHeader c s.inp s.inLen.toNat := by rw [hruns.fetch_decoder, fetchStream, hd]
  have hread (n : Nat) := hin.fetchBytes_eq 0 n
  unfold wholeHeader
  split
  next t b1 b2 b3 rest =>
    have hfirst : fetchBytes s.inp s.inLen.toNat 0 4 = .ok [t, b1, b2, b3] := by simp [hread]
    split
    next htag =>
      have hf : fetch c s = .rejected .badTag := by
        simp [hfetch, fetchHeader, fetchWith, Ctx.firstBytes, hfirst, decodeHeader, htag]
      exact follows_raise (stepWith_of_fetch_rejected hf) (by decide)
    next htag =>
      split
      next hlen =>
        have hf : fetch c s = .instr (.hdr (BitVec.ofNat 24 (leNat [b1, b2, b3]))) := by
          simp [hfetch, fetchHeader, fetchWith, Ctx.firstBytes, hfirst, decodeHeader, htag, hlen]
        have hval := toNat_ofNat_leNat (w := 24) (n := 3) rfl (bs := [b1, b2, b3]) rfl
        have hlt := (BitVec.ofNat 24 (leNat [b1, b2, b3])).isLt
        rw [hval] at hlt
        obtain ⟨u, hu, hblock⟩ := h.to_blocks (len := leNat [b1, b2, b3]) (size := 4) hf
          (by rw [exec, execHdr, hval]) (by simp)
        exact ⟨u, hu, hlt.trans (by decide), hblock⟩
      next hlen =>
        split
        next c0 c1 c2 c3 rest =>
          have hall : fetchBytes s.inp s.inLen.toNat 0 8 = .ok [t, b1, b2, b3, c0, c1, c2, c3] := by simp [hread]
          have hf : fetch c s = .instr (.hdrx (BitVec.ofNat 32 (leNat [c0, c1, c2, c3]))) := by
            simp [hfetch, fetchHeader, fetchWith, Ctx.firstBytes, hfirst, hall, decodeHeader, htag, not_not.1 hlen]
          have hval := toNat_ofNat_leNat (w := 32) (n := 4) rfl (bs := [c0, c1, c2, c3]) rfl
          have hlt := (BitVec.ofNat 32 (leNat [c0, c1, c2, c3])).isLt
          rw [hval] at hlt
          obtain ⟨u, hu, hblock⟩ := h.to_blocks (len := leNat [c0, c1, c2, c3]) (size := 8) hf
            (by rw [exec, execHdrx, hval]) (by simp)
          exact ⟨u, hu, hlt, hblock⟩
        next hshort =>
          have hlt := length_lt_four hshort
          have hall : fetchBytes s.inp s.inLen.toNat 0 8 = .error .truncated :=
            (hread 8).trans (if_pos (by simp only [List.length_cons]; omega))
          refine h.follows_truncated ?_
          simp [hfetch, fetchHeader, fetchWith, Ctx.firstBytes, hfirst, hall, decodeHeader, htag, not_not.1 hlen]
  next hshort =>
    have hlt := length_lt_four hshort
    have hfirst : fetchBytes s.inp s.inLen.toNat 0 4 = .error .truncated := (hread 4).trans (if_pos (by omega))
    exact h.follows_truncated (by simp [hfetch, fetchHeader, fetchWith, Ctx.firstBytes, hfirst])

/-- `DECOMPRESS`, begun on `inp`, ends as R186 says. -/
theorem AtHeader.follows_decompressFn (hc : c.Lawful) (hin : inp.length < 2 ^ 32) (h : AtHeader c inp s) :
    Follows c s (decompressFn c inp) fun r u => ResultIs u r.bytes ∧ u.dec.rp = r.rp := by
  rw [decompressFn_eq]
  refine h.follows_header.bind fun r u _ ⟨htotal, hu⟩ => hu.follows_blocks hc hin htotal _ ?_
  exact le_add_tsub

end

/-- Settles O48: the machine follows R186 row by row from the state in which the command begins. -/
theorem decompressReachesTheWholeFunction : Obligations.DecompressReachesTheWholeFunction := by
  intro c hc inp s hready
  obtain ⟨hexec, hstart⟩ := hready.begins
  have hfollows := hready.atHeader.follows_decompressFn hc (hready.length_lt hc)
  cases hfn : decompressFn c inp <;> rw [hfn] at hfollows <;> obtain ⟨u, hu, hend⟩ := hfollows
  · exact ⟨_, u, hexec, hstart, hu, hend⟩
  · exact ⟨_, u, hexec, hstart, hu, hend⟩

end Sys2Proof.Machine
end

section
/-! PROOFS. `COMPRESS` as a whole (spec R132, R135, R141, R200, R202 to R216): the loop of R216 and what each of its passes keeps,
the size of its result, and the stepped encoder that makes the same passes. -/

namespace Sys2Proof.Machine

/-! ### The best match -/

section
variable {c : Config} {inp : List Byte} {pos : Nat}

/-- The best match is that of a candidate, or has length 0 (R205, R206). -/
theorem searchMatch_cases (dist0 : Nat) (cands : List Nat) :
    (searchMatch c inp pos dist0 cands).1 = 0 ∨
      ∃ p ∈ cands, searchMatch c inp pos dist0 cands = (matchLen c inp p pos, pos - p) :=
  searchMatch_induct (fun b => b.1 = 0 ∨ ∃ p ∈ cands, b = (matchLen c inp p pos, pos - p)) (.inl rfl)
    fun p hp => .inr ⟨p, hp, rfl⟩

/-- Two best matches that stand for the same token: the distance counts only where there is a match. -/
def SameMatch (b b' : Nat × Nat) : Prop := b.1 = b'.1 ∧ (0 < b.1 → b.2 = b'.2)

/-- What `best_dist` held before the search does not show in the token (R205). -/
theorem searchMatch_sameMatch (dist0 dist1 : Nat) (cands : List Nat) :
    SameMatch (searchMatch c inp pos dist0 cands) (searchMatch c inp pos dist1 cands) := by
  have hfold (b b' : Nat × Nat) (h : SameMatch b b') :
      SameMatch (cands.foldl (betterMatch c inp pos) b) (cands.foldl (betterMatch c inp pos) b') := by
    induction cands generalizing b b' with
    | nil => exact h
    | cons p ps ih =>
      refine ih _ _ ?_
      rw [betterMatch, betterMatch, h.1]
      split
      · exact ⟨rfl, fun _ => rfl⟩
      · exact h
  exact hfold _ _ ⟨rfl, fun h => absurd h (Nat.lt_irrefl 0)⟩

theorem SameMatch.tokenBytes_eq {b b' : Nat × Nat} (h : SameMatch b b') (c : Config) (inp : List Byte) (pos : Nat) :
    tokenBytes c inp pos b = tokenBytes c inp pos b' := by
  obtain ⟨hlen, hdist⟩ := h
  rw [tokenBytes, tokenBytes, ← hlen]
  split
  next hmin => rw [hdist (Nat.lt_of_lt_of_le (by decide) hmin)]
  next => rfl

theorem SameMatch.tokenAdvance_eq {b b' : Nat × Nat} (h : SameMatch b b') : tokenAdvance b = tokenAdvance b' := by
  rw [tokenAdvance, tokenAdvance, h.1]

/-! ### One pass of R216's loop -/

theorem tokenAdvance_pos (best : Nat × Nat) : 1 ≤ tokenAdvance best := by
  unfold tokenAdvance
  split
  next h => exact Nat.le_trans (by decide) h
  next => exact Nat.le_refl 1

variable {st : EncState}

/-- The chosen match is legal for the token coding (R98, R203, R204). -/
theorem wholeBest_encodable (h : minLen ≤ (wholeBest c inp st).1) :
    c.Encodable (wholeBest c inp st).1 (wholeBest c inp st).2 := by
  obtain ⟨hlen, hdist⟩ :=
    searchMatch_bounds c inp st.pos 0 (cands := candidates c inp st.idx st.pos) fun p => candidates_window
  obtain ⟨hlow, hhigh⟩ := hdist (Nat.lt_of_lt_of_le (by decide) h)
  exact ⟨h, hlen.trans (Nat.min_le_left ..), hlow, hhigh⟩

/-- A token covers no more than the bytes that are left (R204). -/
theorem wholeBest_advance_le (hpos : st.pos < inp.length) :
    st.pos + tokenAdvance (wholeBest c inp st) ≤ inp.length := by
  obtain ⟨hlen, -⟩ :=
    searchMatch_bounds c inp st.pos 0 (cands := candidates c inp st.idx st.pos) fun p => candidates_window
  have hcap := hlen.trans (Nat.min_le_right ..)
  unfold tokenAdvance wholeBest
  split <;> omega

theorem wholeStep_pos (c : Config) (inp : List Byte) (st : EncState) :
    (wholeStep c inp st).pos = st.pos + tokenAdvance (wholeBest c inp st) := by
  unfold wholeStep
  dsimp only
  split <;> rfl

/-- A property that R216's variables have before the loop, and that a pass keeps, they have when the input is covered; the result
is theirs, with a group that is begun flushed (R214, R216). -/
theorem compressFn_induct {P : EncState → Prop} (h0 : P (wholeStart c inp))
    (hstep : ∀ st, st.pos < inp.length → P st → P (wholeStep c inp st)) :
    ∃ st, P st ∧ st.pos = inp.length ∧
      compressFn c inp = if 0 < st.cnt then (wholeFlush st).out else st.out := by
  have hscan (fuel : Nat) (st : EncState) (h : P st) (hle : st.pos ≤ inp.length)
      (hfuel : inp.length ≤ st.pos + fuel) :
      P (wholeScan c inp fuel st) ∧ (wholeScan c inp fuel st).pos = inp.length := by
    induction fuel generalizing st with
    | zero => exact ⟨h, hle.antisymm hfuel⟩
    | succ fuel ih =>
      rw [wholeScan]
      split
      next hpos =>
        have hadv := tokenAdvance_pos (wholeBest c inp st)
        have hle := wholeBest_advance_le (c := c) hpos
        exact ih _ (hstep st hpos h) (by rw [wholeStep_pos]; omega) (by rw [wholeStep_pos]; omega)
      next hpos => exact ⟨h, hle.antisymm (Nat.not_lt.1 hpos)⟩
  obtain ⟨h, hend⟩ := hscan inp.length _ h0 (Nat.zero_le _) (Nat.le_add_left ..)
  exact ⟨_, h, hend, rfl⟩

/-! ### The size of the result -/

theorem headerBytes_length (c : Config) (n : Nat) :
    (headerBytes c n).length = 4 ∨ (headerBytes c n).length = 8 := by
  unfold headerBytes
  split
  · exact .inl (by simp)
  · exact .inr (by simp)

/-- No token has more than `ρ` thirds of the bytes it covers. -/
def TokensWithin (c : Config) (ρ : Nat) : Prop :=
  3 ≤ ρ ∧ ∀ l d, c.Encodable l d → 3 * (c.tok.encode l d).length ≤ ρ * l

theorem tokensWithin_of_compact (h : c.Compact) : TokensWithin c 3 :=
  ⟨Nat.le_refl 3, fun l d hld => Nat.mul_le_mul_left 3 (h l d hld)⟩

/-- Of a group buffer of 32 bytes it follows that a token has at most 4 bytes for at least 3 (R27, R98). -/
theorem tokensWithin_of_buffered (hc : c.Lawful) (hb : c.Buffered) : TokensWithin c 4 := by
  refine ⟨by decide, fun l d hld => ?_⟩
  obtain ⟨b, rest, -, hsize⟩ := hc.size_encode l d hld
  have hlen := hb (BitVec.ofNat 4 (b.toNat / 16))
  have ⟨hmin, _⟩ := hld
  omega

/-- The bytes written and buffered so far: `g` control bytes, one for every 8 positions at least, and the tokens' bytes (R213,
R216). -/
def SizeWithin (ρ : Nat) (st : EncState) : Prop :=
  ∃ g, 3 * (st.out.length + st.buf.length) ≤ 24 + 3 * g + ρ * st.pos ∧ 8 * g + st.cnt ≤ st.pos

theorem tokenBytes_within {ρ : Nat} (hρ : TokensWithin c ρ) :
    3 * (tokenBytes c inp st.pos (wholeBest c inp st)).length ≤ ρ * tokenAdvance (wholeBest c inp st) := by
  obtain ⟨hone, htok⟩ := hρ
  unfold tokenBytes tokenAdvance
  split
  next h => exact htok _ _ (wholeBest_encodable h)
  next =>
    have hlen : ((inp.drop st.pos).take 1).length ≤ 1 := List.length_take_le ..
    omega

theorem SizeWithin.wholeStep {ρ : Nat} (hρ : TokensWithin c ρ) (h : SizeWithin ρ st) :
    SizeWithin ρ (wholeStep c inp st) := by
  obtain ⟨g, hsize, hgroups⟩ := h
  have htok := tokenBytes_within (inp := inp) (st := st) hρ
  have hadv := tokenAdvance_pos (wholeBest c inp st)
  have hmul := Nat.mul_add ρ st.pos (tokenAdvance (wholeBest c inp st))
  unfold Machine.wholeStep
  dsimp only
  split
  next hfull =>
    simp only [wholeToken, groupSize] at hfull
    refine ⟨g + 1, ?_⟩
    simp only [wholeFlush, wholeToken, List.length_append, List.length_cons, List.length_nil]
    omega
  next =>
    refine ⟨g, ?_⟩
    simp only [wholeToken, List.length_append]
    omega

/-- The bound of R141, for token codings that need at most `ρ` thirds of what they cover. -/
theorem compressFn_length_le {ρ : Nat} (hρ : TokensWithin c ρ) (inp : List Byte) :
    3 * (compressFn c inp).length ≤ 24 + ρ * inp.length + 3 * ((inp.length + 7) / 8) := by
  have h0 : SizeWithin ρ (wholeStart c inp) := by
    refine ⟨0, ?_, Nat.le_refl 0⟩
    have := headerBytes_length c inp.length
    simp only [wholeStart, List.length_nil]
    omega
  obtain ⟨st, ⟨g, hsize, hgroups⟩, hpos, hout⟩ := compressFn_induct h0 fun st _ h => h.wholeStep hρ
  rw [hpos] at hsize hgroups
  rw [hout]
  split
  next hcnt =>
    simp only [wholeFlush, List.length_append, List.length_cons]
    omega
  next => omega

end

/-- Settles O55: the bound for tokens no longer than what they cover. -/
theorem compressedSizeIsBounded : Obligations.CompressedSizeIsBounded := by
  intro c hc b
  have hsize := compressFn_length_le (tokensWithin_of_compact hc) b
  omega

/-! ### The encoder's registers and the variables of R216 -/

theorem groupSize_pos : 0 < groupSize := by decide

/-- A token goes behind the group's bytes (R209). -/
theorem groupBytes_writeGroup (e : LzEncoder) (tok : List Byte) (h : e.grpLen + tok.length ≤ 32) (e' : LzEncoder)
    (hbuf : e'.grpBuf = writeGroup e.grpBuf e.grpLen tok) (hlen : e'.grpLen = e.grpLen + tok.length) :
    groupBytes e' = groupBytes e ++ tok := by
  have hold : (groupBytes e).length = e.grpLen := by simp [groupBytes]; omega
  refine List.ext_getElem? fun i => ?_
  have hget := writeGroup_get e.grpBuf e.grpLen tok h i
  rw [List.getElem?_append, hold, groupBytes, groupBytes, List.getElem?_take, List.getElem?_take, hbuf, hlen,
    Vector.getElem?_toList, Vector.getElem?_toList, hget]
  by_cases hi : i < e.grpLen
  · rw [if_pos (by omega), if_neg (by omega), if_pos hi, if_pos hi]
  · rw [if_neg hi]
    by_cases hi' : i < e.grpLen + tok.length
    · rw [if_pos hi', if_pos (by omega)]
    · rw [if_neg hi', List.getElem?_eq_none (by omega)]

/-- `COMPRESS` runs on `inp`, the header is written, and the registers are R216's variables. -/
structure EncAt (c : Config) (inp : List Byte) (st : EncState) (s : State) : Prop where
  runs : Runs c .lzEncoder s
  input : InputIs s inp
  clear : NoError s
  n_eq : s.enc.n = inp.length
  pos_eq : s.enc.pos = st.pos
  wp_eq : s.enc.wp = st.out.length
  out_eq : s.out = filledWith st.out
  ctrl_eq : s.enc.grpCtrl = st.ctrl
  cnt_eq : s.enc.grpCnt = st.cnt
  len_eq : s.enc.grpLen = st.buf.length
  buf_eq : groupBytes s.enc = st.buf
  idx_eq : s.idx = st.idx
  begun : 0 < st.out.length
  cnt_le : st.cnt ≤ groupSize
  buf_le : st.buf.length ≤ 4 * st.cnt

section
variable {c : Config} {inp : List Byte} {st : EncState} {s : State}

/-- The header is written first (R201). -/
theorem Ready.encAt_start (h : Ready c .compress inp s) :
    ∃ t, Reaches c (beginCommand .compress (commandStart s)) t ∧ EncAt c inp (wholeStart c inp) t := by
  obtain ⟨-, hk, hin, -, -⟩ := h
  have hruns : Runs c .lzEncoder (beginCommand .compress (commandStart s)) := ⟨rfl, rfl, congrArg engineOf hk⟩
  have hlen := hin.length_eq
  have hhead := headerBytes_length c inp.length
  have hstep := hruns.stepWith_encoder
  rw [encoderStep, if_pos (show (beginCommand .compress (commandStart s)).enc.wp = 0 from rfl)] at hstep
  refine ⟨_, reaches_of_step hstep, ?_⟩
  exact
    { runs := hruns
      input := hin
      clear := ⟨rfl, rfl, rfl⟩
      n_eq := hlen
      pos_eq := rfl
      wp_eq := by
        show (headerBytes c s.inLen.toNat).length = _
        rw [hlen]
        rfl
      out_eq := by
        show memWriteN [] 0 (headerBytes c s.inLen.toNat) = _
        rw [hlen]
        rfl
      ctrl_eq := rfl
      cnt_eq := rfl
      len_eq := rfl
      buf_eq := rfl
      idx_eq := rfl
      begun := by
        show 0 < (headerBytes c inp.length).length
        omega
      cnt_le := Nat.zero_le _
      buf_le := Nat.zero_le _ }

/-- The group is flushed (R213, R214). -/
theorem EncAt.flush (h : EncAt c inp st s) (hg : st.cnt = groupSize ∨ (st.pos = inp.length ∧ 0 < st.cnt)) :
    ∃ t, Reaches c s t ∧ EncAt c inp (wholeFlush st) t := by
  have hbegun := h.begun
  have hstep := h.runs.stepWith_encoder
  rw [encoderStep, if_neg (by rw [h.wp_eq]; omega), if_pos (by rw [h.cnt_eq, h.pos_eq, h.n_eq]; exact hg)] at hstep
  refine ⟨_, reaches_of_step hstep, ?_⟩
  exact
    { h with
      wp_eq := by
        show s.enc.wp + 1 + s.enc.grpLen = (st.out ++ st.ctrl :: st.buf).length
        rw [h.wp_eq, h.len_eq, List.length_append, List.length_cons]
        omega
      out_eq := by
        show memWriteN s.out s.enc.wp (s.enc.grpCtrl :: groupBytes s.enc) = filledWith (st.out ++ st.ctrl :: st.buf)
        rw [h.out_eq, h.wp_eq, h.ctrl_eq, h.buf_eq, memWriteN_filledWith]
      ctrl_eq := rfl
      cnt_eq := rfl
      len_eq := rfl
      buf_eq := rfl
      begun := by
        show 0 < (st.out ++ st.ctrl :: st.buf).length
        rw [List.length_append]
        omega
      cnt_le := Nat.zero_le _
      buf_le := Nat.zero_le _ }

/-- A token is chosen and goes into the group (R202 to R212). -/
theorem EncAt.token (hc : c.Lawful) (hb : c.Buffered) (h : EncAt c inp st s) (hcnt : st.cnt < groupSize)
    (hpos : st.pos < inp.length) :
    ∃ t, Reaches c s t ∧ EncAt c inp (wholeToken c inp (wholeBest c inp st) st) t := by
  have hbegun := h.begun
  have hbuf := h.buf_le
  have hsame : SameMatch (bestAt c inp s) (wholeBest c inp st) := by
    rw [bestAt, wholeBest, h.pos_eq, h.idx_eq]
    exact searchMatch_sameMatch ..
  have htok : (tokenBytes c inp st.pos (wholeBest c inp st)).length ≤ 4 := by
    obtain ⟨hlen, hdist⟩ :=
      searchMatch_bounds c inp st.pos 0 (cands := candidates c inp st.idx st.pos) fun p => candidates_window
    exact tokenBytes_length_le hc hb inp st.pos (hlen.trans (Nat.min_le_left ..)) hdist
  have hstep := h.runs.stepWith_encoder
  rw [encoderStep, if_neg (by rw [h.wp_eq]; omega), if_neg (by rw [h.cnt_eq, h.pos_eq, h.n_eq]; omega),
    if_pos (by rw [h.pos_eq, h.n_eq]; exact hpos), scanStep, h.n_eq, h.input.2] at hstep
  refine ⟨_, reaches_of_step hstep, ?_⟩
  have hlen : s.enc.grpLen + (tokenBytes c inp s.enc.pos (bestAt c inp s)).length =
      (st.buf ++ tokenBytes c inp st.pos (wholeBest c inp st)).length := by
    rw [hsame.tokenBytes_eq, h.len_eq, h.pos_eq, List.length_append]
  have hbuf : groupBytes (emitToken c inp (bestAt c inp s) s).enc =
      st.buf ++ tokenBytes c inp st.pos (wholeBest c inp st) := by
    rw [groupBytes_writeGroup s.enc (tokenBytes c inp s.enc.pos (bestAt c inp s)) ?_ _ rfl rfl, h.buf_eq,
      hsame.tokenBytes_eq, h.pos_eq]
    rw [hlen, List.length_append]
    simp only [groupSize] at hcnt
    omega
  exact
    { h with
      pos_eq := by
        show s.enc.pos + tokenAdvance (bestAt c inp s) = st.pos + tokenAdvance (wholeBest c inp st)
        rw [h.pos_eq, hsame.tokenAdvance_eq]
      ctrl_eq := by
        show markToken (decide (minLen ≤ (bestAt c inp s).1)) s.enc.grpCnt s.enc.grpCtrl = _
        rw [hsame.1, h.cnt_eq, h.ctrl_eq]
        rfl
      cnt_eq := congrArg (· + 1) h.cnt_eq
      len_eq := hlen
      buf_eq := hbuf
      idx_eq := by
        show insertRange c inp s.idx s.enc.pos (tokenAdvance (bestAt c inp s)) = _
        rw [h.idx_eq, h.pos_eq, hsame.tokenAdvance_eq]
        rfl
      cnt_le := hcnt
      buf_le := by
        show (st.buf ++ tokenBytes c inp st.pos (wholeBest c inp st)).length ≤ 4 * (st.cnt + 1)
        rw [List.length_append]
        omega }

/-- From `s` the machine reaches R216's variables, between two passes of the loop. -/
def EncFrom (c : Config) (inp : List Byte) (s : State) (st : EncState) : Prop :=
  st.cnt < groupSize ∧ ∃ t, Reaches c s t ∧ EncAt c inp st t

/-- One pass of R216's loop. -/
theorem EncFrom.pass (hc : c.Lawful) (hb : c.Buffered) (hpos : st.pos < inp.length) (h : EncFrom c inp s st) :
    EncFrom c inp s (wholeStep c inp st) := by
  obtain ⟨hcnt, t, ht, hat⟩ := h
  obtain ⟨u, hu, htok⟩ := hat.token hc hb hcnt hpos
  unfold wholeStep
  dsimp only
  split
  next hfull =>
    obtain ⟨v, hv, hflush⟩ := htok.flush (.inl hfull)
    exact ⟨groupSize_pos, v, (ht.trans hu).trans hv, hflush⟩
  next hopen => exact ⟨lt_of_le_of_ne htok.cnt_le hopen, u, ht.trans hu, htok⟩

/-- With the input covered and no group begun the encoder completes (R215). -/
theorem EncAt.finishes (hc : c.Lawful) (h : EncAt c inp st s) (hcnt : st.cnt = 0) (hpos : st.pos = inp.length)
    (hlen : st.out.length < 2 ^ c.outLenBits) : ∃ u, Reaches c s u ∧ ResultIs u st.out := by
  have hbegun := h.begun
  have hstep := h.runs.stepWith_encoder
  rw [encoderStep, if_neg (by rw [h.wp_eq]; omega), if_neg (by rw [h.cnt_eq, hcnt]; simp [groupSize]),
    if_neg (by rw [h.pos_eq, h.n_eq]; omega), h.wp_eq] at hstep
  exact ⟨_, reaches_of_step hstep, resultIs_complete hc h.out_eq h.clear hlen⟩

/-- Every result of `COMPRESS` fits `OUT_LEN`: tokens of at most 4 bytes make it less than twice the input, but for the header
(R141). -/
theorem compressFn_length_lt (hc : c.Lawful) (hb : c.Buffered) (hin : inp.length < 2 ^ c.inLenBits) :
    (compressFn c inp).length < 2 ^ c.outLenBits := by
  have hsize := compressFn_length_le (tokensWithin_of_buffered hc hb) inp
  have hwide : (2 : Nat) ^ 32 ≤ 2 ^ c.outLenBits := Nat.pow_le_pow_right (by decide) hc.outLen_ge
  have hgt : 2 * (2 : Nat) ^ c.inLenBits ≤ 2 ^ c.outLenBits := by
    rw [← Nat.pow_succ']
    exact Nat.pow_le_pow_right (by decide) hc.outLen_gt
  omega

end

/-- Settles O49: each pass of R216's loop is one or two steps of the encoder. -/
theorem compressReachesTheWholeFunction : Obligations.CompressReachesTheWholeFunction := by
  intro c hc hb inp s hready
  obtain ⟨hexec, hstart⟩ := hready.begins
  have ⟨_, _, _, hin, _⟩ := hready
  have hlen := compressFn_length_lt hc hb hin
  obtain ⟨st, ⟨hcnt, t, ht, hat⟩, hpos, hout⟩ :=
    compressFn_induct ⟨groupSize_pos, hready.encAt_start⟩ fun st hpos h => EncFrom.pass hc hb hpos h
  suffices hend : ∃ u, Reaches c t u ∧ ResultIs u (compressFn c inp) by
    obtain ⟨u, hu, hres⟩ := hend
    exact ⟨_, u, hexec, hstart, ht.trans hu, hres⟩
  rw [hout] at hlen ⊢
  split at hlen
  next hopen =>
    rw [if_pos hopen]
    obtain ⟨u, hu, hflush⟩ := hat.flush (.inr ⟨hpos, hopen⟩)
    obtain ⟨v, hv, hres⟩ := hflush.finishes hc rfl hpos hlen
    exact ⟨v, hu.trans hv, hres⟩
  next hnone =>
    rw [if_neg hnone]
    exact hat.finishes hc (Nat.eq_zero_of_not_pos hnone) hpos hlen

end Sys2Proof.Machine
end

section
/-! PROOFS. The round trip (spec R99, R138, R217): what R216 writes for the first bytes of an input, R186 reads back as these
bytes, token by token and block by block; and the same for the stepped machine. -/

namespace Sys2Proof.Machine

/-! ### The header -/

theorem wholeHeader_headerBytes (c : Config) {n : Nat} (hn : n < 2 ^ 32) (rest : List Byte) :
    wholeHeader c (headerBytes c n ++ rest) = .ok (n, (headerBytes c n).length) := by
  rw [headerBytes]
  split
  next hshort =>
    simp only [len24Max] at hshort
    have hval := leNat_leBytes 3 n
    rw [Nat.mod_eq_of_lt (by omega)] at hval
    obtain ⟨b1, b2, b3, hb⟩ := List.length_eq_three.1 (leBytes_length 3 n)
    rw [hb] at hval ⊢
    simp [wholeHeader, hval, show n ≠ 0 by omega]
  next =>
    have hval := leNat_leBytes 4 n
    rw [Nat.mod_eq_of_lt (by omega)] at hval
    obtain ⟨c0, c1, c2, c3, hc⟩ := List.length_eq_four.1 (leBytes_length 4 n)
    have hzero : leNat [0#8, 0#8, 0#8] = 0 := rfl
    rw [hc] at hval ⊢
    simp [wholeHeader, hval, hzero]

/-! ### The match and the copy -/

theorem commonPrefix_agrees {cap : Nat} {xs ys : List Byte} {i : Nat} (h : i < commonPrefix cap xs ys) :
    xs[i]? = ys[i]? := by
  induction cap generalizing xs ys i with
  | zero => simp [commonPrefix] at h
  | succ cap ih =>
    cases xs with
    | nil => simp [commonPrefix] at h
    | cons x xs =>
      cases ys with
      | nil => simp [commonPrefix] at h
      | cons y ys =>
        simp only [commonPrefix] at h
        split at h
        next hxy =>
          cases i with
          | zero => exact congrArg some hxy
          | succ i =>
            rw [List.getElem?_cons_succ, List.getElem?_cons_succ]
            exact ih (by omega)
        next => omega

section
variable {c : Config} {b : List Byte}

/-- The bytes at a match's distance are the bytes at `pos`, also where the match runs past `pos` (R204, R312). -/
theorem matchLen_agrees {p pos i : Nat} (h : i < matchLen c b p pos) : b[p + i]? = b[pos + i]? := by
  have := commonPrefix_agrees h
  rwa [List.getElem?_drop, List.getElem?_drop] at this

/-- The copy at distance `d` goes on along `b`, where `b` repeats itself at that distance (R182). -/
theorem copyBack_take {m d pos : Nat} (hd : 1 ≤ d) (hdist : d ≤ pos) (hend : pos + m ≤ b.length)
    (h : ∀ i, i < m → b[pos - d + i]? = b[pos + i]?) : copyBack m d (b.take pos) = b.take (pos + m) := by
  induction m generalizing pos with
  | zero => rfl
  | succ m ih =>
    have hlen : (b.take pos).length = pos := List.length_take_of_le (by omega)
    have hbyte : (b.take pos).getD (pos - d) 0 = b[pos] := by
      have h0 := h 0 (Nat.zero_lt_succ m)
      rw [Nat.add_zero, Nat.add_zero, List.getElem?_eq_getElem (show pos < b.length by omega)] at h0
      rw [List.getD_eq_getElem?_getD, List.getElem?_take_of_lt (by omega), h0, Option.getD_some]
    rw [copyBack, hlen, hbyte, List.take_append_getElem, ih (by omega) (by omega),
      show pos + 1 + m = pos + (m + 1) by omega]
    intro i hi
    have := h (i + 1) (by omega)
    rwa [show pos - d + (i + 1) = pos + 1 - d + i by omega, show pos + (i + 1) = pos + 1 + i by omega] at this

/-! ### One token -/

variable {st : EncState}

/-- The literal is read back (R177, R209). -/
theorem wholeLiteral_tokenBytes (hpos : st.pos < b.length) (hlit : ¬minLen ≤ (wholeBest c b st).1)
    (pre post : List Byte) :
    wholeLiteral (pre ++ tokenBytes c b st.pos (wholeBest c b st) ++ post) ⟨b.take st.pos, pre.length⟩ =
      .ok ⟨b.take (st.pos + 1), pre.length + (tokenBytes c b st.pos (wholeBest c b st)).length⟩ := by
  have htok : tokenBytes c b st.pos (wholeBest c b st) = [b[st.pos]] := by
    rw [tokenBytes, if_neg hlit, List.drop_eq_getElem_cons hpos]
    rfl
  have hdrop : (pre ++ [b[st.pos]] ++ post).drop pre.length = b[st.pos] :: post := by simp
  rw [htok, wholeLiteral, hdrop, ← List.take_append_getElem hpos]
  rfl

/-- The back-reference is read back: its bytes decode to its match (R99), and the copy repeats the match (R180 to R183). -/
theorem wholeReference_tokenBytes (hc : c.Lawful) (hpos : st.pos < b.length) (href : minLen ≤ (wholeBest c b st).1)
    (pre post : List Byte) :
    wholeReference c (pre ++ tokenBytes c b st.pos (wholeBest c b st) ++ post) b.length ⟨b.take st.pos, pre.length⟩ =
      .ok ⟨b.take (st.pos + (wholeBest c b st).1),
        pre.length + (tokenBytes c b st.pos (wholeBest c b st)).length⟩ := by
  have hlegal := wholeBest_encodable href
  have hadv := wholeBest_advance_le (c := c) hpos
  have hmin : 3 ≤ (wholeBest c b st).1 := href
  rw [tokenAdvance, if_pos href] at hadv
  have hcopy : (wholeBest c b st).2 ≤ st.pos ∧
      copyBack (wholeBest c b st).1 (wholeBest c b st).2 (b.take st.pos) =
        b.take (st.pos + (wholeBest c b st).1) := by
    rcases searchMatch_cases (c := c) (inp := b) (pos := st.pos) 0 (candidates c b st.idx st.pos) with
      hzero | ⟨p, hp, hbest⟩
    · have hzero : (wholeBest c b st).1 = 0 := hzero
      omega
    · have hwin := (candidates_window hp).1
      have hbest : wholeBest c b st = (matchLen c b p st.pos, st.pos - p) := hbest
      rw [hbest] at hadv ⊢
      refine ⟨Nat.sub_le .., copyBack_take hwin (Nat.sub_le ..) hadv fun i hi => ?_⟩
      rw [Nat.sub_sub_self (by omega)]
      exact matchLen_agrees hi
  obtain ⟨hdist, hcopy⟩ := hcopy
  obtain ⟨x, rest, htok, hsize⟩ := hc.size_encode _ _ hlegal
  have hdecode := hc.decode_encode _ _ hlegal
  rw [← ofNat_highNibble] at hsize
  rw [tokenBytes, if_pos href]
  generalize c.tok.encode (wholeBest c b st).1 (wholeBest c b st).2 = tok at *
  subst htok
  have hdrop : (pre ++ x :: rest ++ post).drop pre.length = x :: (rest ++ post) := by simp
  have htake : (x :: (rest ++ post)).take (x :: rest).length = x :: rest := List.take_left (l₂ := post)
  have hlen : (b.take st.pos).length = st.pos := List.length_take_of_le hpos.le
  rw [wholeReference, hdrop]
  dsimp only
  rw [hsize, htake, hdecode, hlen, if_neg (by simp), if_neg (by omega), Nat.min_eq_left (by omega), hcopy]

theorem wholeBits_end {inp : List Byte} {total : Nat} {x : Byte} {j : Nat} {st : DecResult}
    (h : st.bytes.length = total) : wholeBits c inp total x j st = .ok st := by
  cases j with
  | zero => rfl
  | succ j => rw [wholeBits_succ, if_pos h]

/-- Every token of R216 is read back by R186, under the control bit that marks it. -/
theorem wholeItem_tokenBytes (hc : c.Lawful) (hpos : st.pos < b.length) (pre post : List Byte) :
    wholeItem c (pre ++ tokenBytes c b st.pos (wholeBest c b st) ++ post) b.length
        (decide (minLen ≤ (wholeBest c b st).1)) ⟨b.take st.pos, pre.length⟩ =
      .ok ⟨b.take (st.pos + tokenAdvance (wholeBest c b st)),
        pre.length + (tokenBytes c b st.pos (wholeBest c b st)).length⟩ := by
  by_cases href : minLen ≤ (wholeBest c b st).1
  · rw [wholeItem, if_pos (decide_eq_true href), tokenAdvance, if_pos href]
    exact wholeReference_tokenBytes hc hpos href pre post
  · rw [wholeItem, if_neg (by simpa using href), tokenAdvance, if_neg href]
    exact wholeLiteral_tokenBytes hpos href pre post

theorem wholeBits_tokenBytes (hc : c.Lawful) (hpos : st.pos < b.length) (pre post : List Byte) {x : Byte} {j : Nat}
    (hbit : x.getLsbD j = decide (minLen ≤ (wholeBest c b st).1)) :
    wholeBits c (pre ++ tokenBytes c b st.pos (wholeBest c b st) ++ post) b.length x (j + 1)
        ⟨b.take st.pos, pre.length⟩ =
      wholeBits c (pre ++ tokenBytes c b st.pos (wholeBest c b st) ++ post) b.length x j
        ⟨b.take (st.pos + tokenAdvance (wholeBest c b st)),
          pre.length + (tokenBytes c b st.pos (wholeBest c b st)).length⟩ := by
  have hlen : (b.take st.pos).length = st.pos := List.length_take_of_le hpos.le
  rw [wholeBits_succ, if_neg (by rw [hlen]; exact hpos.ne), hbit, wholeItem_tokenBytes hc hpos]
  rfl

/-! ### One group -/

/-- Marking token `cnt` sets its control bit, and leaves the bits of the tokens before it (R211). -/
theorem markToken_getLsbD (isRef : Bool) {cnt : Nat} (hcnt : cnt < 8) {x : BitVec 8}
    (hunused : ∀ j, j < 8 - cnt → x.getLsbD j = false) {i : Nat} (hi : i ≤ cnt) :
    (markToken isRef cnt x).getLsbD (7 - i) = if i = cnt then isRef else x.getLsbD (7 - i) := by
  have hbit : ∀ k m : Fin 8, ((0x80 : BitVec 8) >>> k.val).getLsbD (7 - m.val) = decide (m.val = k.val) := by decide
  have hmask : ((0x80 : BitVec 8) >>> cnt).getLsbD (7 - i) = decide (i = cnt) := by
    exact hbit ⟨cnt, hcnt⟩ ⟨i, by omega⟩
  have hclear : x.getLsbD (7 - cnt) = false := hunused _ (by omega)
  rw [markToken]
  cases isRef with
  | false =>
    rw [if_neg (by decide)]
    split
    next hic => rw [hic]; exact hclear
    next => rfl
  | true =>
    rw [if_pos rfl, BitVec.getLsbD_or, hmask]
    split
    next hic => simp [hic]
    next hic => simp [hic]

/-- `x` marks the tokens of the group as `st` does, whatever its other bits are. -/
def MarksAs (x : Byte) (st : EncState) : Prop := ∀ i, i < st.cnt → x.getLsbD (7 - i) = st.ctrl.getLsbD (7 - i)

/-- The group that is begun is read back: after its tokens R186 has gone from the first `p` bytes of `b` to the first
`st.pos`. -/
structure GroupDecodes (c : Config) (b : List Byte) (p : Nat) (st : EncState) : Prop where
  cnt_le : st.cnt ≤ 8
  pos_le : st.pos ≤ b.length
  start : 0 < st.cnt → p < b.length
  unused : ∀ j, j < 8 - st.cnt → st.ctrl.getLsbD j = false
  decodes : ∀ (pre post : List Byte) (x : Byte), MarksAs x st →
    wholeBits c (pre ++ st.buf ++ post) b.length x 8 ⟨b.take p, pre.length⟩ =
      wholeBits c (pre ++ st.buf ++ post) b.length x (8 - st.cnt) ⟨b.take st.pos, pre.length + st.buf.length⟩

/-- An empty group. -/
theorem groupDecodes_empty (hpos : st.pos ≤ b.length) (hctrl : st.ctrl = 0) (hcnt : st.cnt = 0) (hbuf : st.buf = []) :
    GroupDecodes c b st.pos st where
  cnt_le := by omega
  pos_le := hpos
  start := by omega
  unused := by simp [hctrl]
  decodes := by simp [hcnt, hbuf]

/-- A token more. -/
theorem GroupDecodes.token (hc : c.Lawful) {p : Nat} (h : GroupDecodes c b p st) (hp : st.cnt = 0 → p = st.pos)
    (hcnt : st.cnt < 8) (hpos : st.pos < b.length) :
    GroupDecodes c b p (wholeToken c b (wholeBest c b st) st) where
  cnt_le := hcnt
  pos_le := wholeBest_advance_le hpos
  start := fun _ => by
    rcases Nat.eq_zero_or_pos st.cnt with h0 | h0
    · rw [hp h0]
      exact hpos
    · exact h.start h0
  unused := fun j hj => markToken_unused _ hcnt h.unused hj
  decodes := by
    intro pre post x hx
    have hmark (i : Nat) (hi : i ≤ st.cnt) :=
      (hx i (Nat.lt_succ_of_le hi)).trans (markToken_getLsbD _ hcnt h.unused hi)
    have hold : MarksAs x st := fun i hi => by rw [hmark i hi.le, if_neg hi.ne]
    have hbit : x.getLsbD (7 - st.cnt) = decide (minLen ≤ (wholeBest c b st).1) := by
      rw [hmark st.cnt (Nat.le_refl _), if_pos rfl]
    have hdec := h.decodes pre (tokenBytes c b st.pos (wholeBest c b st) ++ post) x hold
    have htok := wholeBits_tokenBytes hc hpos (pre ++ st.buf) post hbit
    rw [List.length_append, show 7 - st.cnt + 1 = 8 - st.cnt by omega, show 7 - st.cnt = 8 - (st.cnt + 1) by omega]
      at htok
    rw [← List.append_assoc] at hdec
    simp only [wholeToken, List.length_append, ← List.append_assoc, ← Nat.add_assoc]
    exact hdec.trans htok

/-! ### Blocks -/

/-- `out` is the header for `b` and complete blocks, which are read back as the first `p` bytes of `b`. -/
def BlocksDecode (c : Config) (b : List Byte) (p : Nat) (out : List Byte) : Prop :=
  ∃ body g, out = headerBytes c b.length ++ body ∧ g ≤ body.length ∧ ∀ post fuel,
    wholeBlocks c (out ++ post) b.length (fuel + g) ⟨[], (headerBytes c b.length).length⟩ =
      wholeBlocks c (out ++ post) b.length fuel ⟨b.take p, out.length⟩

theorem blocksDecode_header (c : Config) (b : List Byte) : BlocksDecode c b 0 (headerBytes c b.length) :=
  ⟨[], 0, (List.append_nil _).symm, Nat.le_refl 0, fun _ _ => rfl⟩

/-- A flushed group is a block, if it is full or ends the input (R213, R214). -/
theorem BlocksDecode.flush {p : Nat} (h : BlocksDecode c b p st.out) (hg : GroupDecodes c b p st) (hcnt : 0 < st.cnt)
    (hfull : st.cnt = 8 ∨ st.pos = b.length) : BlocksDecode c b st.pos (wholeFlush st).out := by
  obtain ⟨body, g, hout, hle, hdec⟩ := h
  have hp := hg.start hcnt
  refine ⟨body ++ st.ctrl :: st.buf, g + 1, ?_, ?_, fun post fuel => ?_⟩
  · rw [wholeFlush, hout, List.append_assoc]
  · rw [List.length_append, List.length_cons]
    omega
  · have hplen : (b.take p).length < b.length := by rwa [List.length_take_of_le hp.le]
    have hdrop : (st.out ++ (st.ctrl :: st.buf ++ post)).drop st.out.length = st.ctrl :: (st.buf ++ post) := by simp
    have hstop (stream : List Byte) (rp : Nat) :
        wholeBits c stream b.length st.ctrl (8 - st.cnt) ⟨b.take st.pos, rp⟩ = .ok ⟨b.take st.pos, rp⟩ := by
      rcases hfull with hfull | hpos
      · rw [hfull]
        rfl
      · exact wholeBits_end (by rw [List.length_take_of_le hg.pos_le, hpos])
    have hbits := hg.decodes (st.out ++ [st.ctrl]) post st.ctrl fun _ _ => rfl
    rw [hstop, List.append_assoc, List.append_assoc, List.length_append] at hbits
    have hblocks := hdec (st.ctrl :: st.buf ++ post) (fuel + 1)
    rw [wholeBlocks_succ fuel hplen hdrop] at hblocks
    simp only [wholeFlush, List.append_assoc, List.length_append, List.length_cons]
    rw [show fuel + (g + 1) = fuel + 1 + g by omega, show st.out.length + (st.buf.length + 1) =
      st.out.length + [st.ctrl].length + st.buf.length by rw [List.length_singleton]; omega]
    exact hblocks.trans (congrArg (Except.bind · (wholeBlocks c _ b.length fuel)) hbits)

/-- Blocks that are read back as the whole of `b`: the stream decompresses to `b` and is consumed (R138). -/
theorem BlocksDecode.decompressFn_eq {out : List Byte} (hb : b.length < 2 ^ 32)
    (h : BlocksDecode c b b.length out) : decompressFn c out = .ok ⟨b, out.length⟩ := by
  obtain ⟨body, g, hout, hle, hdec⟩ := h
  have hblocks := hdec [] (body.length - g)
  rw [List.append_nil, Nat.sub_add_cancel hle, List.take_length, 
    wholeBlocks_end (st := ⟨b, out.length⟩) _ (Nat.le_refl _)] at hblocks
  have hfuel : out.length - (headerBytes c b.length).length = body.length := by
    rw [hout, List.length_append, Nat.add_sub_cancel_left]
  have hheader : wholeHeader c out = .ok (b.length, (headerBytes c b.length).length) := by
    rw [hout]
    exact wholeHeader_headerBytes c hb body
  rw [Machine.decompressFn_eq, hheader, ← hblocks, ← hfuel]
  rfl

/-! ### R216's loop -/

/-- What is written and what is buffered so far are read back as the first `st.pos` bytes of `b`. -/
def ScanDecodes (c : Config) (b : List Byte) (st : EncState) : Prop :=
  ∃ p, BlocksDecode c b p st.out ∧ GroupDecodes c b p st ∧ st.cnt < 8 ∧ (st.cnt = 0 → p = st.pos)

theorem scanDecodes_start (c : Config) (b : List Byte) : ScanDecodes c b (wholeStart c b) :=
  ⟨0, blocksDecode_header c b, groupDecodes_empty (st := wholeStart c b) (Nat.zero_le _) rfl rfl rfl, groupSize_pos,
    fun _ => rfl⟩

theorem ScanDecodes.wholeStep (hc : c.Lawful) (hpos : st.pos < b.length) (h : ScanDecodes c b st) :
    ScanDecodes c b (wholeStep c b st) := by
  obtain ⟨p, hblocks, hgroup, hcnt, hp⟩ := h
  have htok := hgroup.token hc hp hcnt hpos
  unfold Machine.wholeStep
  dsimp only
  split
  next hfull =>
    have hflush := BlocksDecode.flush (st := wholeToken c b (wholeBest c b st) st) hblocks htok (Nat.succ_pos _)
      (.inl hfull)
    have hempty := groupDecodes_empty (c := c) (st := wholeFlush (wholeToken c b (wholeBest c b st) st))
      (b := b) htok.pos_le rfl rfl rfl
    exact ⟨_, hflush, hempty, groupSize_pos, fun _ => rfl⟩
  next hopen => exact ⟨p, hblocks, htok, lt_of_le_of_ne htok.cnt_le hopen, nofun⟩

end

/-- The round trip of R138 for the whole functions. -/
theorem decompressFn_compressFn {c : Config} (hc : c.Lawful) {b : List Byte} (hb : b.length < 2 ^ 32) :
    decompressFn c (compressFn c b) = .ok ⟨b, (compressFn c b).length⟩ := by
  obtain ⟨st, ⟨p, hblocks, hgroup, -, hp⟩, hpos, hout⟩ :=
    compressFn_induct (scanDecodes_start c b) fun st hpos h => h.wholeStep hc hpos
  have hall : BlocksDecode c b b.length (compressFn c b) := by
    rw [hout, ← hpos]
    split
    next hopen => exact hblocks.flush hgroup hopen (.inr hpos)
    next hnone => exact hp (Nat.eq_zero_of_not_pos hnone) ▸ hblocks
  exact hall.decompressFn_eq hb

/-- Settles O53, by the invariant `ScanDecodes` of R216's loop. -/
theorem decompressInvertsCompress : Obligations.DecompressInvertsCompress :=
  fun _ hc _ hb => decompressFn_compressFn hc (by omega)

/-! ### The stepped machine -/

/-- Settles O54: both commands reach their whole functions, which are each other's inverse. -/
theorem machineRoundTrip : Obligations.MachineRoundTrip := by
  intro c hc hb b s hready
  obtain ⟨t, u, -, hstart, hu, hres⟩ := compressReachesTheWholeFunction c hc hb b s hready
  refine ⟨t, u, compressFn c b, hstart, hu, hres, fun s' hready' => ?_⟩
  have hdec := decompressReachesTheWholeFunction c hc (compressFn c b) s' hready'
  rw [decompressFn_compressFn hc (hready.length_lt hc)] at hdec
  obtain ⟨t', u', -, hstart', hu', hres', hrp⟩ := hdec
  have ⟨_, _, ⟨hlen, _⟩, _⟩ := hready'
  exact ⟨t', u', hstart', hu', hres', hrp.trans hlen.symm⟩

end Sys2Proof.Machine
end

section
/-! PROOFS. The pixel commands as a whole (spec R132, R136, R137, R139, R232, R242 to R247): the stepped decoder writes the raster
of R247 sample by sample, each pixel of the raster is that of one sample, and the two commands differ only where alpha is
honoured. -/

namespace Sys2Proof.Machine

/-! ### The run of a pixel command -/

/-- A pixel command runs on `inp`, `i` samples are done, and no pixel waits in the latch. -/
structure PixAt (c : Config) (inp : List Byte) (honorAlpha : Bool) (i : Nat) (s : State) : Prop where
  runs : Runs c .pixelDecoder s
  input : InputIs s inp
  clear : NoError s
  mode : s.pix.honorAlpha = honorAlpha
  count : s.pix.npix = inp.length / 2
  cursor : s.pix.s = i
  latch : s.pix.latch = none

/-- A sample instruction latches the pixel of its word, whichever format it has (R234 to R241). -/
theorem exec_sampleOfWord (d : Nat) (s : State) :
    exec (sampleOfWord d) s = .next (latchPixel (sampleWord (sampleOfWord d)) (unpackSample d) s) := by
  unfold unpackSample sampleOfWord
  split <;> rfl

section
variable {c : Config} {inp : List Byte} {honorAlpha : Bool} {i : Nat} {s : State}

/-- What the fetch of a whole sample finds (R109, R232). -/
theorem InputIs.fetchItem_sample (h : InputIs s inp) (hi : 2 * i + 2 ≤ inp.length) :
    fetchItem s.inp s.inLen.toNat .sample (2 * i) = .instr (sampleOfWord (sampleAt inp i)) := by
  have hlen : ((inp.drop (2 * i)).take 2).length = 2 := by
    rw [List.length_take, List.length_drop]
    omega
  have hbytes := h.fetchBytes_eq (2 * i) 2
  rw [if_neg (by omega)] at hbytes
  rw [sampleAt]
  obtain ⟨x, y, hxy⟩ := List.length_eq_two.1 hlen
  rw [hxy] at hbytes ⊢
  exact fetchWith_of_ok hbytes rfl

/-- A sample is decoded and its pixel is written (R232 to R245). -/
theorem PixAt.step (h : PixAt c inp honorAlpha i s) (hi : i < inp.length / 2) :
    ∃ t, Reaches c s t ∧ PixAt c inp honorAlpha (i + 1) t ∧
      t.out = memWriteN s.out (rasterAddr i) (pixelBytes honorAlpha (sampleAt inp i)) := by
  have hsample : stepWith c s = .next (latchPixel (sampleWord (sampleOfWord (sampleAt inp i)))
      (unpackSample (sampleAt inp i)) s) := by
    have hf := fetchPixel_of_sample h.latch (by rw [h.cursor, h.count]; exact hi)
    rw [h.cursor, h.input.fetchItem_sample (by omega)] at hf
    exact (stepWith_of_fetch_instr (h.runs.fetch_pixels.trans hf)).trans (exec_sampleOfWord ..)
  have hwrite (t : State) (p : RasterPx) (hr : Runs c .pixelDecoder t) (hp : t.pix.latch = some p) :
      stepWith c t = .next (writeRaster p t) :=
    stepWith_of_fetch_instr (hr.fetch_pixels.trans (fetchPixel_of_latch hp))
  refine ⟨_, .head hsample (reaches_of_step (hwrite _ _ h.runs rfl)), ?_, ?_⟩
  · exact ⟨h.runs, h.input, h.clear, h.mode, h.count, congrArg (· + 1) h.cursor, rfl⟩
  · rw [writeRaster_out, latchPixel_out, latchPixel_pix, h.cursor, h.mode]
    rfl

/-- The raster of the samples that are left is written, and the decoder completes (R246, R247). -/
theorem PixAt.finishes (hc : c.Lawful) (hin : inp.length < 2 ^ c.inLenBits) (n : Nat) (h : PixAt c inp honorAlpha i s)
    (hn : i + n = inp.length / 2) :
    ∃ u, Reaches c s u ∧ u.status = .done ∧ u.outLen.toNat = 2 * inp.length ∧
      u.out = wholePixels inp honorAlpha n i s.out ∧ NoError u := by
  induction n generalizing i s with
  | zero =>
    have hend : ¬s.pix.s < s.pix.npix := by
      rw [h.cursor, h.count]
      omega
    have hstep := stepWith_of_fetch_internal (h.runs.fetch_pixels.trans (fetchPixel_of_end h.latch hend))
    have hlen := h.input.length_eq
    rw [internalStep, h.runs.engine_eq] at hstep
    refine ⟨_, reaches_of_step hstep, rfl, ?_, rfl, h.clear⟩
    have hgt : 2 * (2 : Nat) ^ c.inLenBits ≤ 2 ^ c.outLenBits := by
      rw [← Nat.pow_succ']
      exact Nat.pow_le_pow_right (by decide) hc.outLen_gt
    have hle : (2 : Nat) ^ c.outLenBits ≤ 2 ^ 33 := Nat.pow_le_pow_right (by decide) hc.outLen_le
    rw [finishPixels, complete_outLen, BitVec.toNat_ofNat, hlen, Nat.mod_eq_of_lt (a := 2 * inp.length) (by omega),
      Nat.mod_eq_of_lt (by omega)]
  | succ n ih =>
    obtain ⟨t, ht, hat, hout⟩ := h.step (by omega)
    obtain ⟨u, hu, hdone, hlen, hpix, hclear⟩ := ih hat (by omega)
    exact ⟨u, ht.trans hu, hdone, hlen, by rw [hpix, hout, wholePixels], hclear⟩

end

/-- The pixel command of an alpha mode (R136, R137). -/
def pixelCommand (honorAlpha : Bool) : Command := if honorAlpha then .decodeTileset else .decodeTilesetOpaque

theorem beginCommand_pixelCommand (honorAlpha : Bool) (s : State) :
    beginCommand (pixelCommand honorAlpha) s = checkLength (beginPixels honorAlpha s) := by
  cases honorAlpha <;> rfl

theorem exec_pixelCommand (honorAlpha : Bool) (s : State) :
    exec (if honorAlpha then .decodeTileset else .decodeTilesetOpaque) s =
      exec (commandInstr (pixelCommand honorAlpha)) s := by
  cases honorAlpha <;> rfl

theorem engineOf_pixelCommand (honorAlpha : Bool) : engineOf (pixelCommand honorAlpha) = .pixelDecoder := by
  cases honorAlpha <;> rfl

/-- Settles O50: the length check decides between the fault and the run over all samples. -/
theorem pixelCommandsReachTheWholeFunction : Obligations.PixelCommandsReachTheWholeFunction := by
  intro c hc inp s honorAlpha hready
  have hready : Ready c (pixelCommand honorAlpha) inp s := hready
  have ⟨_, hk, hin, hbits, _⟩ := hready
  have hlen := hin.length_eq
  obtain ⟨hexec, hstart⟩ := hready.begins
  rw [beginCommand_pixelCommand] at hexec hstart
  refine ⟨_, (exec_pixelCommand honorAlpha s).trans hexec, hstart, ?_⟩
  rw [decodeTilesetFn, ← hlen]
  rcases checkLength_cases (beginPixels honorAlpha (commandStart s)) with ⟨hwhole, hx⟩ | ⟨hbad, hx⟩
  · have hwhole : s.inLen.toNat % tileRowStride = 0 := hwhole
    have hat : PixAt c inp honorAlpha 0 (beginPixels honorAlpha (commandStart s)) :=
      ⟨⟨rfl, rfl, (congrArg engineOf hk).trans (engineOf_pixelCommand _)⟩, hin, ⟨rfl, rfl, rfl⟩, rfl,
        congrArg (· / 2) hlen, rfl, rfl⟩
    obtain ⟨u, hu, hdone, hout, hpix, hclear⟩ := hat.finishes hc hbits (inp.length / 2) (Nat.zero_add _)
    rw [if_pos hwhole, hx, hlen]
    exact ⟨u, hu, hdone, hout, hpix, hclear⟩
  · have hbad : s.inLen.toNat % tileRowStride ≠ 0 := hbad
    have hlt := hready.length_lt hc
    rw [if_neg hbad, hx]
    exact faultIs_raise ((Nat.div_mul_le_self ..).trans_lt (by omega)) _

/-! ### The raster -/

theorem sampleOfRaster_rasterIndex (s : Nat) : sampleOfRaster (rasterIndex s) = s := by
  simp only [sampleOfRaster, rasterIndex, rasterX, rasterY, tileCol, tileRow, inTileCol, inTileRow, rasterWidth,
    tileSide, tilesPerRow]
  omega

theorem rasterIndex_sampleOfRaster (p : Nat) : rasterIndex (sampleOfRaster p) = p := by
  simp only [sampleOfRaster, rasterIndex, rasterX, rasterY, tileCol, tileRow, inTileCol, inTileRow, rasterWidth,
    tileSide, tilesPerRow]
  omega

/-- Within a number of whole tile-rows (R69, R244). -/
theorem sampleOfRaster_lt {n p : Nat} (hn : n % 4096 = 0) (hp : p < n) : sampleOfRaster p < n := by
  simp only [sampleOfRaster, rasterWidth, tileSide, tilesPerRow]
  omega

theorem rasterIndex_injective : Function.Injective rasterIndex :=
  Function.LeftInverse.injective sampleOfRaster_rasterIndex

/-- Each byte of a pixel of the raster is its own sample's, and no later sample writes over it (R244). -/
theorem memRead_wholePixels (inp : List Byte) (honorAlpha : Bool) (n s : Nat) (out : Memory) (i : Nat) {k : Nat}
    (hk : k < 4) :
    memRead (wholePixels inp honorAlpha n s out) (rasterAddr i + k) =
      if s ≤ i ∧ i < s + n then (pixelBytes honorAlpha (sampleAt inp i))[k]? else memRead out (rasterAddr i + k) := by
  induction n generalizing s out with
  | zero => rw [wholePixels, if_neg (by omega)]
  | succ n ih =>
    have hsize : (pixelBytes honorAlpha (sampleAt inp s)).length = 4 := rfl
    rw [wholePixels, ih, memRead_memWriteN, hsize]
    by_cases his : i = s
    · subst his
      rw [if_neg (by omega), if_pos (by omega), if_pos (by omega), Nat.add_sub_cancel_left]
    · have hne : rasterIndex i ≠ rasterIndex s := fun h => his (rasterIndex_injective h)
      have hout : ¬(rasterAddr s ≤ rasterAddr i + k ∧ rasterAddr i + k < rasterAddr s + 4) := by
        simp only [rasterAddr]
        omega
      rw [if_neg hout]
      congr 1
      simp only [eq_iff_iff]
      omega

/-- The raster of R247: pixel `p` is the decoding of the sample that the translator's inverse gives (R244). -/
theorem memRead_raster {inp : List Byte} (honorAlpha : Bool) (hlen : inp.length % tileRowStride = 0) {p k : Nat}
    (hp : p < inp.length / 2) (hk : k < 4) :
    memRead (wholePixels inp honorAlpha (inp.length / 2) 0 []) (4 * p + k) =
      (pixelBytes honorAlpha (sampleAt inp (sampleOfRaster p)))[k]? := by
  have hlt : sampleOfRaster p < inp.length / 2 := by
    refine sampleOfRaster_lt ?_ hp
    simp only [tileRowStride] at hlen
    omega
  have hread := memRead_wholePixels inp honorAlpha (inp.length / 2) 0 [] (sampleOfRaster p) hk
  rw [if_pos (by omega)] at hread
  rwa [rasterAddr, rasterIndex_sampleOfRaster] at hread

/-! ### The two alpha modes -/

theorem premultiply_opaque (x : Byte) : premultiply x 255 = x := by
  have hx := x.isLt
  refine BitVec.eq_of_toNat_eq ?_
  rw [premultiply, BitVec.toNat_ofNat, show (255 : Byte).toNat = 255 from rfl]
  omega

/-- With alpha forced, byte 3 of every pixel is 0xFF (R237). -/
theorem pixelBytes_forced_alpha (d : Nat) : (pixelBytes false d)[3]? = some 255 := rfl

/-- A sample with bit 15 set gives the same pixel in both modes: its alpha is 255, at which premultiplication is the identity
(R236 to R239). -/
theorem pixelBytes_eq_of_bit15 {d : Nat} (hlow : 32768 ≤ d) (hhigh : d < 65536) :
    pixelBytes true d = pixelBytes false d := by
  have hbit : bitField d 15 15 ≠ 0 := by
    simp only [bitField]
    omega
  have hunpack : (unpackSample d).a = 255 := by
    rw [unpackSample, sampleOfWord, if_neg hbit]
    rfl
  have hne : (unpackSample d).a ≠ 0 := by
    rw [hunpack]
    decide
  have hstage : alphaStage true (unpackSample d) = alphaStage false (unpackSample d) := by
    show honoured _ = forcedOpaque _
    rw [honoured, if_neg hne, forcedOpaque, hunpack, premultiply_opaque, premultiply_opaque, premultiply_opaque]
  rw [pixelBytes, pixelBytes, hstage]

theorem sampleAt_lt (inp : List Byte) (s : Nat) : sampleAt inp s < 65536 := by
  have hlen : ((inp.drop (2 * s)).take 2).length ≤ 2 := List.length_take_le ..
  exact (beNat_lt _).trans_le (Nat.pow_le_pow_right (by decide) hlen)

/-- Settles O52: both runs end as R247 says, and their rasters are read pixel by pixel. -/
theorem pixelCommandsDifferOnlyInAlpha : Obligations.PixelCommandsDifferOnlyInAlpha := by
  intro c hc inp s2 s3 hready2 hready3
  obtain ⟨t2, -, hstart2, hend2⟩ := pixelCommandsReachTheWholeFunction c hc inp s2 true hready2
  obtain ⟨t3, -, hstart3, hend3⟩ := pixelCommandsReachTheWholeFunction c hc inp s3 false hready3
  have hdown2 : t2.start = false := hostStart_start_down hstart2
  have hdown3 : t3.start = false := hostStart_start_down hstart3
  by_cases hlen : inp.length % tileRowStride = 0
  · rw [decodeTilesetFn, if_pos hlen] at hend2 hend3
    obtain ⟨u2, hu2, hdone2, hlen2, hout2, -⟩ := hend2
    obtain ⟨u3, hu3, hdone3, hlen3, hout3, -⟩ := hend3
    have heven : inp.length = 2 * (inp.length / 2) := by
      simp only [tileRowStride] at hlen
      omega
    refine ⟨t2, t3, u2, u3, hstart2, hstart3, hu2, hu3, hu2.start_down hdown2, hu3.start_down hdown3, .inr
      ⟨hdone2, hdone3, BitVec.eq_of_toNat_eq (hlen2.trans hlen3.symm), hlen2, fun p hp => ?_,
        fun p k hp hk hsample => ?_⟩⟩
    · rw [hout3, memRead_raster false hlen (by omega) (by decide), pixelBytes_forced_alpha]
    · rw [hout2, hout3, memRead_raster true hlen (by omega) hk, memRead_raster false hlen (by omega) hk,
        pixelBytes_eq_of_bit15 hsample (sampleAt_lt ..)]
  · rw [decodeTilesetFn, if_neg hlen] at hend2 hend3
    exact ⟨t2, t3, t2, t3, hstart2, hstart3, reaches_refl c t2, reaches_refl c t3, hdown2, hdown3,
      .inl ⟨_, hend2, hend3, hlen⟩⟩

end Sys2Proof.Machine
end

section
/-! PROOFS. The outcome of a command is a function of its input (spec R78, R132): from the statements that the commands reach
their whole functions. -/

namespace Sys2Proof.Machine

/-- What the host can see when a command is over is the same in both states (R21, R73, R307). -/
def SameOutcome (u1 u2 : State) : Prop :=
  u1.status ≠ .busy ∧ u1.status = u2.status ∧ u1.outLen = u2.outLen ∧ u1.errKind = u2.errKind ∧
    u1.errCause = u2.errCause ∧ u1.errOffset = u2.errOffset ∧ ∀ a, hostReadOut a u1 = hostReadOut a u2

theorem ResultIs.sameOutcome {u1 u2 : State} {bs : List Byte} (h1 : ResultIs u1 bs) (h2 : ResultIs u2 bs) :
    SameOutcome u1 u2 := by
  have ⟨hdone1, hlen1, _, hkind1, hcause1, hoff1⟩ := h1
  have ⟨hdone2, hlen2, _, hkind2, hcause2, hoff2⟩ := h2
  refine ⟨by rw [hdone1]; decide, hdone1.trans hdone2.symm, BitVec.eq_of_toNat_eq (hlen1.trans hlen2.symm),
    hkind1.trans hkind2.symm, hcause1.trans hcause2.symm, hoff1.trans hoff2.symm, fun a => ?_⟩
  by_cases ha : a < bs.length
  · rw [hostReadOut_of_result h1 ha, hostReadOut_of_result h2 ha]
  · rw [hostReadOut_beyond (by omega), hostReadOut_beyond (by omega)]

theorem FaultIs.sameOutcome {u1 u2 : State} {cause : ErrCause} {offset : Nat} (h1 : FaultIs u1 cause offset)
    (h2 : FaultIs u2 cause offset) : SameOutcome u1 u2 := by
  obtain ⟨herr1, hkind1, hcause1, hoff1, hlen1⟩ := h1
  obtain ⟨herr2, hkind2, hcause2, hoff2, hlen2⟩ := h2
  refine ⟨by rw [herr1]; decide, herr1.trans herr2.symm, hlen1.trans hlen2.symm, hkind1.trans hkind2.symm,
    hcause1.trans hcause2.symm, BitVec.eq_of_toNat_eq (hoff1.trans hoff2.symm), fun a => ?_⟩
  rw [hostReadOut_of_not_done (by rw [herr1]; decide), hostReadOut_of_not_done (by rw [herr2]; decide)]

/-- The raster `m` of `len` bytes is the result (R246). -/
def RasterIs (u : State) (m : Memory) (len : Nat) : Prop :=
  u.status = .done ∧ u.outLen.toNat = len ∧ u.out = m ∧ NoError u

theorem RasterIs.sameOutcome {u1 u2 : State} {m : Memory} {len : Nat} (h1 : RasterIs u1 m len)
    (h2 : RasterIs u2 m len) : SameOutcome u1 u2 := by
  obtain ⟨hdone1, hlen1, hout1, hkind1, hcause1, hoff1⟩ := h1
  obtain ⟨hdone2, hlen2, hout2, hkind2, hcause2, hoff2⟩ := h2
  refine ⟨by rw [hdone1]; decide, hdone1.trans hdone2.symm, BitVec.eq_of_toNat_eq (hlen1.trans hlen2.symm),
    hkind1.trans hkind2.symm, hcause1.trans hcause2.symm, hoff1.trans hoff2.symm, fun a => ?_⟩
  rw [hostReadOut, hostReadOut, hdone1, hdone2, hlen1, hlen2, hout1, hout2]

/-- The command ends, whatever state it is started in, as `P` says; and `P` leaves nothing open that the host can see. -/
def EndsAs (c : Config) (k : Command) (inp : List Byte) (P : State → Prop) : Prop :=
  (∀ u1 u2, P u1 → P u2 → SameOutcome u1 u2) ∧
    ∀ s, Ready c k inp s → ∃ t u, hostStart c s = .next t ∧ Reaches c t u ∧ P u

section
variable {c : Config} (hc : c.Lawful) (inp : List Byte)
include hc

theorem exists_endsAs_decompress : ∃ P, EndsAs c .decompress inp P := by
  have hwhole (s : State) := decompressReachesTheWholeFunction c hc inp s
  cases hfn : decompressFn c inp with
  | ok r =>
    rw [hfn] at hwhole
    refine ⟨fun u => ResultIs u r.bytes, fun _ _ => ResultIs.sameOutcome, fun s hs => ?_⟩
    obtain ⟨t, u, -, hstart, hu, hres, -⟩ := hwhole s hs
    exact ⟨t, u, hstart, hu, hres⟩
  | error f =>
    rw [hfn] at hwhole
    refine ⟨fun u => FaultIs u f.1 f.2, fun _ _ => FaultIs.sameOutcome, fun s hs => ?_⟩
    obtain ⟨t, u, -, hstart, hu, hfault⟩ := hwhole s hs
    exact ⟨t, u, hstart, hu, hfault⟩

theorem exists_endsAs_compress (hb : c.Buffered) : ∃ P, EndsAs c .compress inp P := by
  refine ⟨fun u => ResultIs u (compressFn c inp), fun _ _ => ResultIs.sameOutcome, fun s hs => ?_⟩
  obtain ⟨t, u, -, hstart, hu, hres⟩ := compressReachesTheWholeFunction c hc hb inp s hs
  exact ⟨t, u, hstart, hu, hres⟩

theorem exists_endsAs_pixels (honorAlpha : Bool) : ∃ P, EndsAs c (pixelCommand honorAlpha) inp P := by
  have hwhole (s : State) := pixelCommandsReachTheWholeFunction c hc inp s honorAlpha
  cases hfn : decodeTilesetFn inp honorAlpha with
  | ok m =>
    rw [hfn] at hwhole
    refine ⟨fun u => RasterIs u m (2 * inp.length), fun _ _ => RasterIs.sameOutcome, fun s hs => ?_⟩
    obtain ⟨t, -, hstart, u, hu, hdone, hlen, hout, hclear⟩ := hwhole s hs
    exact ⟨t, u, hstart, hu, hdone, hlen, hout, hclear⟩
  | error f =>
    rw [hfn] at hwhole
    refine ⟨fun u => FaultIs u f.1 f.2, fun _ _ => FaultIs.sameOutcome, fun s hs => ?_⟩
    obtain ⟨t, -, hstart, hfault⟩ := hwhole s hs
    exact ⟨t, t, hstart, reaches_refl c t, hfault⟩

theorem exists_endsAs (hb : c.Buffered) (k : Command) : ∃ P, EndsAs c k inp P := by
  cases k with
  | decompress => exact exists_endsAs_decompress hc inp
  | compress => exact exists_endsAs_compress hc inp hb
  | decodeTileset => exact exists_endsAs_pixels hc inp true
  | decodeTilesetOpaque => exact exists_endsAs_pixels hc inp false

end

/-- Settles O56: each command ends as its whole function says, of which the input is the only argument. -/
theorem outcomeDependsOnTheInputAlone : Obligations.OutcomeDependsOnTheInputAlone := by
  intro c hc hb k inp s1 s2 hready1 hready2
  obtain ⟨P, hsame, hends⟩ := exists_endsAs hc inp hb k
  obtain ⟨t1, u1, hstart1, hu1, hp1⟩ := hends s1 hready1
  obtain ⟨t2, u2, hstart2, hu2, hp2⟩ := hends s2 hready2
  exact ⟨t1, t2, u1, u2, hstart1, hstart2, hu1, hu2, hu1.start_down (hostStart_start_down hstart1),
    hu2.start_down (hostStart_start_down hstart2), hsame u1 u2 hp1 hp2⟩

end Sys2Proof.Machine
end

section
/-! PROOFS. Every command ends (spec R22, R24, R133, R187, R320): each move of an engine keeps the block's invariant and, until
`DONE` or `ERR`, lessens what is left to do; and under the invariant, with the input written, there is always a next move. -/

namespace Sys2Proof.Machine

/-! ### Filled memories and commands -/

/-- A memory filled from address 0 is in canonical form. -/
theorem memWf_of_filled {m : Memory} {n : Nat} (h : m.map Prod.fst = List.range n) : memWf m = true := by
  rw [List.range_eq_range'] at h
  generalize 0 = a at h
  induction m generalizing a n with
  | nil => rfl
  | cons p m ih =>
    cases n with
    | zero => simp at h
    | succ n =>
      rw [List.range'_succ, List.map_cons, List.cons.injEq] at h
      obtain ⟨hp, hm⟩ := h
      refine mapWf_cons.2 ⟨ih (a + 1) hm, fun q hq => ?_⟩
      have hmem : q.1 ∈ List.range' (a + 1) n := hm ▸ List.mem_map_of_mem (List.mem_of_head? hq)
      rw [List.mem_range'_1] at hmem
      omega

theorem eq_decompress_of_engineOf {k : Command} (h : engineOf k = .lzDecoder) : k = .decompress := by
  cases k with
  | decompress => rfl
  | _ => cases h

/-! ### What the invariant says of the interface -/

/-- A move inside a command: of the interface, of `IN` and of the command nothing changes. -/
def SameCommand (s t : State) : Prop := SameInterface s t ∧ t.inp = s.inp

theorem sameCommand_update (s : State) (out : Memory) (idx : MatchIndex) (d : LzDecoder) (e : LzEncoder)
    (p : PixelDecoder) : SameCommand s { s with out := out, idx := idx, dec := d, enc := e, pix := p } :=
  ⟨⟨rfl, rfl, rfl, rfl, rfl, rfl, rfl, rfl⟩, rfl⟩

theorem SameCommand.cmd_eq {s t : State} (h : SameCommand s t) : t.cmd = s.cmd := by
  obtain ⟨⟨hcmd, -⟩, -⟩ := h
  exact hcmd

section
variable {c : Config} {s t : State}

/-- Inside a command the invariant is that of the engine, with the forms of `OUT` and of the index. -/
theorem BlockInv.of_sameCommand (h : BlockInv c s) (hb : s.status = .busy) (hsame : SameCommand s t)
    (hout : memWf t.out = true) (hidx : Machine.idxWf t.idx = true)
    (hend : c.commandOf s.cmd ≠ .decompress → t.dec.dstate = .ended) (heng : EngineInv c t) : BlockInv c t := by
  obtain ⟨⟨hcmd, hinLen, houtLen, hstatus, hkind, hcause, -, -⟩, hinp⟩ := hsame
  have hbt : t.status = .busy := hstatus.trans hb
  exact
    { inWf := by rw [hinp]; exact h.inWf
      outWf := hout
      idxWf := hidx
      widths := by rw [hinLen, houtLen]; exact h.widths
      kind := by rw [hkind, hcause]; exact h.kind
      cause := by rw [hstatus, hcause]; exact h.cause
      noResult := by rw [hstatus, houtLen]; exact h.noResult
      dead := by simp [hbt]
      result := by simp [hbt]
      ended := fun hd => hend (by rw [← hcmd]; exact hd.resolve_left (not_not_intro hbt))
      engine := fun _ => heng }

/-- A command that completes leaves the invariant, if its result is all written (R22, R133). -/
theorem BlockInv.complete {n : Nat} (h : BlockInv c s) (hb : s.status = .busy) {d : LzDecoder}
    (hd : d.dstate = .ended) (hfilled : ∀ a, a < n → (memRead s.out a).isSome) :
    BlockInv c (complete c n { s with dec := d }) := by
  have hle : (BitVec.ofNat 33 (n % 2 ^ c.outLenBits)).toNat ≤ n % 2 ^ c.outLenBits := by
    rw [BitVec.toNat_ofNat]
    exact Nat.mod_le ..
  have hnone : s.errCause = .none := by
    by_contra hne
    rw [h.cause.2 hne] at hb
    cases hb
  exact
    { inWf := h.inWf
      outWf := h.outWf
      idxWf := h.idxWf
      widths := ⟨h.widths.1, hle.trans_lt (Nat.mod_lt _ (Nat.two_pow_pos _))⟩
      kind := h.kind
      cause := by simp [hnone]
      noResult := by simp
      dead := by simp
      result := fun _ a ha => hfilled a ((ha.trans_le hle).trans_le (Nat.mod_le ..))
      ended := fun _ => hd
      engine := by simp }

/-! ### The LZ decoder -/

theorem BlockInv.decInv (h : BlockInv c s) (hb : s.status = .busy) (he : engineOfCmd c s.cmd = .lzDecoder) :
    DecInv c s := by
  simpa only [EngineInv, he] using h.engine hb

theorem BlockInv.encInv (h : BlockInv c s) (hb : s.status = .busy) (he : engineOfCmd c s.cmd = .lzEncoder) :
    EncInv c s := by
  simpa only [EngineInv, he] using h.engine hb

theorem BlockInv.pixInv (h : BlockInv c s) (hb : s.status = .busy) (he : engineOfCmd c s.cmd = .pixelDecoder) :
    PixInv c s := by
  simpa only [EngineInv, he] using h.engine hb

/-- What a move of the LZ decoder leads to: the end of the command, or a state of the same command that keeps the decoder's
invariant. -/
inductive DecoderGoal (c : Config) (s : State) : State → Prop
  | fault {cause : ErrCause} {offset : Nat} {d : LzDecoder} (hc : cause ≠ .none) :
      DecoderGoal c s (raise cause offset { s with dec := d })
  | done (hw : s.dec.wp = s.dec.totalLen) : DecoderGoal c s (finishDecompress c s)
  | busy {t : State} (hsame : SameCommand s t) (hidx : t.idx = s.idx) (hinv : DecInv c t) : DecoderGoal c s t

theorem DecoderGoal.of_dec {d : LzDecoder} (hinv : DecInv c { s with dec := d }) :
    DecoderGoal c s { s with dec := d } :=
  .busy (sameCommand_update ..) rfl hinv

/-- The invariant at the loop head. -/
theorem decInv_of_ctrl (hd : s.dec.dstate = .ctrl) (hcursor : 4 ≤ s.dec.rp ∧ s.dec.rp ≤ s.inLen.toNat)
    (howed : s.dec.wp ≤ s.dec.totalLen ∧ s.dec.totalLen < 2 ^ 32) (hbits : s.dec.nbits ≤ 8)
    (hfilled : OutFilled s s.dec.wp) : DecInv c s where
  live := by simp [hd]
  head := by simp [hd]
  cursor := fun _ => hcursor
  owed := fun _ => howed
  bits := hbits
  filled := hfilled
  bit := by simp [hd]
  token := by simp [hd]
  copy := by simp [hd]

/-- The invariant before a control bit is used. -/
theorem decInv_of_bit (hd : s.dec.dstate = .bit) (hcursor : 4 ≤ s.dec.rp ∧ s.dec.rp ≤ s.inLen.toNat)
    (howed : s.dec.wp < s.dec.totalLen ∧ s.dec.totalLen < 2 ^ 32) (hbits : 0 < s.dec.nbits ∧ s.dec.nbits ≤ 8)
    (hfilled : OutFilled s s.dec.wp) : DecInv c s where
  live := by simp [hd]
  head := by simp [hd]
  cursor := fun _ => hcursor
  owed := fun _ => ⟨howed.1.le, howed.2⟩
  bits := hbits.2
  filled := hfilled
  bit := fun _ => ⟨hbits.1, howed.1⟩
  token := by simp [hd]
  copy := by simp [hd]

/-- The invariant before a token is read. -/
theorem decInv_of_token (hd : s.dec.dstate = .lit ∨ s.dec.dstate = .ref)
    (hcursor : 4 ≤ s.dec.rp ∧ s.dec.rp ≤ s.inLen.toNat)
    (howed : s.dec.wp < s.dec.totalLen ∧ s.dec.totalLen < 2 ^ 32) (hbits : s.dec.nbits ≤ 8)
    (hfilled : OutFilled s s.dec.wp) (hstart : s.dec.tokStart = s.dec.rp) : DecInv c s where
  live := by rcases hd with hd | hd <;> simp [hd]
  head := by rcases hd with hd | hd <;> simp [hd]
  cursor := fun _ => hcursor
  owed := fun _ => ⟨howed.1.le, howed.2⟩
  bits := hbits
  filled := hfilled
  bit := by rcases hd with hd | hd <;> simp [hd]
  token := fun _ => ⟨howed.1, hstart⟩
  copy := by rcases hd with hd | hd <;> simp [hd]

/-- The header is passed (R171, R172). -/
theorem DecInv.enterBlocks (h : DecInv c s) (hd : s.dec.dstate = .hdr) {len size : Nat} (hlen : len < 2 ^ 32)
    (hlow : 4 ≤ size) (hhigh : size ≤ s.inLen.toNat) : DecInv c (enterBlocks len size s) := by
  obtain ⟨-, hwp, -⟩ := h.head hd
  exact decInv_of_ctrl rfl ⟨hlow, hhigh⟩ ⟨hwp.trans_le (Nat.zero_le _), hlen⟩ h.bits h.filled

/-- A control bit is used (R175). -/
theorem DecInv.bitTest (h : DecInv c s) (hd : s.dec.dstate = .bit) : DecInv c (bitTest s) := by
  obtain ⟨-, hlt⟩ := h.bit hd
  have ⟨_, htotal⟩ := h.owed (by simp [hd])
  refine decInv_of_token ?_ (h.cursor (by simp [hd])) ⟨hlt, htotal⟩ ((Nat.sub_le ..).trans h.bits) h.filled rfl
  rw [bitTest_dec]
  dsimp only
  split
  · exact .inr rfl
  · exact .inl rfl

/-- A token is taken: its distance faults, or the copy begins (R181 to R183). -/
theorem DecInv.takeReference (h : DecInv c s) (hd : s.dec.dstate = .ref) {size len dist : Nat}
    (hl : s.dec.rp + size ≤ s.inLen.toNat) (hlegal : c.Encodable len dist) :
    DecoderGoal c s (takeReference size len dist s) := by
  obtain ⟨hmin, hmax, hlow, hhigh⟩ := hlegal
  obtain ⟨hrp, -⟩ := h.cursor (by simp [hd])
  have howed := h.owed (by simp [hd])
  unfold Machine.takeReference
  split
  next => exact .fault nofun
  next hdist =>
    refine .of_dec
      { live := nofun
        head := nofun
        cursor := fun _ => ⟨hrp.trans (Nat.le_add_right ..), hl⟩
        owed := fun _ => howed
        bits := h.bits
        filled := h.filled
        bit := nofun
        token := by simp
        copy := fun _ => ⟨hlow, hhigh, Nat.not_lt.1 hdist, hmin, hmax, Nat.min_le_left .., ?_⟩ }
    dsimp only
    omega

/-- A byte is copied (R182). -/
theorem DecInv.copyByte (h : DecInv c s) (hd : s.dec.dstate = .copy) (hz : s.dec.refLeft ≠ 0) (v : Byte) :
    DecInv c
      { s with
        out := memWrite s.out s.dec.wp v
        dec := { s.dec with wp := s.dec.wp + 1, refLeft := s.dec.refLeft - 1 } } := by
  have hcursor := h.cursor (by simp [hd])
  obtain ⟨-, htotal⟩ := h.owed (by simp [hd])
  obtain ⟨hlow, hhigh, hdist, hmin, hmax, hleft, hroom⟩ := h.copy hd
  have hwp : s.dec.wp + 1 ≤ s.dec.totalLen := by omega
  exact
    { live := by simp [hd]
      head := by simp [hd]
      cursor := fun _ => hcursor
      owed := fun _ => ⟨hwp, htotal⟩
      bits := h.bits
      filled := filled_memWrite h.filled v
      bit := by simp [hd]
      token := by simp [hd]
      copy := fun _ => by
        dsimp only
        omega }

theorem DecoderMove.goal (hc : c.Lawful) (h : DecInv c s) (hm : DecoderMove c s t) : DecoderGoal c s t := by
  cases hm with
  | headerTruncated => exact .fault nofun
  | badTag => exact .fault nofun
  | controlTruncated => exact .fault nofun
  | literalTruncated => exact .fault (d := s.dec) nofun
  | referenceTruncated => exact .fault (d := s.dec) nofun
  | finish hd hw => exact .done hw
  | header len24 hd hl => exact .of_dec (h.enterBlocks hd (len24.isLt.trans (by decide)) (by decide) hl)
  | headerX len32 hd hl => exact .of_dec (h.enterBlocks hd len32.isLt (by decide) hl)
  | toBit hd hw hn =>
    obtain ⟨hle, htotal⟩ := h.owed (by simp [hd])
    exact .of_dec (decInv_of_bit rfl (h.cursor (by simp [hd])) ⟨lt_of_le_of_ne hle hw, htotal⟩
      ⟨Nat.pos_of_ne_zero hn, h.bits⟩ h.filled)
  | control flags hd hw hn hl hr =>
    obtain ⟨hrp, -⟩ := h.cursor (by simp [hd])
    obtain ⟨hle, htotal⟩ := h.owed (by simp [hd])
    exact .of_dec (decInv_of_bit rfl ⟨hrp.trans (Nat.le_add_right ..), hl⟩ ⟨lt_of_le_of_ne hle hw, htotal⟩
      ⟨Nat.succ_pos 7, Nat.le_refl 8⟩ h.filled)
  | bit hd => exact .of_dec (h.bitTest hd)
  | literal v hd hl hr =>
    obtain ⟨hrp, -⟩ := h.cursor (by simp [hd])
    obtain ⟨-, htotal⟩ := h.owed (by simp [hd])
    obtain ⟨hlt, -⟩ := h.token (.inl hd)
    exact .busy (sameCommand_update ..) rfl (decInv_of_ctrl rfl ⟨hrp.trans (Nat.le_add_right ..), hl⟩ ⟨hlt, htotal⟩
      h.bits (filled_memWrite h.filled v))
  | reference size len dist hd hl hlegal => exact h.takeReference hd hl (hlegal hc)
  | copyDone hd hz =>
    exact .of_dec (decInv_of_ctrl rfl (h.cursor (by simp [hd])) (h.owed (by simp [hd])) h.bits h.filled)
  | copyByte v hd hz hv => exact .busy (sameCommand_update ..) rfl (h.copyByte hd hz v)

theorem DecoderMove.keeps_blockInv (hc : c.Lawful) (h : BlockInv c s) (hb : s.status = .busy)
    (he : engineOfCmd c s.cmd = .lzDecoder) (hm : DecoderMove c s t) : BlockInv c t := by
  have hdec := h.decInv hb he
  cases hm.goal hc hdec with
  | fault hcause => exact blockInv_raise (s := { s with dec := _ }) hcause _ h.inWf h.idxWf h.widths.1
  | done hw => exact h.complete hb rfl fun a ha => (filled_isSome hdec.filled a).2 (hw ▸ ha)
  | busy hsame hidx hinv =>
    have hcmd : c.commandOf s.cmd = .decompress := eq_decompress_of_engineOf he
    have het : engineOfCmd c t.cmd = .lzDecoder := by rw [hsame.cmd_eq, he]
    exact h.of_sameCommand hb hsame (memWf_of_filled hinv.filled) (hidx ▸ h.idxWf) (fun hne => absurd hcmd hne)
      (hinv.engineInv het)

/-! ### The LZ encoder -/

theorem EncInv.header (h : EncInv c s) (hw : s.enc.wp = 0) : EncInv c (emitHeader c s) where
  length := h.length
  scan := h.scan
  head := fun hz => h.head hw
  group := h.group
  filled := by
    have hfilled := h.filled
    rw [hw] at hfilled
    have := filled_memWriteN hfilled (headerBytes c s.enc.n)
    rwa [Nat.zero_add] at this
  best := h.best
  unused := h.unused
  index := h.index
  recency := h.recency

theorem EncInv.flush (h : EncInv c s) : EncInv c (flushGroup s) where
  length := h.length
  scan := h.scan
  head := by simp
  group := ⟨Nat.zero_le _, Nat.zero_le _⟩
  filled := by
    have hlen : (s.enc.grpCtrl :: groupBytes s.enc).length = 1 + s.enc.grpLen := by
      have := h.group
      simp only [groupBytes, groupSize, List.length_cons, List.length_take, Vector.length_toList] at this ⊢
      omega
    have hfilled := filled_memWriteN h.filled (s.enc.grpCtrl :: groupBytes s.enc)
    rwa [hlen, ← Nat.add_assoc] at hfilled
  best := h.best
  unused := by simp
  index := h.index
  recency := h.recency

theorem EncInv.token (hc : c.Lawful) (hbuf : c.Buffered) (h : EncInv c s) {inp : List Byte} (hw : s.enc.wp ≠ 0)
    (hcnt : s.enc.grpCnt ≠ groupSize) (hpos : s.enc.pos < s.enc.n) (hn : inp.length = s.enc.n) :
    EncInv c (emitToken c inp (bestAt c inp s) s) := by
  obtain ⟨hlen, hdist⟩ :=
    searchMatch_bounds c inp s.enc.pos s.enc.bestDist (cands := candidates c inp s.idx s.enc.pos)
      fun p => candidates_window
  have hmax := hlen.trans (Nat.min_le_left ..)
  have hcap := hlen.trans (Nat.min_le_right ..)
  have htok := tokenBytes_length_le hc hbuf inp s.enc.pos hmax hdist
  obtain ⟨hindex, hrecency⟩ := insertRange_ordered c inp (tokenAdvance (bestAt c inp s)) h.index h.recency
  obtain ⟨hfew, hshort⟩ := h.group
  have hlt : s.enc.grpCnt < 8 := lt_of_le_of_ne hfew hcnt
  exact
    { length := h.length
      scan := by
        show s.enc.pos + tokenAdvance (bestAt c inp s) ≤ s.enc.n
        unfold tokenAdvance bestAt
        split <;> omega
      head := fun hz => absurd hz hw
      group := ⟨hlt, by
        show s.enc.grpLen + (tokenBytes c inp s.enc.pos (bestAt c inp s)).length ≤ 4 * (s.enc.grpCnt + 1)
        unfold bestAt
        omega⟩
      filled := h.filled
      best := ⟨hmax, hdist⟩
      unused := fun j hj => markToken_unused _ hlt h.unused hj
      index := hindex
      recency := hrecency }

theorem EncoderMove.keeps_blockInv (hc : c.Lawful) (hbuf : c.Buffered) (h : BlockInv c s) (hb : s.status = .busy)
    (he : engineOfCmd c s.cmd = .lzEncoder) (hm : EncoderMove c s t) : BlockInv c t := by
  have henc := h.encInv hb he
  have hend : c.commandOf s.cmd ≠ .decompress → s.dec.dstate = .ended := fun hne => h.ended (.inr hne)
  have hkeep {t : State} (hsame : SameCommand s t) (hdec : t.dec = s.dec) (hidx : idxWf t.idx = true)
      (hinv : EncInv c t) : BlockInv c t :=
    h.of_sameCommand hb hsame (memWf_of_filled hinv.filled) hidx (hdec ▸ hend)
      (hinv.engineInv (by rw [hsame.cmd_eq, he]))
  cases hm with
  | header hw => exact hkeep (sameCommand_update ..) rfl h.idxWf (henc.header hw)
  | flush => exact hkeep (sameCommand_update ..) rfl h.idxWf henc.flush
  | token inp hw hg hp hr =>
    exact hkeep (sameCommand_update ..) rfl (idxWf_insertRange c inp h.idxWf _ _)
      (henc.token hc hbuf hw (fun hx => hg (.inl hx)) hp (memReadN_length hr))
  | finish =>
    refine h.complete hb (d := s.dec) (hend ?_) fun a ha => (filled_isSome henc.filled a).2 ha
    intro hx
    rw [engineOfCmd, hx] at he
    cases he

/-! ### The pixel decoder -/

theorem PixInv.sample (h : PixInv c s) (d : BitVec 16) (p : Rgba) (hs : s.pix.s < s.pix.npix) :
    PixInv c (latchPixel d p s) where
  mode := h.mode
  stride := h.stride
  count := h.count
  cursor := h.cursor
  latched := fun _ => hs
  filled := h.filled

theorem PixInv.raster (h : PixInv c s) {p : RasterPx} (hl : s.pix.latch = some p) : PixInv c (writeRaster p s) where
  mode := h.mode
  stride := h.stride
  count := h.count
  cursor := h.latched (by rw [hl]; rfl)
  latched := nofun
  filled := by
    intro a
    have hsize : (rasterBytes p).length = 4 := rfl
    rw [writeRaster_out, memRead_memWriteN, hsize]
    show _ ↔ ∃ i, i < s.pix.s + 1 ∧ _
    split
    next hin =>
      have hget : (rasterBytes p)[a - rasterAddr s.pix.s]?.isSome := by
        rw [List.getElem?_eq_getElem (by omega)]
        rfl
      exact iff_of_true hget ⟨s.pix.s, Nat.lt_succ_self _, hin⟩
    next hout =>
      rw [h.filled]
      constructor
      · rintro ⟨i, hi, hia⟩
        exact ⟨i, hi.trans (Nat.lt_succ_self _), hia⟩
      · rintro ⟨i, hi, hia⟩
        rcases Nat.lt_succ_iff_lt_or_eq.1 hi with hi | rfl
        · exact ⟨i, hi, hia⟩
        · exact absurd hia hout

/-- When every sample is done every byte of the raster is written (R244). -/
theorem PixInv.all_filled (h : PixInv c s) (hs : ¬s.pix.s < s.pix.npix) {a : Nat} (ha : a < 2 * s.inLen.toNat) :
    (memRead s.out a).isSome := by
  have hcursor := h.cursor
  have hcount := h.count
  have hstride := h.stride
  simp only [tileRowStride] at hstride
  have hlt : sampleOfRaster (a / 4) < s.pix.npix := sampleOfRaster_lt (by omega) (by omega)
  refine (h.filled a).2 ⟨sampleOfRaster (a / 4), by omega, ?_⟩
  rw [rasterAddr, rasterIndex_sampleOfRaster]
  omega

theorem PixelMove.keeps_blockInv (h : BlockInv c s) (hb : s.status = .busy)
    (he : engineOfCmd c s.cmd = .pixelDecoder) (hm : PixelMove c s t) : BlockInv c t := by
  have hpix := h.pixInv hb he
  have hend : c.commandOf s.cmd ≠ .decompress → s.dec.dstate = .ended := fun hne => h.ended (.inr hne)
  have hkeep {t : State} (hsame : SameCommand s t) (hdec : t.dec = s.dec) (hidx : t.idx = s.idx)
      (hout : memWf t.out = true) (hinv : PixInv c t) : BlockInv c t :=
    h.of_sameCommand hb hsame hout (hidx ▸ h.idxWf) (hdec ▸ hend) (hinv.engineInv (by rw [hsame.cmd_eq, he]))
  cases hm with
  | sample i d p hl hs hi hd =>
    exact hkeep (sameCommand_update ..) rfl rfl h.outWf (hpix.sample d p hs)
  | raster p hl =>
    exact hkeep (sameCommand_update ..) rfl rfl (memWf_memWriteN h.outWf ..) (hpix.raster hl)
  | finish hl hs =>
    refine h.complete hb (d := s.dec) (hend ?_) fun a ha => hpix.all_filled hs ha
    intro hx
    rw [engineOfCmd, hx] at he
    cases he

/-! ### Every step -/

/-- Nothing in the invariant speaks of the `START` line (log entry 2). -/
theorem BlockInv.with_start (h : BlockInv c s) (b : Bool) : BlockInv c { s with start := b } := by
  refine { h with engine := fun hb => ?_ }
  cases he : engineOfCmd c s.cmd with
  | lzDecoder =>
    have hdec := h.decInv hb he
    exact DecInv.engineInv { hdec with live := hdec.live } he
  | lzEncoder =>
    have henc := h.encInv hb he
    exact EncInv.engineInv { henc with length := henc.length } he
  | pixelDecoder =>
    have hpix := h.pixInv hb he
    exact PixInv.engineInv { hpix with mode := hpix.mode } he

/-- Every step keeps the block's invariant. -/
theorem stepWith_keeps_blockInv (hc : c.Lawful) (hbuf : c.Buffered) (h : BlockInv c s)
    (hstep : stepWith c s = .next t) : BlockInv c t := by
  rcases step_cases hstep with ⟨-, hx⟩ | ⟨-, -, rfl⟩ | ⟨-, hb, he, hm⟩ | ⟨-, hb, he, hm⟩ | ⟨-, hb, he, hm⟩
  · by_cases hb : s.status = .busy
    · rw [exec_command_of_busy _ hb] at hx
      cases hx
      exact h.with_start false
    · rw [exec_command_of_not_busy _ hb] at hx
      cases hx
      exact blockInv_beginCommand h hb
  · exact h
  · exact hm.keeps_blockInv hc h hb he
  · exact hm.keeps_blockInv hc hbuf h hb he
  · exact hm.keeps_blockInv h hb he

/-! ### There is always a next move -/

theorem fetchBytes_ne_unwritten {inp : List Byte} (hin : InputIs s inp) (a n : Nat) :
    fetchBytes s.inp s.inLen.toNat a n ≠ .error .unwritten := by
  rw [hin.fetchBytes_eq]
  split <;> nofun

theorem fetchWith_ne_unwritten {inp : List Byte} (hin : InputIs s inp) (dec : List Byte → Decoded) (first a : Nat) :
    fetchWith dec first s.inp s.inLen.toNat a ≠ .unwritten := by
  have hbytes := fetchBytes_ne_unwritten hin a
  unfold fetchWith
  split
  next e he => exact fun hx => hbytes first (hx ▸ he)
  next =>
    split
    · nofun
    · nofun
    next n _ =>
      split
      next e he => exact fun hx => hbytes n (hx ▸ he)
      next => split <;> nofun

theorem fetchReference_ne_unwritten {inp : List Byte} (hin : InputIs s inp) (c : Config) (a : Nat) :
    fetchReference c s.inp s.inLen.toNat a ≠ .unwritten := by
  have hbytes := fetchBytes_ne_unwritten hin a
  unfold fetchReference
  split
  next e he => exact fun hx => hbytes 1 (hx ▸ he)
  next bs _ =>
    split
    next e he => exact fun hx => hbytes (tokenSize c bs) (hx ▸ he)
    next => nofun

theorem fetchStream_ne_unwritten {inp : List Byte} (hin : InputIs s inp) (c : Config) :
    fetchStream c s ≠ .unwritten := by
  cases hd : s.dec.dstate <;> simp only [fetchStream, hd]
  case hdr => exact fetchWith_ne_unwritten hin _ _ _
  case ctrl =>
    split
    · nofun
    · exact fetchWith_ne_unwritten hin _ _ _
  case lit => exact fetchWith_ne_unwritten hin _ _ _
  case ref => exact fetchReference_ne_unwritten hin _ _
  all_goals nofun

/-- With the input written no fetch meets an unwritten byte (R305). -/
theorem fetch_ne_unwritten {inp : List Byte} (hin : InputIs s inp) (c : Config) : fetch c s ≠ .unwritten := by
  rcases fetch_cases c s with ⟨-, hx⟩ | ⟨-, -, hx⟩ | ⟨-, -, ⟨-, hx⟩ | ⟨-, hx⟩ | ⟨-, hx⟩⟩ <;> rw [hx]
  · nofun
  · nofun
  · exact fetchStream_ne_unwritten hin c
  · nofun
  · rcases fetchPixel_cases s with ⟨i, hf⟩ | hf | ⟨-, hf⟩ <;> rw [hf]
    · nofun
    · nofun
    · exact fetchWith_ne_unwritten hin _ _ _

/-- The decoder's own steps read no byte of `IN` (R185). -/
theorem decoderStep_ne_unwritten (c : Config) (s : State) : decoderStep c s ≠ .fault .unwrittenIn := by
  have hcopy : copyStep s ≠ .fault .unwrittenIn := by
    unfold copyStep
    split
    · nofun
    · split <;> nofun
  unfold decoderStep
  split
  · nofun
  · nofun
  · exact hcopy
  · nofun

/-- With the input written the encoder's search can read it (R202, R305). -/
theorem EncInv.encoderStep_ne_unwritten {inp : List Byte} (h : EncInv c s) (hin : InputIs s inp) :
    encoderStep c s ≠ .fault .unwrittenIn := by
  have hread : memReadN s.inp 0 s.enc.n = some inp := by
    rw [h.length, hin.1]
    exact hin.2
  unfold encoderStep scanStep
  rw [hread]
  split
  · nofun
  · split
    · nofun
    · split <;> nofun

theorem BlockInv.internalStep_ne_unwritten {inp : List Byte} (h : BlockInv c s) (hin : InputIs s inp)
    (hb : s.status = .busy) : internalStep c s ≠ .fault .unwrittenIn := by
  unfold internalStep
  cases he : engineOfCmd c s.cmd with
  | lzDecoder => exact decoderStep_ne_unwritten c s
  | lzEncoder => exact (h.encInv hb he).encoderStep_ne_unwritten hin
  | pixelDecoder => nofun

/-- From a state of the invariant, with the input written, every step has a next state. -/
theorem BlockInv.stepWith_next {inp : List Byte} (h : BlockInv c s) (hin : InputIs s inp) :
    ∃ t, stepWith c s = .next t := by
  refine h.stepWith_stopsOnlyAtInput.resolve_right ?_
  rw [stepWith]
  cases hf : fetch c s with
  | instr i =>
    obtain ⟨t, ht⟩ := exec_next i s
    simp [ht]
  | token t => nofun
  | truncated =>
    obtain ⟨t, ht⟩ := takeTruncated_next (h.engine_of_fetch_truncated hf)
    simp [ht]
  | rejected r => cases r <;> nofun
  | unwritten => exact absurd hf (fetch_ne_unwritten hin c)
  | internal => exact h.internalStep_ne_unwritten hin (busy_of_fetch_internal hf)
  | idle => nofun

/-! ### What is left to do -/

/-- How far the LZ decoder has gone with the token that is due. Of a copy's steps only the last one is counted here; the others
add to the output. -/
def decoderStage (d : LzDecoder) : Nat :=
  match d.dstate with
  | .ctrl => 3
  | .bit => 2
  | .lit => 1
  | .ref => 1
  | .copy => if d.refLeft = 0 then 4 else 0
  | .hdr => 0
  | .ended => 0

/-- Bytes to read, bytes to write, and the stage of the token; before the header is read the output may have any length that 32
bits hold. -/
def decoderLeft (s : State) : Nat :=
  match s.dec.dstate with
  | .hdr => 5 * s.inLen.toNat + 5 * 2 ^ 32
  | _ => 5 * (s.inLen.toNat - s.dec.rp) + 5 * (s.dec.totalLen - s.dec.wp) + decoderStage s.dec

/-- Bytes to scan, a group to flush, and the header. -/
def encoderLeft (s : State) : Nat :=
  2 * (s.enc.n - s.enc.pos) + min 1 s.enc.grpCnt + (1 - s.enc.wp)

/-- Samples to decode and pixels to write. -/
def pixelsLeft (s : State) : Nat := 2 * (s.pix.npix - s.pix.s) + (if s.pix.latch = none then 1 else 0)

/-- What the running engine has left to do. -/
def workLeft (c : Config) (s : State) : Nat :=
  match engineOfCmd c s.cmd with
  | .lzDecoder => decoderLeft s
  | .lzEncoder => encoderLeft s
  | .pixelDecoder => pixelsLeft s

/-- The command is over, or less than `n` is left by the measure `left`. -/
def EndsOrLess (left : State → Nat) (n : Nat) (t : State) : Prop :=
  (t.status = .done ∨ t.status = .err) ∨ (t.status = .busy ∧ left t < n)

theorem DecoderMove.endsOrLess (hc : c.Lawful) (h : DecInv c s) (hb : s.status = .busy) (hm : DecoderMove c s t) :
    EndsOrLess decoderLeft (decoderLeft s) t := by
  have hcursor := h.cursor
  have howed := h.owed
  cases hm with
  | headerTruncated => exact .inl (.inr rfl)
  | badTag => exact .inl (.inr rfl)
  | controlTruncated => exact .inl (.inr rfl)
  | literalTruncated => exact .inl (.inr rfl)
  | referenceTruncated => exact .inl (.inr rfl)
  | finish hd hw => exact .inl (.inl rfl)
  | header len24 hd hl =>
    have hlt := len24.isLt
    refine .inr ⟨hb, ?_⟩
    simp only [decoderLeft, hd, enterBlocks_dec, enterBlocks_inLen, decoderStage]
    omega
  | headerX len32 hd hl =>
    have hlt := len32.isLt
    refine .inr ⟨hb, ?_⟩
    simp only [decoderLeft, hd, enterBlocks_dec, enterBlocks_inLen, decoderStage]
    omega
  | toBit hd hw hn =>
    refine .inr ⟨hb, ?_⟩
    simp only [decoderLeft, hd, decoderStage]
    omega
  | control flags hd hw hn hl hr =>
    refine .inr ⟨hb, ?_⟩
    simp only [decoderLeft, hd, decoderStage]
    omega
  | bit hd =>
    refine .inr ⟨hb, ?_⟩
    cases hbit : nextCtrlBit s.dec.ctrl <;> simp [decoderLeft, hd, bitTest_dec, hbit, decoderStage]
  | literal v hd hl hr =>
    have hlt := (h.token (.inl hd)).1
    refine .inr ⟨hb, ?_⟩
    simp only [decoderLeft, hd, decoderStage]
    omega
  | reference size len dist hd hl hlegal =>
    have hlt := (h.token (.inr hd)).1
    obtain ⟨hmin, -⟩ := hlegal hc
    unfold takeReference
    split
    · exact .inl (.inr rfl)
    · refine .inr ⟨hb, ?_⟩
      have hsome : ¬min len (s.dec.totalLen - s.dec.wp) = 0 := by omega
      simp only [decoderLeft, hd, decoderStage, if_neg hsome]
      omega
  | copyDone hd hz =>
    refine .inr ⟨hb, ?_⟩
    simp only [decoderLeft, hd, decoderStage, if_pos hz]
    omega
  | copyByte v hd hz hv =>
    have hcopy := h.copy hd
    refine .inr ⟨hb, ?_⟩
    simp only [decoderLeft, hd, decoderStage]
    split <;> omega

theorem EncoderMove.endsOrLess (hb : s.status = .busy) (hm : EncoderMove c s t) :
    EndsOrLess encoderLeft (encoderLeft s) t := by
  cases hm with
  | header hw =>
    have hlen := headerBytes_length c s.enc.n
    refine .inr ⟨hb, ?_⟩
    simp only [encoderLeft, emitHeader_enc]
    omega
  | flush hw hg =>
    have hcnt : 0 < s.enc.grpCnt := by
      simp only [groupSize] at hg
      omega
    refine .inr ⟨hb, ?_⟩
    simp only [encoderLeft, flushGroup_enc]
    omega
  | token inp hw hg hp hr =>
    have hadv := tokenAdvance_pos (bestAt c inp s)
    refine .inr ⟨hb, ?_⟩
    simp only [encoderLeft, emitToken]
    omega
  | finish => exact .inl (.inl rfl)

theorem PixelMove.endsOrLess (h : PixInv c s) (hb : s.status = .busy) (hm : PixelMove c s t) :
    EndsOrLess pixelsLeft (pixelsLeft s) t := by
  cases hm with
  | sample i d p hl hs hi hd =>
    refine .inr ⟨hb, ?_⟩
    simp [pixelsLeft, latchPixel_pix, hl]
  | raster p hl =>
    have hlt := h.latched (by rw [hl]; rfl)
    refine .inr ⟨hb, ?_⟩
    simp only [pixelsLeft, writeRaster_pix, hl, if_true]
    omega
  | finish => exact .inl (.inl rfl)

theorem EndsOrLess.of_engine {left : State → Nat} {e : Engine}
    (hleft : ∀ u, engineOfCmd c u.cmd = e → workLeft c u = left u)
    (he : engineOfCmd c s.cmd = e) (hcmd : t.cmd = s.cmd) (h : EndsOrLess left (left s) t) :
    EndsOrLess (workLeft c) (workLeft c s) t := by
  rw [EndsOrLess, hleft s he, hleft t (by rw [hcmd, he])]
  exact h

/-- A step of a running command ends it, or leaves less to do. -/
theorem BlockInv.endsOrLess (hc : c.Lawful) (h : BlockInv c s) (hs : s.start = false) (hb : s.status = .busy)
    (hstep : stepWith c s = .next t) : EndsOrLess (workLeft c) (workLeft c s) t := by
  have ⟨_, _, hcmd⟩ := stepWith_sameHostSide hstep
  rcases step_cases hstep with ⟨hs', -⟩ | ⟨-, hb', -⟩ | ⟨-, -, he, hm⟩ | ⟨-, -, he, hm⟩ | ⟨-, -, he, hm⟩
  · rw [hs] at hs'
    cases hs'
  · exact absurd hb hb'
  · exact .of_engine (fun u hu => by rw [workLeft, hu]) he hcmd (hm.endsOrLess hc (h.decInv hb he) hb)
  · exact .of_engine (fun u hu => by rw [workLeft, hu]) he hcmd (hm.endsOrLess hb)
  · exact .of_engine (fun u hu => by rw [workLeft, hu]) he hcmd (hm.endsOrLess (h.pixInv hb he) hb)

/-- A command that runs, or is over, ends. -/
theorem BlockInv.ends (hc : c.Lawful) (hbuf : c.Buffered) {inp : List Byte} (h : BlockInv c s) (hin : InputIs s inp)
    (hs : s.start = false) (hidle : s.status ≠ .idle) :
    ∃ u, Reaches c s u ∧ u.start = false ∧ (u.status = .done ∨ u.status = .err) := by
  induction hn : workLeft c s using Nat.strongRecOn generalizing s with
  | ind n ih =>
    subst hn
    cases hstatus : s.status with
    | idle => exact absurd hstatus hidle
    | done => exact ⟨s, reaches_refl c s, hs, .inl hstatus⟩
    | err => exact ⟨s, reaches_refl c s, hs, .inr hstatus⟩
    | busy =>
      obtain ⟨t, hstep⟩ := h.stepWith_next hin
      have hdown := stepWith_start_down hstep
      rcases h.endsOrLess hc hs hstatus hstep with hover | ⟨hbusy, hless⟩
      · exact ⟨t, reaches_of_step hstep, hdown, hover⟩
      · obtain ⟨u, hu, hend⟩ := ih _ hless (stepWith_keeps_blockInv hc hbuf h hstep)
          (hin.of_sameHostSide (stepWith_sameHostSide hstep)) hdown (by rw [hbusy]; decide) rfl
        exact ⟨u, .head hstep hu, hend⟩

theorem beginCommand_status_ne_idle (k : Command) (s : State) : (beginCommand k (commandStart s)).status ≠ .idle := by
  have hcheck (honorAlpha : Bool) : (checkLength (beginPixels honorAlpha (commandStart s))).status ≠ .idle := by
    rcases checkLength_cases (beginPixels honorAlpha (commandStart s)) with ⟨-, hx⟩ | ⟨-, hx⟩ <;> rw [hx] <;> nofun
  cases k with
  | decompress => nofun
  | compress => nofun
  | decodeTileset => exact hcheck true
  | decodeTilesetOpaque => exact hcheck false

/-- A raised `START` leaves no idle block: the command begins, goes on, or has already taken its fault (R130, R131, R231). -/
theorem status_ne_idle_of_start (hs : s.start = true) (hstep : stepWith c s = .next t) : t.status ≠ .idle := by
  rw [stepWith_start c s hs] at hstep
  by_cases hb : s.status = .busy
  · rw [exec_command_of_busy _ hb] at hstep
    cases hstep
    simp [hb]
  · rw [exec_command_of_not_busy _ hb] at hstep
    cases hstep
    exact beginCommand_status_ne_idle _ _

/-- The command that a raised `START` begins, or does not disturb, ends. -/
theorem BlockInv.ends_of_start (hc : c.Lawful) (hbuf : c.Buffered) {inp : List Byte} (h : BlockInv c s)
    (hin : InputIs s inp) (hs : s.start = true) (hstep : stepWith c s = .next t) :
    ∃ u, Reaches c t u ∧ u.start = false ∧ (u.status = .done ∨ u.status = .err) :=
  (stepWith_keeps_blockInv hc hbuf h hstep).ends hc hbuf (hin.of_sameHostSide (stepWith_sameHostSide hstep))
    (stepWith_start_down hstep) (status_ne_idle_of_start hs hstep)

end

/-- Settles O57: what is left to do decreases with every step of a running command. -/
theorem everyCommandEnds : Obligations.EveryCommandEnds := by
  intro c hc hbuf inp s h hin
  refine ⟨fun hrun => ?_, fun t ht => ?_⟩
  · cases hs : s.start with
    | true =>
      obtain ⟨t, hstep⟩ := h.stepWith_next hin
      obtain ⟨u, hu, hend⟩ := h.ends_of_start hc hbuf hin hs hstep
      exact ⟨u, .head hstep hu, hend⟩
    | false =>
      rw [hs] at hrun
      exact h.ends hc hbuf hin hs (by rw [hrun.resolve_left nofun]; decide)
  · exact (h.with_start true).ends_of_start hc hbuf (s := { s with start := true }) hin rfl
      (stepWith_of_hostStart ht)

end Sys2Proof.Machine
end

section
/-! PROOFS. The match index after insertions in increasing order (spec R151 to R153, R156): a list of the index holds exactly
the inserted positions with its key, most recent first, and equal keys are equal bytes. -/

namespace Sys2Proof.Machine

variable {c : Config} {inp : List Byte}

/-! ### Keys -/

/-- `p` has a key, and it is `k` (R151). -/
abbrev HasKey (c : Config) (inp : List Byte) (k p : Nat) : Prop :=
  p + c.keyBytes ≤ inp.length ∧ keyAt c inp p = k

theorem beNat_inj {as bs : List Byte} (hl : as.length = bs.length) : beNat as = beNat bs ↔ as = bs := by
  refine ⟨fun h => ?_, congrArg beNat⟩
  rw [← beBytes_beNat hl, h, beBytes_beNat rfl]

theorem keyBytes_length {p : Nat} (hp : p + c.keyBytes ≤ inp.length) :
    ((inp.drop p).take c.keyBytes).length = c.keyBytes := by
  rw [List.length_take, List.length_drop]
  omega

/-- Two positions have the same key exactly when their `K` bytes are equal (R151). -/
theorem keyAt_eq_iff {p q : Nat} (hp : p + c.keyBytes ≤ inp.length) (hq : q + c.keyBytes ≤ inp.length) :
    keyAt c inp p = keyAt c inp q ↔ (inp.drop p).take c.keyBytes = (inp.drop q).take c.keyBytes :=
  beNat_inj ((keyBytes_length hp).trans (keyBytes_length hq).symm)

/-! ### The lists of the index -/

/-- One insertion puts `p` at the head of its key's list, and only there (R152). -/
theorem idxGet_insertPos (idx : MatchIndex) (p k : Nat) :
    idxGet (insertPos c inp idx p) k = [p].filter (HasKey c inp k ·) ++ idxGet idx k := by
  unfold insertPos
  by_cases hp : p + c.keyBytes ≤ inp.length
  · rw [if_pos hp, idxGet_idxPush]
    by_cases hk : k = keyAt c inp p
    · subst hk
      simp [hp]
    · simp [hk, Ne.symm hk]
  · simp [hp]

/-- Insertions in increasing order prepend the inserted positions with the key in decreasing order (R152). -/
theorem idxGet_insertRange (idx : MatchIndex) (p n k : Nat) :
    idxGet (insertRange c inp idx p n) k =
      (List.range' p n).reverse.filter (HasKey c inp k ·) ++ idxGet idx k := by
  induction n generalizing idx p with
  | zero => rfl
  | succ n ih =>
    rw [insertRange, ih, idxGet_insertPos, List.range'_succ, List.reverse_cons, List.filter_append, List.append_assoc]

/-- When every position below `q` has been inserted, a list of the index holds the positions below `q` with its key. -/
theorem idxGet_insertRange_nil (q k : Nat) :
    idxGet (insertRange c inp [] 0 q) k = (List.range q).reverse.filter (HasKey c inp k ·) := by
  rw [idxGet_insertRange, idxGet_nil, List.append_nil, List.range_eq_range']

/-! ### The candidates -/

/-- Below a query position with a key, recorded with its key and in the window means in the window and with its bytes. -/
theorem window_and_hasKey_iff {p q : Nat} (hpq : p < q) (hq : q + c.keyBytes ≤ inp.length) :
    (1 ≤ q - p ∧ q - p ≤ c.window) ∧ HasKey c inp (keyAt c inp q) p ↔
      q - p ≤ c.window ∧ q + c.keyBytes ≤ inp.length ∧
        (inp.drop p).take c.keyBytes = (inp.drop q).take c.keyBytes := by
  have hp : p + c.keyBytes ≤ inp.length := by omega
  have hdist : 1 ≤ q - p := by omega
  simp only [HasKey, keyAt_eq_iff hp hq, hp, hq, hdist, true_and]

/-- Settles O42: the list of the key of `q` holds the earlier positions with that key, and equal keys are equal bytes. -/
theorem candidatesAreExact : Obligations.CandidatesAreExact := by
  intro c inp q
  unfold candidates
  split
  case isTrue hq =>
    rw [idxGet_insertRange_nil, List.filter_filter]
    refine List.filter_congr fun p hp => ?_
    have hpq : p < q := List.mem_range.1 (List.mem_reverse.1 hp)
    rw [← Bool.decide_and, decide_eq_decide]
    exact window_and_hasKey_iff hpq hq
  case isFalse hq =>
    simp [hq]

end Sys2Proof.Machine
end

section
/-! PROOFS. The LZ decoder item by item (spec `42_lz_decoder.md`): what each stream item and each step of the decoder's own writes
and leaves unchanged, the order in which a header is checked, the faults of items that run past `IN_LEN`, and the bytes
that a whole back-reference copies. -/

namespace Sys2Proof.Machine

/-! ### The invariant over every step -/

/-- Settles O3: the invariant is kept by each engine's moves and by a `START`, and the default record is lawful. -/
theorem stepKeepsInvariant : Obligations.StepKeepsInvariant :=
  ⟨fun _ hc hbuf _ _ h hstep => ⟨stepWith_keeps_blockInv hc hbuf h hstep, stepWith_start_down hstep⟩,
    fun _ _ h hstep =>
      ⟨stepWith_keeps_blockInv config_lawful config_buffered h hstep, stepWith_start_down hstep⟩⟩

/-! ### The frame of a decoder step -/

theorem onlyDecoder_update (s : State) (out : Memory) (d : LzDecoder) :
    OnlyDecoder s { s with out := out, dec := d } :=
  ⟨⟨rfl, rfl, rfl, rfl, rfl, rfl, rfl, rfl⟩, ⟨fun _ => rfl, rfl⟩, rfl, rfl⟩

/-! ### Headers, control bytes and literals -/

/-- Settles O13. -/
theorem hdrLoadsLengthAndCursor : Obligations.HdrLoadsLengthAndCursor := fun len24 s =>
  ⟨enterBlocks len24.toNat 4 s, rfl, enterBlocks_dec .., onlyDecoder_update .., fun _ => rfl⟩

/-- Settles O14. -/
theorem hdrxLoadsLengthAndCursor : Obligations.HdrxLoadsLengthAndCursor := fun len32 s =>
  ⟨enterBlocks len32.toNat 8 s, rfl, enterBlocks_dec .., onlyDecoder_update .., fun _ => rfl⟩

/-- Settles O15. -/
theorem ctlLoadsTheControlBits : Obligations.CtlLoadsTheControlBits := fun _ _ =>
  ⟨_, rfl, rfl, onlyDecoder_update .., fun _ => rfl⟩

/-- Settles O16, by what a read finds after the write of the literal. -/
theorem litStoresItsByte : Obligations.LitStoresItsByte := fun _ _ =>
  ⟨_, rfl, memRead_memWrite_same .., fun _ ha => memRead_memWrite_other _ _ (by omega), rfl, onlyDecoder_update ..⟩

/-! ### Back-references -/

/-- The state with the copy of a token of `size` bytes loaded, of which nothing is stored yet (R182, R183). -/
def loadCopy (size len dist : Nat) (s : State) : State :=
  { s with
    dec :=
      { s.dec with
        rp := s.dec.rp + size
        refLen := len
        refDist := dist
        refLeft := min len (s.dec.totalLen - s.dec.wp)
        dstate := .copy } }

/-- A distance within the output so far. -/
theorem takeReference_of_le {dist : Nat} {s : State} (h : dist ≤ s.dec.wp) (size len : Nat) :
    takeReference size len dist s = loadCopy size len dist s :=
  if_neg (Nat.not_lt.2 h)

/-- A distance beyond the output so far (R181). -/
theorem takeReference_of_lt {dist : Nat} {s : State} (h : s.dec.wp < dist) (size len : Nat) :
    takeReference size len dist s =
      raise .refBeforeStart s.dec.tokStart
        { s with dec := { s.dec with rp := s.dec.rp + size, refLen := len, refDist := dist } } :=
  if_pos h

/-- The three tiers are one operation (R99, R180). -/
theorem RefFields.exec_eq {i : Instr} {size len dist : Nat} (h : RefFields i size len dist) (s : State) :
    exec i s = .next (takeReference size len dist s) := by
  cases h with
  | ref2 n disp => exact exec_ref2 n disp s
  | ref3 lenf disp => exact exec_ref3 lenf disp s
  | ref4 lenf disp => exact exec_ref4 lenf disp s

theorem RefFields.dist_pos {i : Instr} {size len dist : Nat} (h : RefFields i size len dist) : 1 ≤ dist := by
  cases h <;> exact Nat.le_add_left ..

theorem RefFields.exec_of_le {i : Instr} {size len dist : Nat} (h : RefFields i size len dist) {s : State}
    (hdist : dist ≤ s.dec.wp) : exec i s = .next (loadCopy size len dist s) := by
  rw [h.exec_eq, takeReference_of_le hdist]

/-- Settles O17. -/
theorem referenceLoadsTheCopy : Obligations.ReferenceLoadsTheCopy := fun _ _ _ _ hi _ hdist =>
  ⟨_, hi.exec_of_le hdist, rfl, onlyDecoder_update .., fun _ => rfl⟩

/-- Settles O18. -/
theorem referenceBeforeStartFaults : Obligations.ReferenceBeforeStartFaults := by
  intro i size len dist hi s hdist htok
  have hexec := hi.exec_eq s
  rw [takeReference_of_lt hdist] at hexec
  exact ⟨_, hexec, faultIs_raise htok _, raise_dec .., rfl, rfl, rfl, ⟨fun _ => rfl, rfl⟩, rfl, rfl⟩

/-! ### The decoder's own steps -/

theorem Runs.stepWith_decoder {c : Config} {s : State} (h : Runs c .lzDecoder s) (hf : fetchStream c s = .internal) :
    stepWith c s = decoderStep c s := by
  rw [stepWith_of_fetch_internal (h.fetch_decoder.trans hf), internalStep, h.engine_eq]

/-- `CMD` 0 is `DECOMPRESS` under the default codes (R120). -/
theorem DecoderAt.runs {s : State} {d : DState} (h : DecoderAt s d) : Runs config .lzDecoder s := by
  obtain ⟨hs, hb, hcmd, -⟩ := h
  exact ⟨hs, hb, by rw [hcmd]; rfl⟩

theorem DecoderAt.dstate_eq {s : State} {d : DState} (h : DecoderAt s d) : s.dec.dstate = d := by
  obtain ⟨-, -, -, hd⟩ := h
  exact hd

theorem DecoderAt.status_eq {s : State} {d : DState} (h : DecoderAt s d) : s.status = .busy := by
  obtain ⟨-, hb, -⟩ := h
  exact hb

theorem shiftCtrl_eq_ofNat (x : BitVec 8) : shiftCtrl x = BitVec.ofNat 8 (2 * x.toNat) := by
  apply BitVec.eq_of_toNat_eq
  rw [shiftCtrl, BitVec.toNat_shiftLeft, BitVec.toNat_ofNat, Nat.shiftLeft_eq, Nat.mul_comm, Nat.pow_one]

/-- The next control bit is the sign bit of `ctrl`. -/
theorem nextCtrlBit_eq_decide (x : BitVec 8) : nextCtrlBit x = decide (128 ≤ x.toNat) := by
  rw [nextCtrlBit, ← BitVec.msb_eq_getLsbD_last, BitVec.msb_eq_decide]

theorem DecoderAt.step_bit {s : State} (h : DecoderAt s .bit) : step s = .next (bitTest s) := by
  have hd := h.dstate_eq
  rw [step, h.runs.stepWith_decoder (by rw [fetchStream, hd]), decoderStep, hd]

/-- Settles O20: bit 7 tells whether the value is below 128, and the shift doubles it. -/
theorem controlBitSelectsTheToken : Obligations.ControlBitSelectsTheToken := by
  intro s h
  refine ⟨bitTest s, h.step_bit, ?_, onlyDecoder_update .., fun _ => rfl⟩
  rw [bitTest_dec, shiftCtrl_eq_ofNat, nextCtrlBit_eq_decide]
  by_cases hlt : s.dec.ctrl.toNat < 128
  · rw [if_pos hlt, if_neg (by simpa using hlt)]
  · rw [if_neg hlt, if_pos (by simpa using hlt)]

/-- Where no control byte is due the loop head is the decoder's own step (R173, R185). -/
theorem DecoderAt.step_loopHead {s : State} (h : DecoderAt s .ctrl)
    (hown : s.dec.wp = s.dec.totalLen ∨ s.dec.nbits ≠ 0) : step s = .next (loopHead config s) := by
  have hd := h.dstate_eq
  have hf : fetchStream config s = .internal := by
    rw [fetchStream, hd]
    exact if_pos hown
  rw [step, h.runs.stepWith_decoder hf, decoderStep, hd]

/-- Settles O21: the loop head compares `wp` with `total_len` before it looks at the control bits. -/
theorem decoderStopsAtTotalLength : Obligations.DecoderStopsAtTotalLength := by
  constructor
  · intro s h hw htotal
    have hstep := h.step_loopHead (.inl hw)
    rw [loopHead, if_pos hw] at hstep
    have hlen : (finishDecompress config s).outLen.toNat = s.dec.totalLen := by
      have hbits : config.outLenBits = 33 := rfl
      rw [finishDecompress_outLen, hbits, BitVec.toNat_ofNat]
      omega
    exact ⟨_, hstep, rfl, hlen, rfl, rfl, rfl, rfl, rfl, rfl, rfl, ⟨fun _ => rfl, rfl⟩, fun _ => rfl, rfl, rfl⟩
  · intro s h hw hbits
    have hstep := h.step_loopHead (.inr hbits)
    rw [loopHead, if_neg hw] at hstep
    exact ⟨_, hstep, rfl, onlyDecoder_update .., fun _ => rfl⟩

/-! ### Items that are cut short or rejected -/

section
variable {m : Memory} {len a first n : Nat} {bs : List Byte} {dec : List Byte → Decoded}

theorem fetchBytes_of_short (h : len < a + n) : fetchBytes m len a n = .error .truncated := if_pos h

theorem fetchWith_of_short (h : len < a + first) : fetchWith dec first m len a = .truncated := by
  rw [fetchWith, fetchBytes_of_short h]

/-- The first bytes are there, and the item that they begin is not (R106, R172). -/
theorem fetchWith_of_need_short (hb : fetchBytes m len a first = .ok bs) (hd : dec bs = .need n)
    (h : len < a + n) : fetchWith dec first m len a = .truncated := by
  simp only [fetchWith, hb, hd, fetchBytes_of_short h]

theorem fetchWith_of_reject {r : Reject} (hb : fetchBytes m len a first = .ok bs) (hd : dec bs = .reject r) :
    fetchWith dec first m len a = .rejected r := by
  simp only [fetchWith, hb, hd]

theorem fetchReference_of_short {c : Config} (h : len < a + 1) : fetchReference c m len a = .truncated := by
  rw [fetchReference, fetchBytes_of_short h]

/-- The first byte of a token is there, and the token that it begins is not (R179). -/
theorem fetchReference_of_size_short {c : Config} (hb : fetchBytes m len a 1 = .ok bs)
    (h : len < a + tokenSize c bs) : fetchReference c m len a = .truncated := by
  simp only [fetchReference, hb, fetchBytes_of_short h]

end

section
variable {s : State} {k : Ctx} {a : Nat}

theorem FetchPoint.fetch_item (hp : FetchPoint s k a) (hk : k ≠ .reference) :
    fetch config s = fetchItem s.inp s.inLen.toNat k a :=
  hp.fetch_eq.trans (if_neg hk)

theorem DecoderAt.fetch_reference (h : DecoderAt s .ref) :
    fetch config s = fetchReference config s.inp s.inLen.toNat s.dec.rp :=
  FetchPoint.fetch_eq (k := .reference) (.inr (.inr (.inr (.inl ⟨h, rfl, rfl⟩))))

/-- The bytes at a fetch point that are one instruction are executed (R106). -/
theorem FetchPoint.step_of_decode (hp : FetchPoint s k a) {bs : List Byte} {i : Instr} (hd : decode k bs = .ok i [])
    (hl : a + bs.length ≤ s.inLen.toNat) (hr : memReadN s.inp a bs.length = some bs) : step s = exec i s := by
  obtain ⟨hwf, hbs⟩ := encode_decode hd
  obtain ⟨rfl, -⟩ := decode_ok_size hd
  rw [List.append_nil] at hbs
  subst hbs
  exact hp.step_eq_exec hwf hl hr

/-! ### The faults of items that are cut short (R263) -/

theorem DecoderAt.faults_header (h : DecoderAt s .hdr) (hf : fetch config s = .truncated) :
    ∃ t, step s = .next t ∧ FaultIs t .truncatedHeader 0 := by
  have hstep := stepWith_of_fetch_truncated hf
  rw [takeTruncated, h.runs.engine_eq, h.dstate_eq] at hstep
  exact ⟨_, hstep, faultIs_raise (by decide) _⟩

theorem BlockInv.tokStart_eq (h : BlockInv config s) (hat : DecoderAt s .ref) : s.dec.tokStart = s.dec.rp := by
  obtain ⟨-, htok⟩ := (h.decInv hat.status_eq hat.runs.engine_eq).token (.inr hat.dstate_eq)
  exact htok

/-- Past the header the fault is at the read cursor, which under the invariant is where the item begins, and is at most
`IN_LEN` (R24), so that the offset has 32 bits. -/
theorem BlockInv.faults_token (h : BlockInv config s) {d : DState} (hat : DecoderAt s d)
    (hd : d = .ctrl ∨ d = .lit ∨ d = .ref) (hf : fetch config s = .truncated) :
    ∃ t, step s = .next t ∧ FaultIs t .truncatedToken s.dec.rp := by
  have hdec := h.decInv hat.status_eq hat.runs.engine_eq
  have hstate := hat.dstate_eq
  have hrp : s.dec.rp < 2 ^ 32 := by
    obtain ⟨-, hle⟩ := hdec.cursor (by rcases hd with rfl | rfl | rfl <;> simp [hstate])
    exact hle.trans_lt s.inLen.isLt
  have hstep := stepWith_of_fetch_truncated hf
  rw [takeTruncated, hat.runs.engine_eq, hstate] at hstep
  rcases hd with rfl | rfl | rfl
  · exact ⟨_, hstep, faultIs_raise hrp _⟩
  · exact ⟨_, hstep, faultIs_raise hrp _⟩
  · rw [h.tokStart_eq hat] at hstep
    exact ⟨_, hstep, faultIs_raise hrp _⟩

end

/-- The nibble that the default coding reads is the one of the model's size table (R101, R179). -/
theorem tokenSize_config (b : Byte) : tokenSize config [b] = tokenSizeOfNibble (b.toNat / 16) := by
  have hlt := b.isLt
  have hnibble : highNibble b = b.toNat / 16 := by
    simp only [highNibble, bitField]
    omega
  rw [tokenSize, ofNat_highNibble, tokCodec_size_highNibble, hnibble]

/-- Settles O23: the fetch finds each item cut short, and under the invariant its first byte has a 32-bit address. -/
theorem missingItemBytesFault : Obligations.MissingItemBytesFault := by
  intro s hinv
  refine ⟨fun h hw hbits hl => ?_, fun h hl => ?_, fun h hl => ?_, fun b0 h hl hr hsize => ?_⟩
  · have hp : FetchPoint s .control s.dec.rp := .inr (.inl ⟨h, hw, hbits, rfl, rfl⟩)
    have hf := (hp.fetch_item nofun).trans (fetchWith_of_short (Nat.lt_succ_of_le hl))
    exact hinv.faults_token h (.inl rfl) hf
  · have hp : FetchPoint s .literal s.dec.rp := .inr (.inr (.inl ⟨h, rfl, rfl⟩))
    have hf := (hp.fetch_item nofun).trans (fetchWith_of_short (Nat.lt_succ_of_le hl))
    exact hinv.faults_token h (.inr (.inl rfl)) hf
  · have hf := h.fetch_reference.trans (fetchReference_of_short (Nat.lt_succ_of_le hl))
    rw [hinv.tokStart_eq h]
    exact hinv.faults_token h (.inr (.inr rfl)) hf
  · have hfirst := fetchBytes_ok.2 ⟨Nat.succ_le_of_lt hl, hr⟩
    have hf := h.fetch_reference.trans (fetchReference_of_size_short hfirst (by rwa [tokenSize_config]))
    rw [hinv.tokStart_eq h]
    exact hinv.faults_token h (.inr (.inr rfl)) hf

/-! ### The header -/

theorem leNat_three (b1 b2 b3 : Byte) : leNat [b1, b2, b3] = b1.toNat + 256 * b2.toNat + 65536 * b3.toNat := by
  simp only [leNat]
  omega

theorem leNat_four (c0 c1 c2 c3 : Byte) :
    leNat [c0, c1, c2, c3] = c0.toNat + 256 * c1.toNat + 65536 * c2.toNat + 16777216 * c3.toNat := by
  simp only [leNat]
  omega

theorem decodeHeader_wrong_tag {tag b0 : Byte} (h : b0 ≠ tag) (b1 b2 b3 : Byte) :
    decodeHeader tag [b0, b1, b2, b3] = .reject .badTag := by
  simp [decodeHeader, h]

/-- A 24-bit length that is not 0 is the length (R91, R171). -/
theorem decodeHeader_of_length {tag b1 b2 b3 : Byte} (h : leNat [b1, b2, b3] ≠ 0) :
    decodeHeader tag [tag, b1, b2, b3] = .ok (.hdr (BitVec.ofNat 24 (leNat [b1, b2, b3]))) [] := by
  simp [decodeHeader, h]

/-- A 24-bit length 0 asks for the extended form (R93, R172). -/
theorem decodeHeader_of_zero {tag b1 b2 b3 : Byte} (h : leNat [b1, b2, b3] = 0) :
    decodeHeader tag [tag, b1, b2, b3] = .need 8 := by
  simp [decodeHeader, h]

section
variable {s : State}

theorem DecoderAt.fetchPoint_header (h : DecoderAt s .hdr) : FetchPoint s .header 0 := .inl ⟨h, rfl, rfl⟩

/-- A header of 4 bytes is read (R171). -/
theorem DecoderAt.step_header (h : DecoderAt s .hdr) {b1 b2 b3 : Byte} (hl : 4 ≤ s.inLen.toNat)
    (hr : memReadN s.inp 0 4 = some [tagByte, b1, b2, b3]) (hlen : leNat [b1, b2, b3] ≠ 0) :
    step s = .next (enterBlocks (leNat [b1, b2, b3]) 4 s) := by
  have hd : decode .header [tagByte, b1, b2, b3] = .ok (.hdr (BitVec.ofNat 24 (leNat [b1, b2, b3]))) [] :=
    decodeHeader_of_length (tag := tagByte) hlen
  rw [h.fetchPoint_header.step_of_decode hd hl hr, exec, execHdr,
    toNat_ofNat_leNat (n := 3) rfl rfl]

/-- A header of 8 bytes is read (R172). -/
theorem DecoderAt.step_headerX (h : DecoderAt s .hdr) {c0 c1 c2 c3 : Byte} (hl : 8 ≤ s.inLen.toNat)
    (hr : memReadN s.inp 0 8 = some [tagByte, 0, 0, 0, c0, c1, c2, c3]) :
    step s = .next (enterBlocks (leNat [c0, c1, c2, c3]) 8 s) := by
  have hd : decode .header [tagByte, 0, 0, 0, c0, c1, c2, c3] =
      .ok (.hdrx (BitVec.ofNat 32 (leNat [c0, c1, c2, c3]))) [] := rfl
  rw [h.fetchPoint_header.step_of_decode hd hl hr, exec, execHdrx, toNat_ofNat_leNat (n := 4) rfl rfl]

theorem DecoderAt.faults_badTag (h : DecoderAt s .hdr) {b0 b1 b2 b3 : Byte} (hl : 4 ≤ s.inLen.toNat)
    (hr : memReadN s.inp 0 4 = some [b0, b1, b2, b3]) (htag : b0 ≠ tagByte) :
    ∃ t, step s = .next t ∧ FaultIs t .badTag 0 := by
  have hf := fetchWith_of_reject (first := 4) (fetchBytes_ok.2 ⟨by omega, hr⟩) (decodeHeader_wrong_tag htag b1 b2 b3)
  exact ⟨_, stepWith_of_fetch_rejected ((h.fetchPoint_header.fetch_item nofun).trans hf),
    faultIs_raise (by decide) _⟩

/-- The extended length is missing (R172). -/
theorem DecoderAt.faults_headerX (h : DecoderAt s .hdr) {b1 b2 b3 : Byte} (hl : 4 ≤ s.inLen.toNat)
    (hr : memReadN s.inp 0 4 = some [tagByte, b1, b2, b3]) (hlen : leNat [b1, b2, b3] = 0)
    (hshort : s.inLen.toNat < 8) : ∃ t, step s = .next t ∧ FaultIs t .truncatedHeader 0 := by
  have hf := fetchWith_of_need_short (first := 4) (fetchBytes_ok.2 ⟨by omega, hr⟩)
    (decodeHeader_of_zero (tag := tagByte) hlen) (show s.inLen.toNat < 0 + 8 by omega)
  exact h.faults_header ((h.fetchPoint_header.fetch_item nofun).trans hf)

end

/-- Settles O22, by the fetch of the first 4 bytes and, where they say so, of all 8. -/
theorem headerIsCheckedInOrder : Obligations.HeaderIsCheckedInOrder := by
  intro s h
  refine ⟨fun hl => ?_, fun b0 b1 b2 b3 hl hr => ?_, fun c0 c1 c2 c3 hl hr => ?_⟩
  · have hf := (h.fetchPoint_header.fetch_item nofun).trans (fetchWith_of_short (by rwa [Nat.zero_add]))
    exact h.faults_header hf
  · rw [← leNat_three]
    refine ⟨h.faults_badTag hl hr, ?_, ?_⟩
    · rintro rfl hlen
      exact ⟨_, h.step_header hl hr hlen, rfl, rfl, rfl, h.status_eq⟩
    · rintro rfl hlen hshort
      exact h.faults_headerX hl hr hlen hshort
  · rw [← leNat_four]
    exact ⟨_, h.step_headerX hl hr, rfl, rfl, rfl, h.status_eq⟩

/-! ### The copy of a back-reference -/

/-- From `w` on, `new` holds `n` bytes that repeat the last `d` bytes of `old` below `w`; elsewhere the two read alike. -/
def RepeatsPeriod (old new : Memory) (w d n : Nat) : Prop :=
  (∀ j, j < n → memRead new (w + j) = memRead old (w - d + j % d)) ∧
    ∀ a, (a < w ∨ w + n ≤ a) → memRead new a = memRead old a

theorem repeatsPeriod_zero (m : Memory) (w d : Nat) : RepeatsPeriod m m w d 0 := ⟨nofun, fun _ _ => rfl⟩

/-- When the byte at distance `d` has been appended, the last `d` bytes are the same ones, from the next on. -/
theorem memRead_period_shift {m : Memory} {w d : Nat} {v : Byte} (hd : 1 ≤ d) (hdist : d ≤ w)
    (hv : memRead m (w - d) = some v) (j : Nat) :
    memRead (memWrite m w v) (w + 1 - d + j % d) = memRead m (w - d + (j + 1) % d) := by
  have hlt : j % d < d := Nat.mod_lt j hd
  rw [← Nat.mod_add_mod]
  by_cases hlast : j % d + 1 = d
  · rw [hlast, Nat.mod_self, show w + 1 - d + j % d = w by omega, memRead_memWrite_same]
    exact hv.symm
  · rw [Nat.mod_eq_of_lt (show j % d + 1 < d by omega), memRead_memWrite_other _ _ (by omega),
      show w + 1 - d + j % d = w - d + (j % d + 1) by omega]

/-- One byte more, copied first. -/
theorem RepeatsPeriod.of_copied {m new : Memory} {w d n : Nat} {v : Byte} (hd : 1 ≤ d) (hdist : d ≤ w)
    (hv : memRead m (w - d) = some v) (h : RepeatsPeriod (memWrite m w v) new (w + 1) d n) :
    RepeatsPeriod m new w d (n + 1) := by
  obtain ⟨hcopied, hframe⟩ := h
  refine ⟨fun j hj => ?_, fun a ha => ?_⟩
  · cases j with
    | zero => rw [hframe _ (by omega), Nat.add_zero, memRead_memWrite_same, Nat.zero_mod, Nat.add_zero, hv]
    | succ j =>
      rw [← memRead_period_shift hd hdist hv, ← hcopied j (by omega)]
      congr 1
      omega
  · rw [hframe a (by omega), memRead_memWrite_other _ _ (by omega)]

/-- The state after the copy has read `v` and written it (R182). -/
def copiedByte (v : Byte) (s : State) : State :=
  { s with
    out := memWrite s.out s.dec.wp v
    dec := { s.dec with wp := s.dec.wp + 1, refLeft := s.dec.refLeft - 1 } }

@[simp] theorem copiedByte_dec (v : Byte) (s : State) :
    (copiedByte v s).dec = { s.dec with wp := s.dec.wp + 1, refLeft := s.dec.refLeft - 1 } := rfl

/-- A memory written below `w`, and then at `w`, is written below `w + 1`. -/
theorem isSome_memWrite_succ {m : Memory} {w : Nat} (h : ∀ a, a < w → (memRead m a).isSome) (v : Byte) (a : Nat)
    (ha : a < w + 1) : (memRead (memWrite m w v) a).isSome := by
  rw [memRead_memWrite]
  split
  · rfl
  · exact h a (by omega)

section
variable {c : Config} {s : State}

theorem Runs.stepWith_copy (h : Runs c .lzDecoder s) (hd : s.dec.dstate = .copy) : stepWith c s = copyStep s := by
  rw [h.stepWith_decoder (by rw [fetchStream, hd]), decoderStep, hd]

/-- The copy takes a step for each byte that is left, and one back to the loop head (R182, R185). -/
theorem Runs.steps_copy (h : Runs c .lzDecoder s) (hstate : s.dec.dstate = .copy) {n : Nat}
    (hleft : s.dec.refLeft = n) (hd : 1 ≤ s.dec.refDist) (hdist : s.dec.refDist ≤ s.dec.wp)
    (hwritten : ∀ a, a < s.dec.wp → (memRead s.out a).isSome) :
    ∃ out, RepeatsPeriod s.out out s.dec.wp s.dec.refDist n ∧
      steps c (n + 1) s =
        .next { s with out := out, dec := { s.dec with wp := s.dec.wp + n, refLeft := 0, dstate := .ctrl } } := by
  induction n generalizing s with
  | zero =>
    have hstep := h.stepWith_copy hstate
    rw [copyStep, if_pos hleft] at hstep
    refine ⟨s.out, repeatsPeriod_zero .., (steps_succ_of_next hstep 0).trans ?_⟩
    simp [steps, hleft]
  | succ n ih =>
    obtain ⟨v, hv⟩ := Option.isSome_iff_exists.1 (hwritten (s.dec.wp - s.dec.refDist) (by omega))
    have hstep := h.stepWith_copy hstate
    rw [copyStep, if_neg (by omega), hv] at hstep
    obtain ⟨out, hout, hsteps⟩ := ih (s := copiedByte v s) h hstate (Nat.sub_eq_of_eq_add hleft) hd
      (hdist.trans (Nat.le_succ _)) (isSome_memWrite_succ hwritten v)
    refine ⟨out, hout.of_copied hd hdist hv, (steps_succ_of_next hstep (n + 1)).trans (hsteps.trans ?_)⟩
    rw [copiedByte_dec, Nat.add_assoc, Nat.add_comm 1 n]
    rfl

end

/-- Settles O19: the token loads the copy, and the copy repeats the period. -/
theorem referenceRepeatsThePeriod : Obligations.ReferenceRepeatsThePeriod := by
  intro i size len dist hi s hs hb hcmd hdist hwritten
  have hat : DecoderAt (loadCopy size len dist s) .copy := ⟨hs, hb, hcmd, rfl⟩
  obtain ⟨out, ⟨hcopied, hframe⟩, hsteps⟩ := hat.runs.steps_copy rfl rfl hi.dist_pos hdist hwritten
  exact ⟨_, _, hi.exec_of_le hdist, hsteps, rfl, hcopied, hframe, onlyDecoder_update ..⟩

end Sys2Proof.Machine
end

section
/-! PROOFS. The match search (spec R156, R157, R204 to R208): the match length is the longest run of equal bytes, the walk of R206
ends with the longest match and the nearest among the longest, and the candidates that the index leaves out have a match
too short for a token, so that the index does not show in the stream. -/

namespace Sys2Proof.Machine

/-! ### The match length -/

theorem le_commonPrefix {l cap : Nat} {xs ys : List Byte} (hcap : l ≤ cap) (hys : l ≤ ys.length)
    (h : ∀ i, i < l → xs[i]? = ys[i]?) : l ≤ commonPrefix cap xs ys := by
  induction l generalizing cap xs ys with
  | zero => exact Nat.zero_le _
  | succ l ih =>
    obtain ⟨cap, rfl⟩ := Nat.exists_eq_add_of_le' (Nat.one_le_of_lt hcap)
    obtain ⟨y, ys, rfl⟩ := List.exists_cons_of_length_pos (Nat.zero_lt_of_lt hys)
    cases xs with
    | nil => simpa using h 0 (Nat.zero_lt_succ l)
    | cons x xs =>
      have hxy : x = y := Option.some.inj (h 0 (Nat.zero_lt_succ l))
      rw [commonPrefix, if_pos hxy]
      exact Nat.succ_le_succ <| ih (Nat.le_of_succ_le_succ hcap) (Nat.le_of_succ_le_succ hys) fun i hi =>
        h (i + 1) (Nat.succ_lt_succ hi)

section
variable {c : Config} {inp : List Byte} {p pos : Nat}

theorem matchLen_le_cap (c : Config) (inp : List Byte) (p pos : Nat) :
    matchLen c inp p pos ≤ min c.maxLen (inp.length - pos) :=
  (commonPrefix_le ..).1

/-- Every run of equal bytes within the cap is within the match. -/
theorem le_matchLen {l : Nat} (hcap : l ≤ min c.maxLen (inp.length - pos))
    (h : ∀ i, i < l → inp[p + i]? = inp[pos + i]?) : l ≤ matchLen c inp p pos := by
  have hleft : l ≤ (inp.drop pos).length := by
    rw [List.length_drop]
    exact hcap.trans (Nat.min_le_right ..)
  refine le_commonPrefix hcap hleft fun i hi => ?_
  rw [List.getElem?_drop, List.getElem?_drop]
  exact h i hi

/-- The first bytes of a match are the bytes at `pos`. -/
theorem take_drop_eq_of_le_matchLen {k : Nat} (h : k ≤ matchLen c inp p pos) :
    (inp.drop p).take k = (inp.drop pos).take k := by
  refine List.ext_getElem? fun i => ?_
  by_cases hi : i < k
  · rw [List.getElem?_take_of_lt hi, List.getElem?_take_of_lt hi, List.getElem?_drop, List.getElem?_drop]
    exact matchLen_agrees (hi.trans_le h)
  · rw [List.getElem?_take_eq_none (Nat.not_lt.1 hi), List.getElem?_take_eq_none (Nat.not_lt.1 hi)]

end

/-- Settles O40: the match length is within its cap, the bytes agree below it, and no other such length exceeds it. -/
theorem matchLengthIsTheLongestRun : Obligations.MatchLengthIsTheLongestRun := fun c inp p pos _ _ =>
  ⟨matchLen_le_cap c inp p pos, fun _ => matchLen_agrees, fun _ => le_matchLen⟩

/-! ### The walk over the candidates -/

section
variable {c : Config} {inp : List Byte} {pos dist0 : Nat}

/-- The last candidate is compared with the best match of those before it (R206). -/
theorem searchMatch_concat (cands : List Nat) (p : Nat) :
    searchMatch c inp pos dist0 (cands ++ [p]) = betterMatch c inp pos (searchMatch c inp pos dist0 cands) p := by
  rw [searchMatch, List.foldl_concat]
  rfl

theorem betterMatch_of_lt {best : Nat × Nat} {p : Nat} (h : best.1 < matchLen c inp p pos) :
    betterMatch c inp pos best p = (matchLen c inp p pos, pos - p) :=
  if_pos h

theorem betterMatch_of_le {best : Nat × Nat} {p : Nat} (h : matchLen c inp p pos ≤ best.1) :
    betterMatch c inp pos best p = best :=
  if_neg (Nat.not_lt.2 h)

/-- `best` is the longest match over the candidates and, unless its length is 0, the nearest among the longest (R205, R206). -/
structure LongestNearest (c : Config) (inp : List Byte) (pos : Nat) (cands : List Nat) (best : Nat × Nat) : Prop where
  longest : ∀ p ∈ cands, matchLen c inp p pos ≤ best.1
  nearest : 0 < best.1 → ∃ p ∈ cands, matchLen c inp p pos = best.1 ∧ best.2 = pos - p ∧
    ∀ q ∈ cands, matchLen c inp q pos = best.1 → pos - p ≤ pos - q

/-- A candidate farther away than all before it is taken only if it is strictly longer (R206). -/
theorem LongestNearest.better {cands : List Nat} {best : Nat × Nat} {p : Nat}
    (h : LongestNearest c inp pos cands best) (hfar : ∀ q ∈ cands, p < q) :
    LongestNearest c inp pos (cands ++ [p]) (betterMatch c inp pos best p) := by
  by_cases hlt : best.1 < matchLen c inp p pos
  · rw [betterMatch_of_lt hlt]
    have hshorter : ∀ q ∈ cands, matchLen c inp q pos < matchLen c inp p pos := fun q hq =>
      (h.longest q hq).trans_lt hlt
    constructor
    · rw [List.forall_mem_append, List.forall_mem_singleton]
      exact ⟨fun q hq => (hshorter q hq).le, Nat.le_refl _⟩
    · refine fun _ => ⟨p, List.mem_concat_self, rfl, rfl, ?_⟩
      rw [List.forall_mem_append, List.forall_mem_singleton]
      exact ⟨fun q hq heq => absurd heq (hshorter q hq).ne, fun _ => Nat.le_refl _⟩
  · have hle := Nat.not_lt.1 hlt
    rw [betterMatch_of_le hle]
    constructor
    · rw [List.forall_mem_append, List.forall_mem_singleton]
      exact ⟨h.longest, hle⟩
    · intro hpos
      obtain ⟨r, hr, hlen, hdist, hnear⟩ := h.nearest hpos
      refine ⟨r, List.mem_append_left _ hr, hlen, hdist, ?_⟩
      rw [List.forall_mem_append, List.forall_mem_singleton]
      exact ⟨hnear, fun _ => Nat.sub_le_sub_left (hfar r hr).le pos⟩

theorem searchMatch_longestNearest {cands : List Nat} (h : cands.Pairwise fun p q => q < p) :
    LongestNearest c inp pos cands (searchMatch c inp pos dist0 cands) := by
  induction cands using List.reverseRecOn with
  | nil => exact ⟨nofun, fun hlt => absurd hlt (Nat.lt_irrefl 0)⟩
  | append_singleton cands p ih =>
    obtain ⟨hcands, -, hfar⟩ := List.pairwise_append.1 h
    rw [searchMatch_concat]
    exact (ih hcands).better fun q hq => hfar q hq p (List.mem_singleton_self p)

end

/-- Settles O41, by what the walk has found after each candidate. -/
theorem searchTakesLongestThenNearest : Obligations.SearchTakesLongestThenNearest := by
  intro c inp pos dist0 cands hrecent _
  have hbest := searchMatch_longestNearest (c := c) (inp := inp) (pos := pos) (dist0 := dist0) hrecent
  refine ⟨hbest.longest, ?_, hbest.nearest⟩
  rintro rfl
  rfl

/-! ### The index and the exhaustive search -/

/-- Two best matches that the token choice does not tell apart: they are equal, or both are too short for a back-reference
(R207). -/
def SameChoice (b b' : Nat × Nat) : Prop := b = b' ∨ (b.1 < minLen ∧ b'.1 < minLen)

section
variable {c : Config} {inp : List Byte} {pos : Nat} {b b' : Nat × Nat}

theorem SameChoice.tokenBytes_eq (h : SameChoice b b') (c : Config) (inp : List Byte) (pos : Nat) :
    tokenBytes c inp pos b = tokenBytes c inp pos b' := by
  obtain rfl | ⟨hb, hb'⟩ := h
  · rfl
  · rw [tokenBytes, tokenBytes, if_neg (Nat.not_le.2 hb), if_neg (Nat.not_le.2 hb')]

theorem SameChoice.tokenAdvance_eq (h : SameChoice b b') : tokenAdvance b = tokenAdvance b' := by
  obtain rfl | ⟨hb, hb'⟩ := h
  · rfl
  · rw [tokenAdvance, tokenAdvance, if_neg (Nat.not_le.2 hb), if_neg (Nat.not_le.2 hb')]

/-- A candidate with too short a match leaves a best match that is too short so. -/
theorem betterMatch_lt_minLen {p : Nat} (hb : b.1 < minLen) (hp : matchLen c inp p pos < minLen) :
    (betterMatch c inp pos b p).1 < minLen := by
  unfold betterMatch
  split
  · exact hp
  · exact hb

/-- A candidate that both walks compare. -/
theorem SameChoice.better (h : SameChoice b b') (p : Nat) :
    SameChoice (betterMatch c inp pos b p) (betterMatch c inp pos b' p) := by
  obtain rfl | ⟨hb, hb'⟩ := h
  · exact .inl rfl
  · by_cases hp : minLen ≤ matchLen c inp p pos
    · rw [betterMatch_of_lt (hb.trans_le hp), betterMatch_of_lt (hb'.trans_le hp)]
      exact .inl rfl
    · have hp := Nat.not_le.1 hp
      exact .inr ⟨betterMatch_lt_minLen hb hp, betterMatch_lt_minLen hb' hp⟩

/-- A candidate with too short a match, which only one of the walks compares. -/
theorem SameChoice.skip {p : Nat} (h : SameChoice b b') (hp : matchLen c inp p pos < minLen) :
    SameChoice b (betterMatch c inp pos b' p) := by
  by_cases hlong : minLen ≤ b'.1
  · rw [betterMatch_of_le (hp.le.trans hlong)]
    exact h
  · have hb' := Nat.not_le.1 hlong
    have hb : b.1 < minLen := by
      obtain rfl | ⟨hb, -⟩ := h
      · exact hb'
      · exact hb
    exact .inr ⟨hb, betterMatch_lt_minLen hb' hp⟩

/-- Leaving out candidates whose match is too short for a token does not change the choice. -/
theorem searchMatch_filter_sameChoice {keep : Nat → Bool} {cands : List Nat} (dist0 : Nat)
    (h : ∀ p ∈ cands, keep p = false → matchLen c inp p pos < minLen) :
    SameChoice (searchMatch c inp pos dist0 (cands.filter keep)) (searchMatch c inp pos dist0 cands) := by
  induction cands using List.reverseRecOn with
  | nil => exact .inl rfl
  | append_singleton cands p ih =>
    obtain ⟨hcands, hp⟩ := List.forall_mem_append.1 h
    rw [List.filter_append, searchMatch_concat]
    cases hkeep : keep p with
    | true =>
      rw [List.filter_singleton, hkeep, cond_true, searchMatch_concat]
      exact (ih hcands).better p
    | false =>
      rw [List.filter_singleton, hkeep, cond_false, List.append_nil]
      exact (ih hcands).skip (hp p (List.mem_singleton_self p) hkeep)

/-- R208 walks the positions at the distances 1, …, `n`, most recent first. -/
theorem exhaustiveMatch_eq_searchMatch {n : Nat} (hn : n ≤ pos) :
    exhaustiveMatch c inp pos n = searchMatch c inp pos 0 (List.range' (pos - n) n).reverse := by
  induction n with
  | zero => rfl
  | succ n ih =>
    rw [exhaustiveMatch, ih (Nat.le_of_succ_le hn), List.range'_succ, List.reverse_cons, searchMatch_concat,
      show pos - (n + 1) + 1 = pos - n by omega]

/-- A match long enough for a token starts with the key of `pos`, which has at most 3 bytes (R151, R157). -/
theorem key_eq_of_minLen_le_matchLen {p : Nat} (hk : c.keyBytes ≤ 3) (h : minLen ≤ matchLen c inp p pos) :
    pos + c.keyBytes ≤ inp.length ∧ (inp.drop p).take c.keyBytes = (inp.drop pos).take c.keyBytes := by
  have hkey : c.keyBytes ≤ matchLen c inp p pos := hk.trans h
  have hcap := (matchLen_le_cap c inp p pos).trans (Nat.min_le_right ..)
  have hpos : 3 ≤ inp.length - pos := le_trans h hcap
  exact ⟨by omega, take_drop_eq_of_le_matchLen hkey⟩

/-- The earlier positions within the window are the `min pos w` nearest ones. -/
theorem filter_window_range (pos w : Nat) :
    (List.range pos).filter (fun p => decide (pos - p ≤ w)) = List.range' (pos - min pos w) (min pos w) := by
  obtain ⟨m, hm⟩ : ∃ m, min pos w = m := ⟨_, rfl⟩
  have hsplit : List.range pos = List.range' 0 (pos - m) ++ List.range' (pos - m) m := by
    have happend := List.range'_append_1 (s := 0) (m := pos - m) (n := m)
    rw [Nat.zero_add, Nat.sub_add_cancel (by omega)] at happend
    rw [List.range_eq_range', happend]
  have hfar : (List.range' 0 (pos - m)).filter (fun p => decide (pos - p ≤ w)) = [] := by
    refine List.filter_eq_nil_iff.2 fun p hp => ?_
    have hbounds := List.mem_range'_1.1 hp
    rw [decide_eq_true_eq]
    omega
  have hnear : (List.range' (pos - m) m).filter (fun p => decide (pos - p ≤ w)) = List.range' (pos - m) m := by
    refine List.filter_eq_self.2 fun p hp => ?_
    have hbounds := List.mem_range'_1.1 hp
    rw [decide_eq_true_eq]
    omega
  rw [hm, hsplit, List.filter_append, hfar, hnear, List.nil_append]

/-- The candidates are those of the exhaustive walk that have the key of `pos` (R156, R208). -/
theorem candidates_eq_filter_window (c : Config) (inp : List Byte) (pos : Nat) :
    candidates c inp (insertRange c inp [] 0 pos) pos =
      (List.range' (pos - min pos c.window) (min pos c.window)).reverse.filter (fun p =>
        decide (pos + c.keyBytes ≤ inp.length ∧
          (inp.drop p).take c.keyBytes = (inp.drop pos).take c.keyBytes)) := by
  rw [candidatesAreExact, ← filter_window_range, ← List.filter_reverse, List.filter_filter]
  refine List.filter_congr fun p _ => ?_
  rw [Bool.decide_and, Bool.and_comm]

end

/-- Settles O43: the candidates that the index leaves out of the exhaustive walk have too short a match for a token. -/
theorem indexChoosesAsExhaustiveSearch : Obligations.IndexChoosesAsExhaustiveSearch := by
  intro c inp pos hk _
  have hsame : SameChoice (searchMatch c inp pos 0 (candidates c inp (insertRange c inp [] 0 pos) pos))
      (exhaustiveMatch c inp pos (min pos c.window)) := by
    rw [candidates_eq_filter_window, exhaustiveMatch_eq_searchMatch (Nat.min_le_left ..)]
    refine searchMatch_filter_sameChoice 0 fun p _ hkey => Nat.not_le.1 fun hlong => ?_
    exact of_decide_eq_false hkey (key_eq_of_minLen_le_matchLen hk hlong)
  exact ⟨hsame.tokenBytes_eq c inp pos, hsame.tokenAdvance_eq⟩

end Sys2Proof.Machine
end

section
/-! PROOFS. The LZ encoder step by step (spec R201 to R215): the four rows of its step, and what the header, a flushed group, a
token and the end of the input write and leave unchanged. -/

namespace Sys2Proof.Machine

/-! ### The rows of the encoder's step -/

/-- Everything that an encoder step may change is given its new value. -/
theorem onlyEncoder_update (s : State) (out : Memory) (idx : MatchIndex) (e : LzEncoder) :
    OnlyEncoder s { s with out := out, idx := idx, enc := e } :=
  ⟨⟨rfl, rfl, rfl, rfl, rfl, rfl, rfl, rfl⟩, fun _ => rfl, rfl, rfl⟩

section
variable {s : State}

/-- `CMD` 1 is `COMPRESS` under the default codes (R120). -/
theorem EncoderRuns.runs (h : EncoderRuns s) : Runs config .lzEncoder s := by
  obtain ⟨hs, hb, hcmd⟩ := h
  exact ⟨hs, hb, by rw [hcmd]; rfl⟩

theorem EncoderRuns.step_eq (h : EncoderRuns s) : step s = encoderStep config s := h.runs.stepWith_encoder

/-- The header is due (R201). -/
theorem EncoderRuns.step_header (h : EncoderRuns s) (hw : s.enc.wp = 0) : step s = .next (emitHeader config s) := by
  rw [h.step_eq, encoderStep, if_pos hw]

/-- A flush is due (R213, R214). -/
theorem EncoderRuns.step_flush (h : EncoderRuns s) (hw : s.enc.wp ≠ 0)
    (hg : s.enc.grpCnt = groupSize ∨ (s.enc.pos = s.enc.n ∧ 0 < s.enc.grpCnt)) : step s = .next (flushGroup s) := by
  rw [h.step_eq, encoderStep, if_neg hw, if_pos hg]

/-- A token is due (R202). -/
theorem EncoderRuns.step_token (h : EncoderRuns s) (hw : s.enc.wp ≠ 0) (hcnt : s.enc.grpCnt < groupSize)
    (hpos : s.enc.pos < s.enc.n) {inp : List Byte} (hr : memReadN s.inp 0 s.enc.n = some inp) :
    step s = .next (emitToken config inp (bestAt config inp s) s) := by
  rw [h.step_eq, encoderStep, if_neg hw, if_neg (by omega), if_pos hpos, scanStep, hr]

/-- Nothing is left to do (R215). -/
theorem EncoderRuns.step_complete (h : EncoderRuns s) (hw : s.enc.wp ≠ 0) (hcnt : s.enc.grpCnt = 0)
    (hpos : s.enc.pos = s.enc.n) : step s = .next (complete config s.enc.wp s) := by
  have hopen : ¬(s.enc.grpCnt = groupSize ∨ (s.enc.pos = s.enc.n ∧ 0 < s.enc.grpCnt)) := by
    simp [hcnt, groupSize]
  rw [h.step_eq, encoderStep, if_neg hw, if_neg hopen, if_neg (by omega)]

end

/-! ### Bytes just written -/

theorem memRead_memWriteN_inside (m : Memory) (a : Nat) (bs : List Byte) {j : Nat} (hj : j < bs.length) :
    memRead (memWriteN m a bs) (a + j) = bs[j]? := by
  rw [memRead_memWriteN, if_pos (by omega), Nat.add_sub_cancel_left]

theorem memRead_memWriteN_outside (m : Memory) (a : Nat) (bs : List Byte) {b : Nat}
    (hb : b < a ∨ a + bs.length ≤ b) : memRead (memWriteN m a bs) b = memRead m b := by
  rw [memRead_memWriteN, if_neg (by omega)]

/-! ### The header -/

theorem leBytes_three (n : Nat) :
    leBytes 3 n = [BitVec.ofNat 8 n, BitVec.ofNat 8 (n / 256), BitVec.ofNat 8 (n / 65536)] := by
  simp only [leBytes, Nat.div_div_eq_div_mul]

theorem leBytes_four (n : Nat) :
    leBytes 4 n = [BitVec.ofNat 8 n, BitVec.ofNat 8 (n / 256), BitVec.ofNat 8 (n / 65536),
      BitVec.ofNat 8 (n / 16777216)] := by
  simp only [leBytes, Nat.div_div_eq_div_mul]

theorem headerBytes_short (c : Config) {n : Nat} (hpos : 1 ≤ n) (hmax : n ≤ len24Max) :
    headerBytes c n = c.tag :: leBytes 3 n :=
  if_pos ⟨hpos, hmax⟩

theorem headerBytes_extended (c : Config) {n : Nat} (h : n = 0 ∨ len24Max < n) :
    headerBytes c n = c.tag :: 0 :: 0 :: 0 :: leBytes 4 n :=
  if_neg (by omega)

/-- Settles O44, by the two forms of the header and a read of the bytes just written. -/
theorem encoderWritesTheHeaderFirst : Obligations.EncoderWritesTheHeaderFirst := by
  intro s h hw
  refine ⟨emitHeader config s, headerBytes config s.enc.n, h.step_header hw, fun hpos hmax => ?_, fun hlong => ?_,
    fun j hj => ?_, fun a ha => ?_, rfl, rfl, onlyEncoder_update ..⟩
  · rw [headerBytes_short config hpos hmax, leBytes_three]
    rfl
  · rw [headerBytes_extended config hlong, leBytes_four]
    rfl
  · have hread := memRead_memWriteN_inside s.out 0 _ hj
    rwa [Nat.zero_add] at hread
  · exact memRead_memWriteN_outside s.out 0 _ ha

/-! ### The flush -/

theorem groupBytes_length {e : LzEncoder} (h : e.grpLen ≤ 32) : (groupBytes e).length = e.grpLen := by
  rw [groupBytes, List.length_take, Vector.length_toList, Nat.min_eq_left h]

theorem groupBytes_getElem? {e : LzEncoder} {j : Nat} (hj : j < e.grpLen) : (groupBytes e)[j]? = e.grpBuf[j]? := by
  rw [groupBytes, List.getElem?_take_of_lt hj, Vector.getElem?_toList]

/-- Settles O45: the control byte and the group's bytes are written in a row. -/
theorem encoderFlushesTheGroup : Obligations.EncoderFlushesTheGroup := by
  intro s h hw hlen hg
  have hbytes : (s.enc.grpCtrl :: groupBytes s.enc).length = 1 + s.enc.grpLen := by
    rw [List.length_cons, groupBytes_length hlen, Nat.add_comm]
  have hread {j : Nat} (hj : j < 1 + s.enc.grpLen) :
      memRead (flushGroup s).out (s.enc.wp + j) = (s.enc.grpCtrl :: groupBytes s.enc)[j]? :=
    memRead_memWriteN_inside s.out s.enc.wp _ (hbytes ▸ hj)
  refine ⟨flushGroup s, h.step_flush hw hg, hread (j := 0) (by omega), fun j hj => ?_, fun a ha => ?_, rfl, rfl,
    onlyEncoder_update ..⟩
  · rw [Nat.add_assoc, hread (by omega), Nat.add_comm 1 j, List.getElem?_cons_succ, groupBytes_getElem? hj]
  · rw [← hbytes] at ha
    exact memRead_memWriteN_outside s.out s.enc.wp _ ha

/-! ### The token -/

/-- The token of a match of at least 3 bytes (R207, R209). -/
theorem tokenBytes_of_match (c : Config) (inp : List Byte) (pos : Nat) {best : Nat × Nat} (h : 3 ≤ best.1) :
    tokenBytes c inp pos best = c.tok.encode best.1 best.2 :=
  if_pos h

/-- The literal where there is no such match (R207, R209). -/
theorem tokenBytes_of_short (c : Config) {inp : List Byte} {pos : Nat} (hpos : pos < inp.length) {best : Nat × Nat}
    (h : best.1 < 3) : tokenBytes c inp pos best = [inp[pos]] := by
  rw [tokenBytes, if_neg (show ¬minLen ≤ best.1 from Nat.not_le.2 h), List.drop_eq_getElem_cons hpos,
    List.take_succ_cons, List.take_zero]

theorem tokenAdvance_of_match {best : Nat × Nat} (h : 3 ≤ best.1) : tokenAdvance best = best.1 := if_pos h

theorem tokenAdvance_of_short {best : Nat × Nat} (h : best.1 < 3) : tokenAdvance best = 1 :=
  if_neg (Nat.not_le.2 h)

/-- `0x80 >> cnt` is bit `7 − cnt` (R211). -/
theorem markToken_true {cnt : Nat} (h : cnt < 8) (ctrl : BitVec 8) :
    markToken true cnt ctrl = ctrl ||| BitVec.ofNat 8 (2 ^ (7 - cnt)) := by
  have hbit : ∀ k : Fin 8, (0x80 : BitVec 8) >>> k.val = BitVec.ofNat 8 (2 ^ (7 - k.val)) := by decide
  exact congrArg (ctrl ||| ·) (hbit ⟨cnt, h⟩)

/-- The best match of the search has a token of at most 4 bytes (R27). -/
theorem tokenBytes_bestAt_length_le {c : Config} (hc : c.Lawful) (hb : c.Buffered) (inp : List Byte) (s : State) :
    (tokenBytes c inp s.enc.pos (bestAt c inp s)).length ≤ 4 := by
  obtain ⟨hlen, hdist⟩ :=
    searchMatch_bounds c inp s.enc.pos s.enc.bestDist (cands := candidates c inp s.idx s.enc.pos)
      fun p => candidates_window
  exact tokenBytes_length_le hc hb inp s.enc.pos (hlen.trans (Nat.min_le_left ..)) hdist

section
variable (inp : List Byte) {s : State} {best : Nat × Nat}

theorem emitToken_pos (c : Config) : (emitToken c inp best s).enc.pos = s.enc.pos + tokenAdvance best := rfl

theorem emitToken_grpCtrl (c : Config) :
    (emitToken c inp best s).enc.grpCtrl = markToken (decide (minLen ≤ best.1)) s.enc.grpCnt s.enc.grpCtrl := rfl

/-- What a match of at least 3 bytes does: its token, its control bit, and every position that it covers (R209 to R212). -/
theorem emitToken_of_match (h : 3 ≤ best.1) (hcnt : s.enc.grpCnt < 8) :
    tokenBytes config inp s.enc.pos best = tokenEncode best.1 best.2 ∧
      (emitToken config inp best s).enc.pos = s.enc.pos + best.1 ∧
      (emitToken config inp best s).enc.grpCtrl = s.enc.grpCtrl ||| BitVec.ofNat 8 (2 ^ (7 - s.enc.grpCnt)) ∧
      (emitToken config inp best s).idx = insertRange config inp s.idx s.enc.pos best.1 := by
  have hmin : decide (minLen ≤ best.1) = true := decide_eq_true h
  refine ⟨tokenBytes_of_match config inp s.enc.pos h, ?_, ?_, ?_⟩
  · rw [emitToken_pos, tokenAdvance_of_match h]
  · rw [emitToken_grpCtrl, hmin, markToken_true hcnt]
  · rw [emitToken_idx, tokenAdvance_of_match h]

/-- What a shorter match does: the literal, no control bit, and one position (R209 to R212). -/
theorem emitToken_of_short (h : best.1 < 3) (hpos : s.enc.pos < inp.length) :
    some (tokenBytes config inp s.enc.pos best) = (inp[s.enc.pos]?).map (fun b => [b]) ∧
      (emitToken config inp best s).enc.pos = s.enc.pos + 1 ∧
      (emitToken config inp best s).enc.grpCtrl = s.enc.grpCtrl ∧
      (emitToken config inp best s).idx = insertPos config inp s.idx s.enc.pos := by
  have hmin : decide (minLen ≤ best.1) = false := decide_eq_false (Nat.not_le.2 h)
  refine ⟨?_, ?_, ?_, ?_⟩
  · rw [tokenBytes_of_short config hpos h, List.getElem?_eq_getElem hpos, Option.map_some]
  · rw [emitToken_pos, tokenAdvance_of_short h]
  · rw [emitToken_grpCtrl, hmin]
    rfl
  · rw [emitToken_idx, tokenAdvance_of_short h]
    rfl

end

/-- Settles O46: the token of the best match has at most 4 bytes, so it fits the group buffer. -/
theorem encoderEmitsOneToken : Obligations.EncoderEmitsOneToken := by
  intro s inp h hw hcnt hpos hroom hr
  have hin : s.enc.pos < inp.length := by rwa [memReadN_length hr]
  have htok := tokenBytes_bestAt_length_le config_lawful config_buffered inp s
  have hget := writeGroup_get s.enc.grpBuf s.enc.grpLen (tokenBytes config inp s.enc.pos (bestAt config inp s))
    (by omega)
  refine ⟨_, bestAt config inp s, tokenBytes config inp s.enc.pos (bestAt config inp s), h.step_token hw hcnt hpos hr,
    rfl, rfl, rfl, fun hlong => emitToken_of_match inp hlong hcnt, fun hshort => emitToken_of_short inp hshort hin,
    rfl, rfl, fun j hj => ?_, fun j hj => ?_, rfl, rfl, onlyEncoder_update .., fun _ => rfl⟩
  · exact (hget j).trans (if_neg (by omega))
  · have hnew := hget (s.enc.grpLen + j)
    rwa [if_pos (by omega), Nat.add_sub_cancel_left] at hnew

/-! ### Completion -/

/-- Settles O47: `wp` fits the 33 bits of `OUT_LEN`. -/
theorem encoderCompletes : Obligations.EncoderCompletes := by
  intro s h hw hmax hpos hcnt
  have hlen : (complete config s.enc.wp s).outLen.toNat = s.enc.wp := by
    have hbits : config.outLenBits = 33 := rfl
    rw [complete_outLen, hbits, BitVec.toNat_ofNat, Nat.mod_eq_of_lt (Nat.mod_lt _ (by decide)), Nat.mod_eq_of_lt hmax]
  exact ⟨_, h.step_complete hw hcnt hpos, rfl, hlen, fun _ => rfl, ⟨fun _ => rfl, rfl⟩, rfl, rfl, rfl, rfl, rfl, rfl,
    rfl, rfl, rfl⟩

end Sys2Proof.Machine
end

section
/-! PROOFS. The pixel decoder step by step (spec `44_pixel_decoder.md`): the premultiplier and the alpha stage, what a sample of
each format unpacks to, the address translator, the fault of a bad length, completion, and the raster as the de-tiled
image. -/

namespace Sys2Proof.Machine

/-! ### The premultiplier -/

/-- The product of two bytes is small enough for the premultiplier to keep every bit of its quotient (R239). -/
theorem mul_toNat_le (c a : Byte) : c.toNat * a.toNat ≤ 255 * 255 :=
  Nat.mul_le_mul (Nat.le_of_lt_succ c.isLt) (Nat.le_of_lt_succ a.isLt)

theorem premultiply_toNat (c a : Byte) : (premultiply c a).toNat = (c.toNat * a.toNat + 127) / 255 := by
  have hmul := mul_toNat_le c a
  rw [premultiply, BitVec.toNat_ofNat]
  omega

theorem premultiply_comm (c a : Byte) : premultiply c a = premultiply a c := by
  rw [premultiply, premultiply, Nat.mul_comm]

theorem premultiply_zero (c : Byte) : premultiply c 0 = 0 := by
  rw [premultiply, show (0 : Byte).toNat = 0 from rfl, Nat.mul_zero]
  rfl

theorem premultiply_le (c a : Byte) : (premultiply c a).toNat ≤ c.toNat := by
  have hmul : c.toNat * a.toNat ≤ c.toNat * 255 := Nat.mul_le_mul_left _ (Nat.le_of_lt_succ a.isLt)
  rw [premultiply_toNat]
  omega

/-- Settles O28: both forms are the same quotient, and the bounds and corners on one side give those on the other. -/
theorem premultiplyRoundsHalfUp : Obligations.PremultiplyRoundsHalfUp := by
  intro c a
  refine ⟨?_, premultiply_toNat c a, le_min (premultiply_le c a) ?_, premultiply_opaque c, premultiply_zero c, ?_, ?_⟩
  · rw [premultiply_toNat, Nat.mul_assoc]
    omega
  · rw [premultiply_comm]
    exact premultiply_le a c
  · rw [premultiply_comm, premultiply_zero]
  · rw [premultiply_comm, premultiply_opaque]

/-! ### The alpha stage -/

theorem alphaStage_forced (p : Rgba) : alphaStage false p = { p with a := 255 } := rfl

/-- Alpha 0, honoured, is transparent black (R240). -/
theorem alphaStage_transparent {p : Rgba} (h : p.a = 0) : alphaStage true p = ⟨0, 0, 0, 0⟩ := by
  show honoured p = _
  rw [honoured, if_pos h, h]

theorem alphaStage_honoured {p : Rgba} (h : p.a ≠ 0) :
    alphaStage true p = ⟨premultiply p.r p.a, premultiply p.g p.a, premultiply p.b p.a, p.a⟩ :=
  if_neg h

/-- At alpha 255 both alpha modes pass the colours (R236 to R239). -/
theorem alphaStage_opaque (honorAlpha : Bool) {p : Rgba} (h : p.a = 255) : alphaStage honorAlpha p = p := by
  obtain ⟨r, g, b, a⟩ := p
  obtain rfl : a = 255 := h
  cases honorAlpha with
  | false => rfl
  | true =>
    rw [alphaStage_honoured (show (255 : Byte) ≠ 0 by decide)]
    simp only [premultiply_opaque]

/-! ### The channels of a sample -/

theorem expand4_toNat (x : BitVec 4) : (expand4 x).toNat = x.toNat * 17 := by
  have hx := x.isLt
  rw [expand4, BitVec.toNat_ofNat]
  omega

theorem expand3_toNat : ∀ x : BitVec 3, (expand3 x).toNat = (x.toNat <<< 5 ||| x.toNat <<< 2 ||| x.toNat >>> 1) := by
  decide

theorem expand3_eq_zero_iff : ∀ x : BitVec 3, expand3 x = 0 ↔ x = 0 := by decide

theorem expand5_toNat : ∀ x : BitVec 5, (expand5 x).toNat = (x.toNat <<< 3 ||| x.toNat >>> 2) := by decide

/-- The word of a sample's two big-endian bytes (R64, R109). -/
theorem ofNat_beNat_beBytes_two (v : Nat) : BitVec.ofNat 16 (beNat (beBytes 2 v)) = BitVec.ofNat 16 v := by
  refine BitVec.eq_of_toNat_eq ?_
  rw [beNat_beBytes, BitVec.toNat_ofNat, BitVec.toNat_ofNat, show 256 ^ 2 = 2 ^ 16 from rfl, Nat.mod_mod]

/-- A latched sample changes the pixel decoder's registers only. -/
theorem onlyPixels_latchPixel (d : BitVec 16) (p : Rgba) (s : State) : OnlyPixels s (latchPixel d p s) :=
  ⟨⟨rfl, rfl, rfl, rfl, rfl, rfl, rfl, rfl⟩, ⟨fun _ => rfl, rfl⟩, rfl, rfl⟩

/-- Settles O24, by the three cases of the alpha stage. -/
theorem pixA3rgb4UnpacksItsSample : Obligations.PixA3rgb4UnpacksItsSample := by
  intro a3 r4 g4 b4 s
  have hword : sampleWord (.pixA3rgb4 a3 r4 g4 b4) =
      BitVec.ofNat 16 (a3.toNat * 4096 + r4.toNat * 256 + g4.toNat * 16 + b4.toNat) := ofNat_beNat_beBytes_two _
  refine ⟨_, pack (alphaStage s.pix.honorAlpha (unpackA3rgb4 a3 r4 g4 b4)), rfl, ?_, expand4_toNat r4,
    expand4_toNat g4, expand4_toNat b4, expand3_toNat a3, fun hforced => ?_, fun hhonour hzero => ?_,
    fun hhonour hne => ?_, onlyPixels_latchPixel .., fun _ => rfl⟩
  · rw [latchPixel_pix, hword]
  · rw [hforced, alphaStage_forced]
    rfl
  · rw [hhonour, alphaStage_transparent ((expand3_eq_zero_iff a3).2 hzero)]
    rfl
  · rw [hhonour, alphaStage_honoured (mt (expand3_eq_zero_iff a3).1 hne)]
    exact ⟨premultiply_toNat .., premultiply_toNat .., premultiply_toNat .., rfl⟩

/-- Settles O25: the alpha stage is the identity at alpha 255. -/
theorem pixRgb5UnpacksItsSample : Obligations.PixRgb5UnpacksItsSample := by
  intro r5 g5 b5 s
  have hword : sampleWord (.pixRgb5 r5 g5 b5) =
      BitVec.ofNat 16 (32768 + r5.toNat * 1024 + g5.toNat * 32 + b5.toNat) := ofNat_beNat_beBytes_two _
  refine ⟨_, rfl, ?_, expand5_toNat r5, expand5_toNat g5, expand5_toNat b5, onlyPixels_latchPixel .., fun _ => rfl⟩
  rw [latchPixel_pix, hword, alphaStage_opaque s.pix.honorAlpha (p := unpackRgb5 r5 g5 b5) rfl]
  rfl

/-! ### Alpha of a sample word -/

/-- Bit 15 clear selects the format with alpha in bits [14:12] (R109, R110, R235). -/
theorem unpackSample_alpha_of_bit15_clear {d : Nat} (h : d < 32768) :
    (unpackSample d).a = expand3 (BitVec.ofNat 3 (bitField d 14 12)) := by
  have hbit : bitField d 15 15 = 0 := by
    simp only [bitField]
    omega
  rw [unpackSample, sampleOfWord, if_pos hbit]
  rfl

/-- Bit 15 set selects the format without alpha (R109, R111, R236). -/
theorem unpackSample_alpha_of_bit15 {d : Nat} (hlow : 32768 ≤ d) (hhigh : d < 65536) : (unpackSample d).a = 255 := by
  have hbit : bitField d 15 15 ≠ 0 := by
    simp only [bitField]
    omega
  rw [unpackSample, sampleOfWord, if_neg hbit]
  rfl

theorem unpackSample_alpha_eq_zero_iff {d : Nat} (hd : d < 65536) : (unpackSample d).a = 0 ↔ d < 4096 := by
  by_cases hbit : d < 32768
  · rw [unpackSample_alpha_of_bit15_clear hbit, expand3_eq_zero_iff, ← BitVec.toNat_inj,
      toNat_ofNat_bitField (by rfl), show (0 : BitVec 3).toNat = 0 from rfl]
    omega
  · rw [unpackSample_alpha_of_bit15 (by omega) hd]
    exact iff_of_false (by decide) (by omega)

/-- Settles O29, by the alpha of each format. -/
theorem zeroAlphaGivesTransparentBlack : Obligations.ZeroAlphaGivesTransparentBlack := by
  intro d hd
  refine ⟨unpackSample_alpha_eq_zero_iff hd, fun hlow => ?_, pixelBytes_forced_alpha d⟩
  rw [pixelBytes, alphaStage_transparent ((unpackSample_alpha_eq_zero_iff hd).2 hlow)]
  rfl

/-! ### The address translator -/

theorem rasterX_lt (s : Nat) : rasterX s < rasterWidth := by
  simp only [rasterX, tileCol, inTileCol, rasterWidth, tileSide, tilesPerRow]
  omega

theorem rasterIndex_mod_width (s : Nat) : rasterIndex s % rasterWidth = rasterX s := by
  rw [rasterIndex, Nat.mul_add_mod, Nat.mod_eq_of_lt (rasterX_lt s)]

theorem rasterIndex_div_width (s : Nat) : rasterIndex s / rasterWidth = rasterY s := by
  rw [rasterIndex, Nat.mul_add_div (by decide), Nat.div_eq_of_lt (rasterX_lt s), Nat.add_zero]

/-- The bit layout of R243: the low ten bits of the raster index are the column's, the others the row's. -/
theorem rasterIndex_fields (s : Nat) :
    rasterIndex s % 4 = s % 4 ∧ rasterIndex s / 4 % 256 = s / 16 % 256 ∧ rasterIndex s / 1024 % 4 = s / 4 % 4 ∧
      rasterIndex s / 4096 = s / 4096 := by
  have hx := rasterIndex_mod_width s
  have hy := rasterIndex_div_width s
  simp only [rasterX, rasterY, tileCol, tileRow, inTileCol, inTileRow, rasterWidth, tileSide, tilesPerRow] at hx hy
  omega

/-- Settles O30: the translator keeps the tile-row, which decides whether an index lies in a buffer of whole ones. -/
theorem translatorPermutesThePixels : Obligations.TranslatorPermutesThePixels := by
  refine ⟨rasterIndex_fields, sampleOfRaster_rasterIndex, rasterIndex_sampleOfRaster, fun npix s hn => ?_⟩
  obtain ⟨-, -, -, hrow⟩ := rasterIndex_fields s
  omega

/-! ### The length check -/

/-- A length with an incomplete tile-row takes the fault (R231). -/
theorem checkLength_of_partial {s : State} (h : s.inLen.toNat % tileRowStride ≠ 0) :
    checkLength s = raise .badLength (s.inLen.toNat / tileRowStride * tileRowStride) s := if_neg h

/-- The instruction of a pixel command tells its alpha mode (R136, R137). -/
theorem eq_pixelCommand {i : Instr} (h : i = .decodeTileset ∨ i = .decodeTilesetOpaque) :
    i = commandInstr (pixelCommand (decide (i = .decodeTileset))) := by
  rcases h with rfl | rfl <;> rfl

theorem exec_pixelCommand_of_partial {s : State} (honorAlpha : Bool) (hb : s.status ≠ .busy)
    (hlen : s.inLen.toNat % tileRowStride ≠ 0) :
    exec (commandInstr (pixelCommand honorAlpha)) s = .next
      (raise .badLength (s.inLen.toNat / tileRowStride * tileRowStride) (beginPixels honorAlpha (commandStart s))) := by
  rw [exec_command_of_not_busy _ hb, beginCommand_pixelCommand]
  exact congrArg _ (checkLength_of_partial hlen)

/-- Settles O34: the length check takes the fault after the common writes and the command's own. -/
theorem badLengthFaults : Obligations.BadLengthFaults := by
  intro s i hb hlen hi
  have hoffset : s.inLen.toNat / 8192 * 8192 < 2 ^ 32 := (Nat.div_mul_le_self ..).trans_lt s.inLen.isLt
  have hexec := exec_pixelCommand_of_partial (decide (i = .decodeTileset)) hb hlen
  rw [← eq_pixelCommand hi] at hexec
  exact ⟨_, hexec, faultIs_raise hoffset _, rfl, rfl, rfl, rfl, ⟨fun _ => rfl, rfl⟩, rfl, rfl, rfl⟩

/-! ### Completion -/

/-- `CMD` 2 and 3 are the pixel commands under the default codes (R120). -/
theorem PixelsRun.runs {s : State} (h : PixelsRun s) : Runs config .pixelDecoder s := by
  obtain ⟨hs, hb, hcmd⟩ := h
  exact ⟨hs, hb, by rcases hcmd with hcmd | hcmd <;> rw [hcmd] <;> rfl⟩

/-- Every sample is done (R246). -/
theorem PixelsRun.step_finish {s : State} (h : PixelsRun s) (hl : s.pix.latch = none) (hs : s.pix.s = s.pix.npix) :
    step s = .next (finishPixels config s) := by
  have hfetch : fetch config s = .internal := h.fetch_eq.trans (fetchPixel_of_end hl (by omega))
  rw [step, stepWith_of_fetch_internal hfetch, internalStep, h.runs.engine_eq]

/-- Settles O27: `2 × IN_LEN` fits the 33 bits of `OUT_LEN`. -/
theorem pixelDecoderCompletes : Obligations.PixelDecoderCompletes := by
  intro s h hl hs
  have hlen : (finishPixels config s).outLen.toNat = 2 * s.inLen.toNat := by
    have hin := s.inLen.isLt
    have hbits : config.outLenBits = 33 := rfl
    rw [finishPixels, complete_outLen, hbits, BitVec.toNat_ofNat]
    omega
  exact ⟨_, h.step_finish hl hs, rfl, hlen, rfl, fun _ => rfl, ⟨fun _ => rfl, rfl⟩, rfl, rfl, rfl, rfl, rfl, rfl, rfl,
    rfl⟩

/-! ### The raster as the de-tiled image -/

theorem memWf_wholePixels (inp : List Byte) (honorAlpha : Bool) (n s : Nat) {out : Memory} (h : memWf out = true) :
    memWf (wholePixels inp honorAlpha n s out) = true := by
  induction n generalizing s out with
  | zero => exact h
  | succ n ih => exact ih (s + 1) (memWf_memWriteN h ..)

/-- The four bytes of raster pixel `p` are its own sample's (R244). -/
theorem memReadN_raster {inp : List Byte} (honorAlpha : Bool) (hlen : inp.length % tileRowStride = 0) {p : Nat}
    (hp : p < inp.length / 2) :
    memReadN (wholePixels inp honorAlpha (inp.length / 2) 0 []) (4 * p) 4 =
      some (pixelBytes honorAlpha (sampleAt inp (sampleOfRaster p))) :=
  memReadN_of_memRead (memWf_wholePixels inp honorAlpha _ 0 rfl) fun _ hk => memRead_raster honorAlpha hlen hp hk

/-- Settles O51: the run ends with the raster of R247, which is read pixel by pixel. -/
theorem rasterIsTheDetiledImage : Obligations.RasterIsTheDetiledImage := by
  intro c hc inp s honorAlpha hready hlen
  obtain ⟨t, -, hstart, hend⟩ := pixelCommandsReachTheWholeFunction c hc inp s honorAlpha hready
  rw [decodeTilesetFn, if_pos (show inp.length % tileRowStride = 0 from hlen)] at hend
  obtain ⟨u, hu, hdone, hout, hraster, -⟩ := hend
  exact ⟨t, u, hstart, hu, hdone, hout, fun p hp => by rw [hraster, memReadN_raster honorAlpha hlen hp]⟩

end Sys2Proof.Machine
end

section
/-! PROOFS. Faults and outcomes (spec `60_exceptions.md`): what taking a fault writes (R270), which faults a command can
raise and where they lie in the input (R261, R263), and how long an outcome lasts (R273). -/

namespace Sys2Proof.Machine

/-! ### The faults of a command -/

/-- A fault that the command `k` may take on an input of `len` bytes: its kind is the command's own (R261) and its offset is
in the input or at its end (R263). -/
inductive OwnFault (k : Command) (len : Nat) : State → Prop
  | stream {cause : ErrCause} {offset : Nat} {u : State} (hk : k = .decompress)
      (hkind : kindOfCause cause = .malformedStream) (hoffset : offset ≤ len) : OwnFault k len (raise cause offset u)
  | length {offset : Nat} {u : State} (hk : k = .decodeTileset ∨ k = .decodeTilesetOpaque) (hoffset : offset ≤ len) :
      OwnFault k len (raise .badLength offset u)

theorem OwnFault.errOffset_le {k : Command} {len : Nat} {t : State} (h : OwnFault k len t) : t.errOffset.toNat ≤ len := by
  have hmod (offset : Nat) (hle : offset ≤ len) : (BitVec.ofNat 32 offset).toNat ≤ len := by
    rw [BitVec.toNat_ofNat]
    exact (Nat.mod_le ..).trans hle
  cases h with
  | stream _ _ hoffset => exact hmod _ hoffset
  | length _ hoffset => exact hmod _ hoffset

/-- The causes of `MalformedStream` (R262). -/
theorem kindOfCause_malformedStream {cause : ErrCause} (h : kindOfCause cause = .malformedStream) :
    cause = .truncatedHeader ∨ cause = .truncatedToken ∨ cause = .refBeforeStart ∨ cause = .badTag := by
  cases cause <;> simp [kindOfCause] at h ⊢

section
variable {c : Config} {s t : State}

/-- Behind the header the read cursor is an offset of the input (R187). -/
theorem DecInv.rp_le (h : DecInv c s) (hd : s.dec.dstate ≠ .hdr) : s.dec.rp ≤ s.inLen.toNat := by
  obtain ⟨-, hle⟩ := h.cursor hd
  exact hle

/-- The start of a back-reference token is an offset of the input, as its bytes are read from there on (R175). -/
theorem DecInv.tokStart_le (h : DecInv c s) (hd : s.dec.dstate = .ref) : s.dec.tokStart ≤ s.inLen.toNat := by
  obtain ⟨-, hstart⟩ := h.token (.inr hd)
  exact hstart.trans_le (h.rp_le (by simp [hd]))

/-- Five rows of R185 always fault and a token may; no other row writes `ERR`. -/
theorem DecoderMove.ownFault (h : DecInv c s) (hb : s.status = .busy) (hm : DecoderMove c s t) (herr : t.status = .err) :
    OwnFault .decompress s.inLen.toNat t := by
  have hne : s.status ≠ .err := by simp [hb]
  cases hm with
  | headerTruncated => exact .stream rfl rfl (Nat.zero_le _)
  | badTag => exact .stream rfl rfl (Nat.zero_le _)
  | controlTruncated hd => exact .stream rfl rfl (h.rp_le (by simp [hd]))
  | literalTruncated hd => exact .stream rfl rfl (h.rp_le (by simp [hd]))
  | referenceTruncated hd => exact .stream rfl rfl (h.tokStart_le hd)
  | reference size len dist hd =>
    rcases Nat.lt_or_ge s.dec.wp dist with hdist | hdist
    · rw [takeReference_of_lt hdist]
      exact .stream rfl rfl (h.tokStart_le hd)
    · rw [takeReference_of_le hdist] at herr
      exact absurd herr hne
  | finish => cases herr
  | _ => exact absurd herr hne

/-- `COMPRESS` raises no fault (R261). -/
theorem EncoderMove.status_ne_err (hb : s.status = .busy) (hm : EncoderMove c s t) : t.status ≠ .err := by
  have hne : s.status ≠ .err := by simp [hb]
  cases hm with
  | finish => nofun
  | _ => exact hne

/-- A pixel command raises none after its `START` (R231, R232). -/
theorem PixelMove.status_ne_err (hb : s.status = .busy) (hm : PixelMove c s t) : t.status ≠ .err := by
  have hne : s.status ≠ .err := by simp [hb]
  cases hm with
  | finish => nofun
  | _ => exact hne

/-- The length check of a pixel command faults at the start of the incomplete tile-row (R231). -/
theorem beginPixels_ownFault {k : Command} {honorAlpha : Bool} (hk : k = .decodeTileset ∨ k = .decodeTilesetOpaque)
    (herr : (checkLength (beginPixels honorAlpha (commandStart s))).status = .err) :
    OwnFault k s.inLen.toNat (checkLength (beginPixels honorAlpha (commandStart s))) := by
  rcases checkLength_cases (beginPixels honorAlpha (commandStart s)) with ⟨-, hx⟩ | ⟨-, hx⟩
  · rw [hx] at herr
    cases herr
  · rw [hx]
    exact .length hk (Nat.div_mul_le_self ..)

/-- At an accepted `START` only the pixel commands can fault (R231). -/
theorem beginCommand_ownFault {k : Command} (herr : (beginCommand k (commandStart s)).status = .err) :
    OwnFault k s.inLen.toNat (beginCommand k (commandStart s)) := by
  cases k with
  | decompress => cases herr
  | compress => cases herr
  | decodeTileset => exact beginPixels_ownFault (.inl rfl) herr
  | decodeTilesetOpaque => exact beginPixels_ownFault (.inr rfl) herr

/-- A step that ends in `ERR`, on a raised `START` or of a running command, has taken a fault of the command in `CMD`. -/
theorem BlockInv.ownFault_of_step (h : BlockInv c s) (hrun : s.start = true ∨ s.status = .busy)
    (hstep : stepWith c s = .next t) (herr : t.status = .err) : OwnFault (c.commandOf s.cmd) s.inLen.toNat t := by
  rcases step_cases hstep with ⟨-, hx⟩ | ⟨hs, hb, -⟩ | ⟨-, hb, he, hm⟩ | ⟨-, hb, -, hm⟩ | ⟨-, hb, -, hm⟩
  · by_cases hb : s.status = .busy
    · rw [exec_command_of_busy _ hb] at hx
      cases hx
      exact absurd herr (by simp [hb])
    · rw [exec_command_of_not_busy _ hb] at hx
      cases hx
      exact beginCommand_ownFault herr
  · exact absurd hrun (by simp [hs, hb])
  · rw [eq_decompress_of_engineOf he]
    exact hm.ownFault (h.decInv hb he) hb herr
  · exact absurd herr (hm.status_ne_err hb)
  · exact absurd herr (hm.status_ne_err hb)

/-- A fault that the host's `START` answers is the command's own too: that move is the step on the raised line. -/
theorem BlockInv.ownFault (h : BlockInv c s)
    (hmove : ((s.start = true ∨ s.status = .busy) ∧ stepWith c s = .next t) ∨ hostStart c s = .next t)
    (herr : t.status = .err) : OwnFault (c.commandOf s.cmd) s.inLen.toNat t := by
  rcases hmove with ⟨hrun, hstep⟩ | hstart
  · exact h.ownFault_of_step hrun hstep herr
  · exact (h.with_start true).ownFault_of_step (s := { s with start := true }) (.inl rfl)
      (stepWith_of_hostStart hstart) herr

end

/-! ### How long an outcome lasts -/

/-- With no `START` raised the block waits outside a command (R302). -/
theorem stepWith_of_waiting (c : Config) {s : State} (hs : s.start = false) (hb : s.status ≠ .busy) :
    stepWith c s = .next s := by
  simp [stepWith, fetch, hs, hb]

theorem steps_of_waiting (c : Config) {s : State} (hs : s.start = false) (hb : s.status ≠ .busy) (k : Nat) :
    steps c k s = .next s := by
  induction k with
  | zero => rfl
  | succ k ih => rw [steps_succ_of_next (stepWith_of_waiting c hs hb), ih]

/-- Every accepted command begins, but for a pixel command on an incomplete tile-row (R37, R130, R231). -/
theorem exec_command_begun {i : Instr} {s : State} (hb : s.status ≠ .busy) (hi : i.ctx = .command)
    (hlen : (i = .decodeTileset ∨ i = .decodeTilesetOpaque) → s.inLen.toNat % 8192 = 0) :
    ∃ t, exec i s = .next t ∧ Begun s t := by
  obtain ⟨k, rfl⟩ := eq_commandInstr_of_ctx hi
  cases k with
  | decompress => exact ⟨_, exec_command_of_not_busy .decompress hb, begun_beginDecompress s⟩
  | compress => exact ⟨_, exec_command_of_not_busy .compress hb, begun_beginCompress s⟩
  | decodeTileset =>
    obtain ⟨⟨t, hexec, hbegun, -⟩, -⟩ := pixelCommandsBegin s hb (hlen (.inl rfl))
    exact ⟨t, hexec, hbegun⟩
  | decodeTilesetOpaque =>
    obtain ⟨-, t, hexec, hbegun, -⟩ := pixelCommandsBegin s hb (hlen (.inr rfl))
    exact ⟨t, hexec, hbegun⟩

/-! ### The statements -/

/-- Settles O36: an offset below `2 ^ 32` fits `ERR_OFFSET`. -/
theorem raiseRecordsTheFault : Obligations.RaiseRecordsTheFault := by
  intro cause offset s hoffset
  obtain ⟨hstatus, hkind, hcause, hrecorded, hlen⟩ := faultIs_raise (cause := cause) hoffset s
  exact ⟨hkind, hcause, hrecorded, hlen, hstatus, rfl, rfl, rfl, rfl, ⟨fun _ => rfl, rfl⟩, rfl, rfl⟩

/-- Settles O37, by the two forms of a command's own fault. -/
theorem eachCommandRaisesItsOwnFaults : Obligations.EachCommandRaisesItsOwnFaults := by
  intro c s t h hmove herr
  cases h.ownFault hmove herr with
  | stream hk hkind => exact .inl ⟨hk, hkind, kindOfCause_malformedStream hkind⟩
  | length hk => exact .inr ⟨hk, rfl, rfl⟩

/-- Settles O38: the offset of a command's own fault, and no move of the block writes `IN_LEN`. -/
theorem faultOffsetIsWithinTheInput : Obligations.FaultOffsetIsWithinTheInput := by
  intro c s t h hmove herr
  have hsame : SameHostSide s t := by
    rcases hmove with ⟨-, hstep⟩ | hstart
    · exact stepWith_sameHostSide hstep
    · exact hostStart_sameHostSide hstart
  obtain ⟨-, hinLen, -⟩ := hsame
  rw [hinLen]
  exact (h.ownFault hmove herr).errOffset_le

/-- Settles O39: an accepted command begins with the error registers clear, or its length check has taken the fault. -/
theorem outcomeLastsUntilTheNextStart : Obligations.OutcomeLastsUntilTheNextStart := by
  refine ⟨fun s hs hb k => steps_of_waiting config hs hb k, fun s i hb hi => ?_, fun _ => ⟨rfl, rfl, rfl, rfl⟩⟩
  by_cases hbad : (i = .decodeTileset ∨ i = .decodeTilesetOpaque) ∧ s.inLen.toNat % 8192 ≠ 0
  · obtain ⟨hpixel, hlen⟩ := hbad
    obtain ⟨t, hexec, hfault, -⟩ := badLengthFaults s i hb hlen hpixel
    exact ⟨t, hexec, .inr ⟨hpixel, hlen, hfault⟩⟩
  · obtain ⟨t, hexec, hstatus, -, hkind, hcause, hoffset, -⟩ :=
      exec_command_begun hb hi fun hpixel => by_contra fun hlen => hbad ⟨hpixel, hlen⟩
    exact ⟨t, hexec, .inl ⟨hstatus, hkind, hcause, hoffset⟩⟩

end Sys2Proof.Machine
end

section
/-! PROOFS. The capacity of `OUT` (spec R23, R130, R141, R309, R316): what `START` answers, when it is refused, and that no
state of an admitted launch has an `OUT_LEN` beyond the bound that was compared with `OUT_CAP`. -/

namespace Sys2Proof.Machine

/-! ### What `START` answers -/

/-- The result may not fit: `OUT_CAP` is finite and less than the bound (R309). -/
theorem fitsCapacity_eq_false_iff (c : Config) (s : State) :
    fitsCapacity c s = false ↔ ∃ cap, c.outCap = some cap ∧ cap < resultBound c s := by
  unfold fitsCapacity
  cases c.outCap <;> simp

/-- A launch is refused for want of capacity and for nothing else (R309). -/
theorem hostStart_refused_iff (c : Config) (s : State) :
    hostStart c s = .refused .outCapacity ↔ s.status ≠ .busy ∧ fitsCapacity c s = false := by
  rcases hostStart_cases c s with ⟨hb, hfits, hr⟩ | ⟨hok, hx⟩
  · exact iff_of_true hr ⟨hb, hfits⟩
  · obtain ⟨t, ht⟩ := exec_next (commandInstr (c.commandOf s.cmd)) { s with start := true }
    rw [hx, ht]
    refine iff_of_false nofun fun ⟨hb, hfits⟩ => ?_
    rw [hfits] at hok
    exact hok.elim hb nofun

/-- An accepted command is `BUSY` at once, or its length check has taken the fault (R130, R231; log entry 1). -/
theorem beginCommand_busy_or_badLength (k : Command) (s : State) :
    (beginCommand k (commandStart s)).status = .busy ∨
      FaultIs (beginCommand k (commandStart s)) .badLength (s.inLen.toNat / tileRowStride * tileRowStride) := by
  have hcheck (honorAlpha : Bool) :
      (checkLength (beginPixels honorAlpha (commandStart s))).status = .busy ∨
        FaultIs (checkLength (beginPixels honorAlpha (commandStart s))) .badLength
          (s.inLen.toNat / tileRowStride * tileRowStride) := by
    rcases checkLength_cases (beginPixels honorAlpha (commandStart s)) with ⟨-, hx⟩ | ⟨-, hx⟩ <;> rw [hx]
    · exact .inl rfl
    · exact .inr (faultIs_raise ((Nat.div_mul_le_self ..).trans_lt s.inLen.isLt) _)
  cases k with
  | decompress => exact .inl rfl
  | compress => exact .inl rfl
  | decodeTileset => exact hcheck true
  | decodeTilesetOpaque => exact hcheck false

/-! ### Runs of one engine -/

/-- A property that every step of the running engine keeps holds along the run: `CMD` does not change, and outside a command
no step does anything (R302). -/
theorem Reaches.induct_engine {c : Config} {e : Engine} {P : State → Prop}
    (hstep : ∀ s t, Runs c e s → P s → stepWith c s = .next t → P t) {s u : State} (h : Reaches c s u)
    (hs : s.start = false) (he : engineOfCmd c s.cmd = e) (h0 : P s) : P u := by
  suffices hall : P u ∧ u.start = false ∧ engineOfCmd c u.cmd = e from hall.1
  refine h.induct (P := fun s => P s ∧ s.start = false ∧ engineOfCmd c s.cmd = e) ?_ ⟨h0, hs, he⟩
  intro s t ⟨hp, hs, he⟩ hx
  by_cases hb : s.status = .busy
  · obtain ⟨-, -, hcmd⟩ := stepWith_sameHostSide hx
    exact ⟨hstep s t ⟨hs, hb, he⟩ hp hx, stepWith_start_down hx, hcmd ▸ he⟩
  · rw [stepWith_of_waiting c hs hb] at hx
    cases hx
    exact ⟨hp, hs, he⟩

/-- Of a run there is one end: where two states that are reached both wait, they are the same. -/
theorem Reaches.waiting_unique {c : Config} {s u v : State} (hu : Reaches c s u) (hv : Reaches c s v)
    (hs : s.start = false) (hbu : u.status ≠ .busy) (hbv : v.status ≠ .busy) : u = v := by
  have hus := hu.start_down hs
  have hvs := hv.start_down hs
  obtain ⟨k, hk⟩ := hu
  obtain ⟨m, hm⟩ := hv
  induction k generalizing s m with
  | zero =>
    cases hk
    rw [steps_of_waiting c hus hbu] at hm
    cases hm
    rfl
  | succ k ih =>
    obtain ⟨t, ht, hk'⟩ := exists_step_of_steps hk
    cases m with
    | zero =>
      cases hm
      rw [steps_of_waiting c hvs hbv] at hk
      cases hk
      rfl
    | succ m =>
      rw [steps_succ_of_next ht] at hm
      exact ih (stepWith_start_down ht) hk' m hm

/-- `OUT_LEN` holds no more than the length that a command completes with. -/
theorem complete_outLen_le (c : Config) (n : Nat) (s : State) : (complete c n s).outLen.toNat ≤ n := by
  rw [complete_outLen, BitVec.toNat_ofNat]
  exact (Nat.mod_le ..).trans (Nat.mod_le ..)

/-! ### The bound of `DECOMPRESS` -/

/-- The length that a running decoder is to complete with: the header's, which stands in `IN` until it is in `total_len`. -/
def decoderTotal (c : Config) (s : State) : Nat :=
  if s.dec.dstate = .hdr then headerLength c s else s.dec.totalLen

/-- `OUT_LEN` is at most `n`, and `n` is the length that a running decoder is to complete with. -/
def DecoderWithin (c : Config) (n : Nat) (s : State) : Prop :=
  s.outLen.toNat ≤ n ∧ (s.status = .busy → decoderTotal c s = n)

section
variable {c : Config} {n : Nat} {s t : State}

theorem decoderWithin_raise (cause : ErrCause) (offset : Nat) : DecoderWithin c n (raise cause offset s) :=
  ⟨Nat.zero_le n, nofun⟩

/-- A move behind the header that leaves the interface and `total_len` as they are. -/
theorem DecoderWithin.move (h : DecoderWithin c n s) (hd : s.dec.dstate ≠ .hdr) (hlen : t.outLen = s.outLen)
    (hstatus : t.status = s.status) (hd' : t.dec.dstate ≠ .hdr) (htotal : t.dec.totalLen = s.dec.totalLen) :
    DecoderWithin c n t := by
  obtain ⟨hle, hbusy⟩ := h
  refine ⟨hlen ▸ hle, fun hb => ?_⟩
  have hn := hbusy (hstatus ▸ hb)
  rw [decoderTotal, if_neg hd] at hn
  rw [decoderTotal, if_neg hd', htotal, hn]

/-- The header that is fetched is the one that the bound was read from (R170 to R172, R309). -/
theorem DecoderWithin.header (h : DecoderWithin c n s) (hr : Runs c .lzDecoder s) (hd : s.dec.dstate = .hdr)
    (hx : stepWith c s = .next t) : DecoderWithin c n t := by
  obtain ⟨hle, hbusy⟩ := h
  have ⟨_, hb, he⟩ := hr
  have hn := hbusy hb
  rw [decoderTotal, if_pos hd, headerLength] at hn
  rw [stepWith, hr.fetch_decoder, fetchStream, hd] at hx
  dsimp only at hx
  rcases fetchHeader_cases c s.inp s.inLen.toNat with ⟨i, hi⟩ | hi | ⟨r, hi⟩ | hi <;> rw [hi] at hx hn
  · obtain ⟨hk, -⟩ := fetchHeader_instr_size hi
    cases i <;> simp only [Instr.ctx, reduceCtorEq] at hk
    case hdr len24 =>
      cases hx
      exact ⟨hle, fun _ => hn⟩
    case hdrx len32 =>
      cases hx
      exact ⟨hle, fun _ => hn⟩
  · simp only [takeTruncated, he, hd] at hx
    cases hx
    exact decoderWithin_raise ..
  · cases r <;> cases hx
    exact decoderWithin_raise ..
  · cases hx

/-- Behind the header no row of R185 writes `total_len`, and the one that completes writes it to `OUT_LEN` (R184). -/
theorem DecoderMove.keeps_within (hm : DecoderMove c s t) (h : DecoderWithin c n s) (hb : s.status = .busy)
    (hd : s.dec.dstate ≠ .hdr) : DecoderWithin c n t := by
  cases hm with
  | headerTruncated hd' => exact absurd hd' hd
  | badTag hd' => exact absurd hd' hd
  | header _ hd' => exact absurd hd' hd
  | headerX _ hd' => exact absurd hd' hd
  | finish =>
    obtain ⟨-, hbusy⟩ := h
    have hn := hbusy hb
    rw [decoderTotal, if_neg hd] at hn
    exact ⟨hn ▸ complete_outLen_le .., nofun⟩
  | controlTruncated => exact decoderWithin_raise ..
  | literalTruncated => exact decoderWithin_raise ..
  | referenceTruncated => exact decoderWithin_raise ..
  | bit => exact h.move hd rfl rfl (by rw [bitTest_dec]; dsimp only; split <;> nofun) rfl
  | reference size len dist =>
    rcases Nat.lt_or_ge s.dec.wp dist with hdist | hdist
    · rw [takeReference_of_lt hdist]
      exact decoderWithin_raise ..
    · rw [takeReference_of_le hdist]
      exact h.move hd rfl rfl nofun rfl
  | toBit => exact h.move hd rfl rfl nofun rfl
  | control => exact h.move hd rfl rfl nofun rfl
  | literal => exact h.move hd rfl rfl nofun rfl
  | copyDone => exact h.move hd rfl rfl nofun rfl
  | copyByte _ hd' => exact h.move hd rfl rfl hd rfl

/-- No state of a `DECOMPRESS` has more in `OUT_LEN` than the header says. -/
theorem Reaches.outLen_le_headerLength (hk : c.commandOf s.cmd = .decompress)
    (h : Reaches c (beginCommand .decompress (commandStart s)) t) : t.outLen.toNat ≤ headerLength c s := by
  have hbegin : DecoderWithin c (headerLength c s) (beginCommand .decompress (commandStart s)) :=
    ⟨Nat.zero_le _, fun _ => rfl⟩
  suffices hend : DecoderWithin c (headerLength c s) t from hend.1
  refine h.induct_engine (e := .lzDecoder) (fun r u hr hw hx => ?_) rfl (congrArg engineOf hk) hbegin
  by_cases hd : r.dec.dstate = .hdr
  · exact hw.header hr hd hx
  · obtain ⟨hs, hb, he⟩ := hr
    exact (decoderMove_of_step hs hb he hx).keeps_within hw hb hd

end

/-! ### The bound of `COMPRESS` -/

/-- During a `COMPRESS` there is no result yet; when it is over, the result is R216's (R215, R216). -/
theorem Ready.outLen_le_compressFn {c : Config} (hc : c.Lawful) (hbuf : c.Buffered) {inp : List Byte} {s u : State}
    (h : Ready c .compress inp s) (hu : Reaches c (beginCommand .compress (commandStart s)) u) :
    u.outLen.toNat ≤ (compressFn c inp).length := by
  have hpending : u.status = .busy → u.outLen = 0 := by
    have ⟨_, hk, _⟩ := h
    refine hu.induct_engine (e := .lzEncoder) (P := fun r => r.status = .busy → r.outLen = 0)
      (fun r u hr hp hx => ?_) rfl (congrArg engineOf hk) fun _ => rfl
    obtain ⟨hs, hb, he⟩ := hr
    cases encoderMove_of_step hs hb he hx with
    | finish => nofun
    | _ => exact hp
  by_cases hb : u.status = .busy
  · rw [hpending hb]
    exact Nat.zero_le _
  · obtain ⟨t, v, hexec, -, hv, hdone, hlen, -⟩ := compressReachesTheWholeFunction c hc hbuf inp s h
    cases h.begins.1.symm.trans hexec
    rw [hu.waiting_unique hv rfl hb (by rw [hdone]; decide), hlen]

/-! ### The bound of the pixel commands -/

/-- No state of a pixel command has more in `OUT_LEN` than twice `IN_LEN`, and none has anything where the length check
has taken the fault (R231, R246). -/
theorem Reaches.outLen_le_raster {c : Config} {honorAlpha : Bool} {s u : State}
    (hk : c.commandOf s.cmd = pixelCommand honorAlpha)
    (h : Reaches c (beginCommand (pixelCommand honorAlpha) (commandStart s)) u) :
    u.outLen.toNat ≤ if s.inLen.toNat % tileRowStride = 0 then 2 * s.inLen.toNat else 0 := by
  rw [beginCommand_pixelCommand] at h
  rcases checkLength_cases (beginPixels honorAlpha (commandStart s)) with ⟨hwhole, hx⟩ | ⟨hbad, hx⟩ <;> rw [hx] at h
  · rw [if_pos (show s.inLen.toNat % tileRowStride = 0 from hwhole)]
    have he : engineOfCmd c s.cmd = .pixelDecoder := (congrArg engineOf hk).trans (engineOf_pixelCommand _)
    suffices hend : u.inLen = s.inLen ∧ u.outLen.toNat ≤ 2 * s.inLen.toNat from hend.2
    refine h.induct_engine (P := fun r => r.inLen = s.inLen ∧ r.outLen.toNat ≤ 2 * s.inLen.toNat)
      (fun r t hr ⟨hlen, hle⟩ hstep => ?_) rfl he ⟨rfl, Nat.zero_le _⟩
    obtain ⟨hs, hb, he⟩ := hr
    cases pixelMove_of_step hs hb he hstep with
    | finish => exact ⟨hlen, hlen ▸ complete_outLen_le ..⟩
    | sample => exact ⟨hlen, hle⟩
    | raster => exact ⟨hlen, hle⟩
  · obtain ⟨k, hsteps⟩ := h
    rw [steps_of_waiting c (raise_start ..) (by rw [raise_status]; decide)] at hsteps
    cases hsteps
    exact Nat.zero_le _

/-! ### The statement -/

/-- No state of an admitted launch has more in `OUT_LEN` than the bound that was compared with `OUT_CAP` (R141, R309). -/
theorem Ready.outLen_le_resultBound {c : Config} (hc : c.Lawful) (hbuf : c.Buffered) (hcompact : c.Compact)
    {k : Command} {inp : List Byte} {s t u : State} (h : Ready c k inp s) (ht : hostStart c s = .next t) (hu : Reaches c t u) :
    u.outLen.toNat ≤ resultBound c s := by
  have ⟨hidle, hk, hin, _⟩ := h
  rw [hostStart_next_of_not_busy hidle ht, hk] at hu
  rw [resultBound, engineOfCmd, hk]
  cases k with
  | decompress => exact hu.outLen_le_headerLength hk
  | compress =>
    have hsize := compressedSizeIsBounded c hcompact inp
    rw [← hin.length_eq] at hsize
    exact (h.outLen_le_compressFn hc hbuf hu).trans hsize
  | decodeTileset => exact Reaches.outLen_le_raster (honorAlpha := true) hk hu
  | decodeTilesetOpaque => exact Reaches.outLen_le_raster (honorAlpha := false) hk hu

/-- Settles O60: the bound is what the launch compares with `OUT_CAP`, and it holds of whatever the launch reaches. -/
theorem capacityDecidesTheLaunch : Obligations.CapacityDecidesTheLaunch := by
  refine ⟨fun s => ?_, fun c s => ?_, fun c hc hbuf hcompact cap k inp s t u hcap hready ht hu => ?_⟩
  · rcases hostStart_cases config s with ⟨-, hno, -⟩ | ⟨-, hstart⟩
    · exact absurd (show true = false from hno) nofun
    by_cases hb : s.status = .busy
    · rw [exec_command_of_busy (s := { s with start := true }) _ hb] at hstart
      exact ⟨_, hstart, rfl, fun hne => absurd hb hne, fun _ => rfl⟩
    · rw [exec_command_of_not_busy (s := { s with start := true }) _ hb] at hstart
      exact ⟨_, hstart, hostStart_start_down hstart, fun _ => beginCommand_busy_or_badLength _ _,
        fun hbusy => absurd hbusy hb⟩
  · rw [hostStart_refused_iff, fitsCapacity_eq_false_iff]
  · have ⟨_, _, _, _, hfits⟩ := hready
    refine (hready.outLen_le_resultBound hc hbuf hcompact ht hu).trans (Nat.not_lt.1 fun hlt => ?_)
    rw [(fitsCapacity_eq_false_iff c s).2 ⟨cap, hcap, hlt⟩] at hfits
    cases hfits

end Sys2Proof.Machine
end
